-- ==== Sys2Proof/Word.lean ====
section
/-! DEFINITION. The word types of the BCU: bytes, 32-bit words and addresses, the colour quad (spec/00_scope.md R5, R6). -/

namespace Sys2Proof

/-- A memory byte, a block-buffer byte or one colour component (R6: each lies in 0..255). -/
abbrev Byte := BitVec 8

/-- A 32-bit command word or register (R5: CMD_BITS = 32). -/
abbrev Word := BitVec 32

/-- A byte address (R5: AW = 32). Its arithmetic is modulo 2^32 by type (R52). -/
abbrev Addr := BitVec 32

/-- The colour quad: components R, G, B, A = 0, 1, 2, 3 (R6, R8). -/
structure Pixel where
  r : Byte
  g : Byte
  b : Byte
  a : Byte
  deriving DecidableEq, Repr, Inhabited

/-- One 8-byte element of a block, in address order (R22, R53). -/
abbrev Elem := Vector Byte 8

/-- The block buffer: element 0 is bytes 0..7, element 1 bytes 8..15 (R22). -/
abbrev Block := Vector Byte 16

/-- The pixel register file `P[0..15]`, `P[4*y + x]` the pixel at column x and row y (R21). -/
abbrev Pixels := Vector Pixel 16

end Sys2Proof
end

