-- ==== Sys2Proof/Syntax.lean ====
section
/-! DEFINITION. The 21 commands of the BCU as syntax: spec/30_encoding.md R70 to R74, one constructor a row of the opcode table. -/

namespace Sys2Proof

/-- The control registers (10_state.md R25). Numbers 7 and 16..255 are reserved and have no constructor. -/
inductive CtrlReg where
  | fmt
  | ctrl
  | status
  | err
  | bptr
  | pptr
  | pkStride
  | pkSize (c : Fin 4)
  | pkOfs (c : Fin 4)
  deriving DecidableEq, Repr

/-- The operand `e` of QNT and SETEA: 0 = low, 1 = high (R203). -/
inductive Endpoint where
  | low
  | high
  deriving DecidableEq, Repr

/-- The operand `mode` of CANON: 0 = the opaque 4-colour table is intended, 1 = the cutout 3-colour table (R217). -/
inductive ColourScheme where
  | fourColour
  | threeColour
  deriving DecidableEq, Repr

/-- The operand `mode` of CANONA: 0 = the 8-level scheme is intended, 1 = the 6-level scheme (R219). -/
inductive AlphaScheme where
  | eightLevel
  | sixLevel
  deriving DecidableEq, Repr

/-- One command (R72). Field widths are those of R71: imm16 16 bits, CLRST's mask bits 4:1, i and first 4 bits, cnt 5 bits. -/
inductive Instr where
  | nop
  | wrcr (cr : CtrlReg) (imm16 : BitVec 16)
  | wrcrh (cr : CtrlReg) (imm16 : BitVec 16)
  | rdcr (cr : CtrlReg)
  | clrst (mask : BitVec 4)
  | ldblk
  | stblk
  | unpk (first : Fin 16) (cnt : Fin 32)
  | pack (first : Fin 16) (cnt : Fin 32)
  | dec
  | decpx (i : Fin 16)
  | qnt (i : Fin 16) (e : Endpoint)
  | setea (i : Fin 16) (e : Endpoint)
  | enca3
  | selc
  | sela
  | setpx (i : Fin 16)
  | canon (mode : ColourScheme)
  | canona (mode : AlphaScheme)
  | flipx
  | flipy
  deriving DecidableEq, Repr

end Sys2Proof
end

