-- ==== Sys2Proof/WellFormed.lean ====
section
/-! DEFINITION. The "further legality" column of the opcode map (spec/30_encoding.md R72, R74 (c)): which command terms stand for a legal word. -/

namespace Sys2Proof

/-- The registers WRCR may write: 0, 1, 4, 5, 6, 8..15 (R111, R112); STATUS and ERR are read-only. -/
def CtrlReg.writable : CtrlReg → Bool
  | .status => false
  | .err => false
  | .fmt => true
  | .ctrl => true
  | .bptr => true
  | .pptr => true
  | .pkStride => true
  | .pkSize _ => true
  | .pkOfs _ => true

/-- The registers WRCRH may write: 4 and 5, the 32-bit writable registers (R113). -/
def CtrlReg.hasUpperHalf : CtrlReg → Bool
  | .bptr => true
  | .pptr => true
  | .fmt => false
  | .ctrl => false
  | .status => false
  | .err => false
  | .pkStride => false
  | .pkSize _ => false
  | .pkOfs _ => false

/-- `1 <= cnt <= 16 and first + cnt <= 16`, the legality of UNPK and PACK (R72, R137). -/
def pixelRangeLegal (first : Fin 16) (cnt : Fin 32) : Bool :=
  decide (1 ≤ cnt.val) && decide (cnt.val ≤ 16) && decide (first.val + cnt.val ≤ 16)

/-- A command term that stands for a legal word (R74: the last column of R72 holds). -/
def Instr.wellFormed : Instr → Bool
  | .nop => true
  | .wrcr cr _ => cr.writable
  | .wrcrh cr _ => cr.hasUpperHalf
  | .rdcr _ => true
  | .clrst _ => true
  | .ldblk => true
  | .stblk => true
  | .unpk first cnt => pixelRangeLegal first cnt
  | .pack first cnt => pixelRangeLegal first cnt
  | .dec => true
  | .decpx _ => true
  | .qnt _ _ => true
  | .setea _ _ => true
  | .enca3 => true
  | .selc => true
  | .sela => true
  | .setpx _ => true
  | .canon _ => true
  | .canona _ => true
  | .flipx => true
  | .flipy => true

end Sys2Proof
end

