-- ==== Sys2Proof/Decode.lean ====
section
/-! DEFINITION. Decoding a command word and encoding a command: spec/30_encoding.md Part A (R70 to R74). A word that is not one
command is rejected by name; R252 says what the BCU then does. -/

namespace Sys2Proof

/-- Why a word is illegal (R74). -/
inductive Reject where
  /-- (a) bits 31:24 are none of the 21 opcodes. -/
  | reservedOpcode (op : BitVec 8)
  /-- (b) a must-be-zero bit of the command's format is 1. -/
  | mustBeZero
  /-- (c) a reserved control register, or one the command may not access. -/
  | controlRegister (cr : BitVec 8)
  /-- (c) cnt = 0, cnt > 16 or first + cnt > 16. -/
  | pixelRange
  deriving DecidableEq, Repr

/-! ### Control-register numbers (10_state.md R25) -/

/-- The number of a control register. -/
def CtrlReg.number : CtrlReg → BitVec 8
  | .fmt => 0
  | .ctrl => 1
  | .status => 2
  | .err => 3
  | .bptr => 4
  | .pptr => 5
  | .pkStride => 6
  | .pkSize c => BitVec.ofNat 8 (8 + c.val)
  | .pkOfs c => BitVec.ofNat 8 (12 + c.val)

/-- The control register with a number; none for the reserved numbers 7 and 16..255. -/
def ctrlRegOf (n : BitVec 8) : Option CtrlReg :=
  match n.toNat with
  | 0 => some .fmt
  | 1 => some .ctrl
  | 2 => some .status
  | 3 => some .err
  | 4 => some .bptr
  | 5 => some .pptr
  | 6 => some .pkStride
  | 8 => some (.pkSize 0)
  | 9 => some (.pkSize 1)
  | 10 => some (.pkSize 2)
  | 11 => some (.pkSize 3)
  | 12 => some (.pkOfs 0)
  | 13 => some (.pkOfs 1)
  | 14 => some (.pkOfs 2)
  | 15 => some (.pkOfs 3)
  | _ => none

/-! ### The fields of a word (R70) -/

/-- `op`, bits 31:24. -/
def opField (w : Word) : BitVec 8 := w.extractLsb' 24 8

/-- `f1`, bits 23:16. -/
def f1Field (w : Word) : BitVec 8 := w.extractLsb' 16 8

/-- `imm`, bits 15:0. -/
def immField (w : Word) : BitVec 16 := w.extractLsb' 0 16

/-- A pixel index in `f1[3:0]`, with `f1[7:4]` = 0 (R71). -/
def indexOfField (f1 : BitVec 8) : Option (Fin 16) :=
  if h : f1.toNat < 16 then some ⟨f1.toNat, h⟩ else none

/-- A count in `imm[4:0]`, with `imm[15:5]` = 0 (R71, format U). -/
def countOfField (imm : BitVec 16) : Option (Fin 32) :=
  if h : imm.toNat < 32 then some ⟨imm.toNat, h⟩ else none

/-- CLRST's mask in `imm[4:1]`, with `imm[0]` and `imm[15:5]` = 0 (R71, format K). -/
def maskOfField (imm : BitVec 16) : Option (BitVec 4) :=
  if imm.toNat < 32 ∧ imm.toNat % 2 = 0 then some (BitVec.ofNat 4 (imm.toNat / 2)) else none

/-- An endpoint in `imm[0]`, with `imm[15:1]` = 0 (R71, format IE). -/
def endpointOfField (imm : BitVec 16) : Option Endpoint :=
  match imm.toNat with
  | 0 => some .low
  | 1 => some .high
  | _ => none

/-- CANON's mode in `imm[0]`, with `imm[15:1]` = 0 (R71, format M). -/
def colourSchemeOfField (imm : BitVec 16) : Option ColourScheme :=
  match imm.toNat with
  | 0 => some .fourColour
  | 1 => some .threeColour
  | _ => none

/-- CANONA's mode in `imm[0]`, with `imm[15:1]` = 0 (R71, format M). -/
def alphaSchemeOfField (imm : BitVec 16) : Option AlphaScheme :=
  match imm.toNat with
  | 0 => some .eightLevel
  | 1 => some .sixLevel
  | _ => none

/-! ### The formats (R71) -/

/-- Format N: `f1` = 0 and `imm` = 0. -/
def decodeN (i : Instr) (f1 : BitVec 8) (imm : BitVec 16) : Except Reject Instr :=
  if f1 = 0 ∧ imm = 0 then .ok i else .error .mustBeZero

/-- Format C: `cr` and any imm16; `legal` is the last column of R72. -/
def decodeC (mk : CtrlReg → BitVec 16 → Instr) (legal : CtrlReg → Bool) (f1 : BitVec 8) (imm : BitVec 16) :
    Except Reject Instr :=
  match ctrlRegOf f1 with
  | some cr => if legal cr then .ok (mk cr imm) else .error (.controlRegister f1)
  | none => .error (.controlRegister f1)

/-- Format R: `cr` and `imm` = 0. -/
def decodeR (f1 : BitVec 8) (imm : BitVec 16) : Except Reject Instr :=
  if imm = 0 then
    match ctrlRegOf f1 with
    | some cr => .ok (.rdcr cr)
    | none => .error (.controlRegister f1)
  else .error .mustBeZero

/-- Format K: `f1` = 0 and the mask in `imm`. -/
def decodeK (f1 : BitVec 8) (imm : BitVec 16) : Except Reject Instr :=
  if f1 = 0 then
    match maskOfField imm with
    | some m => .ok (.clrst m)
    | none => .error .mustBeZero
  else .error .mustBeZero

/-- Format I: a pixel index and `imm` = 0. -/
def decodeI (mk : Fin 16 → Instr) (f1 : BitVec 8) (imm : BitVec 16) : Except Reject Instr :=
  if imm = 0 then
    match indexOfField f1 with
    | some i => .ok (mk i)
    | none => .error .mustBeZero
  else .error .mustBeZero

/-- Format IE: a pixel index and an endpoint. -/
def decodeIE (mk : Fin 16 → Endpoint → Instr) (f1 : BitVec 8) (imm : BitVec 16) : Except Reject Instr :=
  match indexOfField f1, endpointOfField imm with
  | some i, some e => .ok (mk i e)
  | _, _ => .error .mustBeZero

/-- Format U: `first` and `cnt`, which must name pixels inside the block. -/
def decodeU (mk : Fin 16 → Fin 32 → Instr) (f1 : BitVec 8) (imm : BitVec 16) : Except Reject Instr :=
  match indexOfField f1, countOfField imm with
  | some first, some cnt => if pixelRangeLegal first cnt then .ok (mk first cnt) else .error .pixelRange
  | _, _ => .error .mustBeZero

/-- Format M, CANON. -/
def decodeM (f1 : BitVec 8) (imm : BitVec 16) : Except Reject Instr :=
  if f1 = 0 then
    match colourSchemeOfField imm with
    | some m => .ok (.canon m)
    | none => .error .mustBeZero
  else .error .mustBeZero

/-- Format M, CANONA. -/
def decodeMA (f1 : BitVec 8) (imm : BitVec 16) : Except Reject Instr :=
  if f1 = 0 then
    match alphaSchemeOfField imm with
    | some m => .ok (.canona m)
    | none => .error .mustBeZero
  else .error .mustBeZero

/-- The opcode map of R72 over the three fields of a word. -/
def decodeFields (op f1 : BitVec 8) (imm : BitVec 16) : Except Reject Instr :=
  match op.toNat with
  | 0x00 => decodeN .nop f1 imm
  | 0x01 => decodeC .wrcr CtrlReg.writable f1 imm
  | 0x02 => decodeC .wrcrh CtrlReg.hasUpperHalf f1 imm
  | 0x03 => decodeR f1 imm
  | 0x04 => decodeK f1 imm
  | 0x10 => decodeN .ldblk f1 imm
  | 0x11 => decodeN .stblk f1 imm
  | 0x20 => decodeU .unpk f1 imm
  | 0x21 => decodeU .pack f1 imm
  | 0x30 => decodeN .dec f1 imm
  | 0x31 => decodeI .decpx f1 imm
  | 0x40 => decodeIE .qnt f1 imm
  | 0x41 => decodeIE .setea f1 imm
  | 0x42 => decodeN .enca3 f1 imm
  | 0x43 => decodeN .selc f1 imm
  | 0x44 => decodeN .sela f1 imm
  | 0x45 => decodeI .setpx f1 imm
  | 0x46 => decodeM f1 imm
  | 0x47 => decodeMA f1 imm
  | 0x50 => decodeN .flipx f1 imm
  | 0x51 => decodeN .flipy f1 imm
  | _ => .error (.reservedOpcode op)

/-- The decoder (R74: "every 32-bit word is either exactly one command or illegal"). -/
def decode (w : Word) : Except Reject Instr := decodeFields (opField w) (f1Field w) (immField w)

/-! ### The encoder -/

/-- The word with given fields (R70). -/
def packWord (op f1 : BitVec 8) (imm : BitVec 16) : Word := op ++ f1 ++ imm

/-- The opcode of a command (R72). -/
def Instr.opcode : Instr → BitVec 8
  | .nop => 0x00
  | .wrcr _ _ => 0x01
  | .wrcrh _ _ => 0x02
  | .rdcr _ => 0x03
  | .clrst _ => 0x04
  | .ldblk => 0x10
  | .stblk => 0x11
  | .unpk _ _ => 0x20
  | .pack _ _ => 0x21
  | .dec => 0x30
  | .decpx _ => 0x31
  | .qnt _ _ => 0x40
  | .setea _ _ => 0x41
  | .enca3 => 0x42
  | .selc => 0x43
  | .sela => 0x44
  | .setpx _ => 0x45
  | .canon _ => 0x46
  | .canona _ => 0x47
  | .flipx => 0x50
  | .flipy => 0x51

/-- `imm[0]` of an endpoint operand. -/
def Endpoint.bits : Endpoint → BitVec 16
  | .low => 0
  | .high => 1

/-- `imm[0]` of CANON's mode. -/
def ColourScheme.bits : ColourScheme → BitVec 16
  | .fourColour => 0
  | .threeColour => 1

/-- `imm[0]` of CANONA's mode. -/
def AlphaScheme.bits : AlphaScheme → BitVec 16
  | .eightLevel => 0
  | .sixLevel => 1

/-- The field `f1` of a command (R71). -/
def Instr.f1Bits : Instr → BitVec 8
  | .nop => 0
  | .wrcr cr _ => cr.number
  | .wrcrh cr _ => cr.number
  | .rdcr cr => cr.number
  | .clrst _ => 0
  | .ldblk => 0
  | .stblk => 0
  | .unpk first _ => BitVec.ofNat 8 first.val
  | .pack first _ => BitVec.ofNat 8 first.val
  | .dec => 0
  | .decpx i => BitVec.ofNat 8 i.val
  | .qnt i _ => BitVec.ofNat 8 i.val
  | .setea i _ => BitVec.ofNat 8 i.val
  | .enca3 => 0
  | .selc => 0
  | .sela => 0
  | .setpx i => BitVec.ofNat 8 i.val
  | .canon _ => 0
  | .canona _ => 0
  | .flipx => 0
  | .flipy => 0

/-- The field `imm` of a command (R71). -/
def Instr.immBits : Instr → BitVec 16
  | .nop => 0
  | .wrcr _ imm16 => imm16
  | .wrcrh _ imm16 => imm16
  | .rdcr _ => 0
  | .clrst mask => BitVec.ofNat 16 (2 * mask.toNat)
  | .ldblk => 0
  | .stblk => 0
  | .unpk _ cnt => BitVec.ofNat 16 cnt.val
  | .pack _ cnt => BitVec.ofNat 16 cnt.val
  | .dec => 0
  | .decpx _ => 0
  | .qnt _ e => e.bits
  | .setea _ e => e.bits
  | .enca3 => 0
  | .selc => 0
  | .sela => 0
  | .setpx _ => 0
  | .canon mode => mode.bits
  | .canona mode => mode.bits
  | .flipx => 0
  | .flipy => 0

/-- The word of a command (R70 to R72). -/
def encode (i : Instr) : Word := packWord i.opcode i.f1Bits i.immBits

/-! ### The mask and match columns of R72 -/

/-- The column `mask` of R72. -/
def Instr.tableMask : Instr → Word
  | .nop => 0xFFFFFFFF
  | .wrcr _ _ => 0xFF000000
  | .wrcrh _ _ => 0xFF000000
  | .rdcr _ => 0xFF00FFFF
  | .clrst _ => 0xFFFFFFE1
  | .ldblk => 0xFFFFFFFF
  | .stblk => 0xFFFFFFFF
  | .unpk _ _ => 0xFFF0FFE0
  | .pack _ _ => 0xFFF0FFE0
  | .dec => 0xFFFFFFFF
  | .decpx _ => 0xFFF0FFFF
  | .qnt _ _ => 0xFFF0FFFE
  | .setea _ _ => 0xFFF0FFFE
  | .enca3 => 0xFFFFFFFF
  | .selc => 0xFFFFFFFF
  | .sela => 0xFFFFFFFF
  | .setpx _ => 0xFFF0FFFF
  | .canon _ => 0xFFFFFFFE
  | .canona _ => 0xFFFFFFFE
  | .flipx => 0xFFFFFFFF
  | .flipy => 0xFFFFFFFF

/-- The column `match` of R72. -/
def Instr.tableMatch : Instr → Word
  | .nop => 0x00000000
  | .wrcr _ _ => 0x01000000
  | .wrcrh _ _ => 0x02000000
  | .rdcr _ => 0x03000000
  | .clrst _ => 0x04000000
  | .ldblk => 0x10000000
  | .stblk => 0x11000000
  | .unpk _ _ => 0x20000000
  | .pack _ _ => 0x21000000
  | .dec => 0x30000000
  | .decpx _ => 0x31000000
  | .qnt _ _ => 0x40000000
  | .setea _ _ => 0x41000000
  | .enca3 => 0x42000000
  | .selc => 0x43000000
  | .sela => 0x44000000
  | .setpx _ => 0x45000000
  | .canon _ => 0x46000000
  | .canona _ => 0x47000000
  | .flipx => 0x50000000
  | .flipy => 0x51000000

/-! ### The host's reading of a table row -/

/-- The 32-bit word whose bits the host numbers as spec/opcode_table.json does: one word, bit 0 least significant (R70);
the bits at and above `nbits` are zero. -/
def wordOfBits (nbits w : Nat) : Nat := w % 2 ^ nbits

/-- The command the decoder reads from a word of `nbits` bits; none where it rejects it. DEDUCED (log entry 2): a command word is an
integer the host presents, not bytes in memory (R55), so no byte order arises. -/
def decodeTableWord (nbits w : Nat) : Option Instr :=
  if wordOfBits nbits w < 2 ^ 32 then
    match decode (BitVec.ofNat 32 (wordOfBits nbits w)) with
    | .ok i => some i
    | .error _ => none
  else none

end Sys2Proof
end

