-- ==== Sys2Proof/Config.lean ====
section
/-! DEFINITION. What an implementation fixes: the values the specification leaves unspecified. -/

namespace Sys2Proof.Config

/-- DESIGN CHOICE (log entry 3), unsafe: the byte that fills B, P and RESP in `State.reset`. R271 leaves their
contents unspecified and says a model must not assume zero; 95_test_vectors.md Part 3 shows them as EE bytes. -/
def unspecifiedByte : Byte := 0xEE

/-- Free value (log entry 5): what the block buffer holds after the n-th reset inside a run (R271, 93 U1). -/
opaque freeBlk : Nat → Block

/-- Free value (log entry 5): what the pixel registers hold after the n-th reset inside a run (R271, 93 U1). -/
opaque freePix : Nat → Pixels

/-- Free value (log entry 5): what RESP holds after the n-th reset inside a run (R271, 93 U1). -/
opaque freeResp : Nat → Word

end Sys2Proof.Config
end

