-- ==== Sys2Proof/Machine/State.lean ====
section
/-! DEFINITION. The architectural state of the BCU: spec/10_state.md, and its reset: spec/70_reset_and_hazards.md R270, R271. -/

namespace Sys2Proof.Machine

/-- Memory: (address, byte) pairs, addresses strictly rising and below 2^32, no byte equal to what an unlisted address
reads as (`Memory.wf`). R50, R51. -/
abbrev Memory := List Host.Cell

/-- What the host does next (R20, R33, R60, R256): it presents a command word, writes a byte of memory between commands, or asserts reset. -/
inductive HostEvent where
  /-- Presents a 32-bit command word (R70). -/
  | command (w : Word)
  /-- Writes one byte of memory between two commands (R20, R60). -/
  | memWrite (addr : Addr) (byte : Byte)
  /-- Asserts reset between two commands (R256, R270). -/
  | reset
  deriving DecidableEq, Repr

/-- Reasons a step can stop the machine. None: "There are no traps: no command ever transfers control, saves state, changes a mode
or stops the BCU" (R250). -/
inductive Fault where
  deriving DecidableEq, Repr

/-- Reasons a step has no meaning in this model. -/
inductive Refusal where
  /-- Raised by an arm of `exec` whose instruction has no meaning yet; safe. No arm raises it in this model. -/
  | notModelled (mnemonic : String)
  deriving DecidableEq, Repr

/-- The state of the BCU. -/
structure State where
  /-- `P[0..15]` (R21). -/
  pix : Pixels
  /-- `BLK`, `B[0..15]` (R22). -/
  blk : Block
  /-- `FMT`, cr 0, 3 bits (R25, R26). -/
  fmt : BitVec 3
  /-- `CTRL`, cr 1, 16 bits (R25, R27). -/
  ctrl : BitVec 16
  /-- `STATUS`, cr 2, 5 bits (R25, R28). -/
  status : BitVec 5
  /-- `ERR`, cr 3, 32 bits (R25, R29). -/
  err : Word
  /-- `BPTR`, cr 4, 32 bits (R30). -/
  bptr : Addr
  /-- `PPTR`, cr 5, 32 bits (R30). -/
  pptr : Addr
  /-- `PK_STRIDE`, cr 6, 16 bits (R31). -/
  pkStride : BitVec 16
  /-- `PK_SIZE[0..3]`, cr 8..11, 6 bits each (R31). -/
  pkSize : Vector (BitVec 6) 4
  /-- `PK_OFS[0..3]`, cr 12..15, 16 bits each (R31). -/
  pkOfs : Vector (BitVec 16) 4
  /-- `RESP`, 32 bits (R32). -/
  resp : Word
  /-- `Mem`, 2^32 bytes (R50). -/
  mem : Memory
  /-- The model's own field: what the host does from here on, first event first (R33: "the model's bookkeeping"; log entries 1, 2). -/
  host : List HostEvent
  /-- The model's own field: how many resets inside the run have drawn free values (log entry 5). -/
  freeNext : Nat
  deriving DecidableEq, Repr

/-- The machine right after reset: every control register zero (R270). B, P and RESP are unspecified (R271): DESIGN CHOICE, log
entry 3. Memory is not changed by reset (R271): nothing is listed, log entry 4. The BCU is idle, waiting for its first command (R272). -/
def State.reset : State where
  pix := Vector.replicate 16
    ⟨Config.unspecifiedByte, Config.unspecifiedByte, Config.unspecifiedByte, Config.unspecifiedByte⟩
  blk := Vector.replicate 16 Config.unspecifiedByte
  fmt := 0
  ctrl := 0
  status := 0
  err := 0
  bptr := 0
  pptr := 0
  pkStride := 0
  pkSize := Vector.replicate 4 0
  pkOfs := Vector.replicate 4 0
  resp := Config.unspecifiedByte ++ Config.unspecifiedByte ++ Config.unspecifiedByte ++ Config.unspecifiedByte
  mem := []
  host := []
  freeNext := 0

end Sys2Proof.Machine
end

