-- ==== Sys2Proof/Machine/Flags.lean ====
section
/-! DEFINITION. The flags of STATUS (spec/10_state.md R28, spec/60_exceptions.md R251 to R253) and the fields of CTRL (R27). -/

namespace Sys2Proof.Machine

/-- The causes a command can fail for (R251: "F one of ILL, CFGERR, GEOM"). INVBLK is no failure (R253, R255). -/
inductive Failure where
  | ill
  | cfgerr
  | geom
  deriving DecidableEq, Repr

/-! ### STATUS -/

/-- STATUS bit 0, OK: the result of the last command (R28). -/
def statusOk (st : BitVec 5) : Bool := st.getLsbD 0

/-- STATUS bit 1, ILL, sticky (R28). -/
def statusIll (st : BitVec 5) : Bool := st.getLsbD 1

/-- STATUS bit 2, CFGERR, sticky (R28). -/
def statusCfgerr (st : BitVec 5) : Bool := st.getLsbD 2

/-- STATUS bit 3, INVBLK, sticky (R28). -/
def statusInvblk (st : BitVec 5) : Bool := st.getLsbD 3

/-- STATUS bit 4, GEOM, sticky (R28). -/
def statusGeom (st : BitVec 5) : Bool := st.getLsbD 4

/-- The STATUS bit of a failure: its code is its bit number (R253). -/
def failureBit : Failure → BitVec 5
  | .ill => 0b00010
  | .cfgerr => 0b00100
  | .geom => 0b10000

/-- `STATUS.OK <- 1`. -/
def setOk (st : BitVec 5) : BitVec 5 := st ||| 0b00001

/-- `STATUS.F <- 1 ; STATUS.OK <- 0` (R251). -/
def raiseFlag (f : Failure) (st : BitVec 5) : BitVec 5 := (st ||| failureBit f) &&& 0b11110

/-- `STATUS.INVBLK <- 1` (R180, R181). -/
def setInvblk (st : BitVec 5) : BitVec 5 := st ||| 0b01000

/-- `STATUS[4:1] <- STATUS[4:1] & ~W[4:1]` (R115); `mask` is W[4:1]. -/
def clearSticky (mask : BitVec 4) (st : BitVec 5) : BitVec 5 := st &&& ~~~(mask ++ 0#1)

/-! ### CTRL -/

/-- CTRL bit 0, PERC (R27). -/
def ctrlPerc (c : BitVec 16) : Bool := c.getLsbD 0

/-- CTRL bit 1, RESCALE (R27). -/
def ctrlRescale (c : BitVec 16) : Bool := c.getLsbD 1

/-- CTRL bit 2, YMODE (R27). -/
def ctrlYmode (c : BitVec 16) : Bool := c.getLsbD 2

/-- CTRL bits 15:8, ATHR (R27). -/
def ctrlAthr (c : BitVec 16) : Byte := c.extractLsb' 8 8

/-- What a write leaves in CTRL: reserved bits dropped (R27, R111). -/
def ctrlMasked (v : BitVec 16) : BitVec 16 := v &&& 0xFF07

end Sys2Proof.Machine
end

