-- ==== Sys2Proof/Machine/Ops.lean ====
section
/-! DEFINITION. The named operations over registers and memory: register updates, the byte memory (spec/20_memory.md), how a command
ends (success, or the `raise` of spec/60_exceptions.md R251, which is all this hardware has in place of an exception), the control
registers by name (R25, R111, R114), the host's events and reset. -/

namespace Sys2Proof.Machine

/-- What a command answers. -/
abbrev Result := Host.Outcome State Fault Refusal

/-! ### Register updates -/

def State.setPix (s : State) (v : Pixels) : State := { s with pix := v }
def State.setBlk (s : State) (v : Block) : State := { s with blk := v }
def State.setFmt (s : State) (v : BitVec 3) : State := { s with fmt := v }
def State.setCtrl (s : State) (v : BitVec 16) : State := { s with ctrl := v }
def State.setStatus (s : State) (v : BitVec 5) : State := { s with status := v }
def State.setErr (s : State) (v : Word) : State := { s with err := v }
def State.setBptr (s : State) (v : Addr) : State := { s with bptr := v }
def State.setPptr (s : State) (v : Addr) : State := { s with pptr := v }
def State.setPkStride (s : State) (v : BitVec 16) : State := { s with pkStride := v }
def State.setPkSize (s : State) (v : Vector (BitVec 6) 4) : State := { s with pkSize := v }
def State.setPkOfs (s : State) (v : Vector (BitVec 16) 4) : State := { s with pkOfs := v }
def State.setResp (s : State) (v : Word) : State := { s with resp := v }
def State.setMem (s : State) (v : Memory) : State := { s with mem := v }
def State.setHost (s : State) (v : List HostEvent) : State := { s with host := v }

/-! ### Memory -/

/-- What an address that is not listed reads as: DESIGN CHOICE, log entry 4 (the launch contents are an input, 93 U2). -/
def Memory.unlisted : Byte := 0

/-- The byte at a listed or unlisted key. -/
def Memory.readAt : Memory → Nat → Byte
  | [], _ => Memory.unlisted
  | (k, c) :: m, a => if k = a then c else Memory.readAt m a

/-- The memory with one byte replaced, in canonical form again. -/
def Memory.writeAt : Memory → Nat → Byte → Memory
  | [], a, b => if b = Memory.unlisted then [] else [(a, b)]
  | (k, c) :: m, a, b =>
    if a < k then
      if b = Memory.unlisted then (k, c) :: m else (a, b) :: (k, c) :: m
    else if a = k then
      if b = Memory.unlisted then m else (a, b) :: m
    else (k, c) :: Memory.writeAt m a b

/-- Canonical from key `lo` on: keys rising, below 2^32 (R50), and no listed byte equal to the unlisted one. -/
def Memory.wfFrom : Nat → Memory → Bool
  | _, [] => true
  | lo, (k, c) :: m =>
    decide (lo ≤ k) && decide (k < 2 ^ 32) && decide (c ≠ Memory.unlisted) && Memory.wfFrom (k + 1) m

/-- The canonical form of memory. -/
def Memory.wf (m : Memory) : Bool := Memory.wfFrom 0 m

/-- `Mem[a]`. Addresses are 32-bit, so they wrap modulo 2^32 (R52); every address is ordinary memory (R51). -/
def Memory.read (m : Memory) (a : Addr) : Byte := Memory.readAt m a.toNat

/-- `Mem[a] <- b`. -/
def Memory.write (m : Memory) (a : Addr) (b : Byte) : Memory := Memory.writeAt m a.toNat b

/-- The address `k` bytes after `a`, modulo 2^32 (R52). -/
def addrPlus (a : Addr) (k : Nat) : Addr := a + BitVec.ofNat 32 k

/-- `MemWrite(a, n, bytes)`: consecutive bytes, lowest address first (R8). -/
def Memory.writeBytes (m : Memory) (a : Addr) : List Byte → Memory
  | [] => m
  | b :: bs => Memory.writeBytes (Memory.write m a b) (addrPlus a 1) bs

/-! ### How a command ends -/

/-- `raise F` (R251): sets the flag, clears OK, and changes no other state. -/
def State.raise (s : State) (f : Failure) : State := s.setStatus (raiseFlag f s.status)

/-- A command that fails. There is nothing to return from (R250, R257). -/
def fail (f : Failure) (s : State) : Result := .next (s.raise f)

/-- A command that succeeds: `STATUS.OK <- 1`. -/
def succeed (s : State) : Result := .next (s.setStatus (setOk s.status))

/-- An illegal command word (R252). -/
def illegalWord (s : State) : Result := fail .ill s

/-! ### The control registers by name -/

/-- The value of a control register as RDCR sees it: 32 bits, upper bits zero (R25, R114). -/
def readCtrl (cr : CtrlReg) (s : State) : Word :=
  match cr with
  | .fmt => s.fmt.setWidth 32
  | .ctrl => s.ctrl.setWidth 32
  | .status => s.status.setWidth 32
  | .err => s.err
  | .bptr => s.bptr
  | .pptr => s.pptr
  | .pkStride => s.pkStride.setWidth 32
  | .pkSize c => s.pkSize[c].setWidth 32
  | .pkOfs c => s.pkOfs[c].setWidth 32

/-- WRCR's register write (R111): the new state, or the failure it raises. `v` is imm16, zero-extended. -/
def writeCtrl (cr : CtrlReg) (v : BitVec 16) (s : State) : Except Failure State :=
  match cr with
  | .fmt => if 6 < v.toNat then .error .cfgerr else .ok (s.setFmt (v.setWidth 3))
  | .ctrl => .ok (s.setCtrl (ctrlMasked v))
  | .status => .error .ill
  | .err => .error .ill
  | .bptr => .ok (s.setBptr (v.setWidth 32))
  | .pptr => .ok (s.setPptr (v.setWidth 32))
  | .pkStride => .ok (s.setPkStride v)
  | .pkSize c => if 32 < v.toNat then .error .cfgerr else .ok (s.setPkSize (s.pkSize.set c (v.setWidth 6)))
  | .pkOfs c => .ok (s.setPkOfs (s.pkOfs.set c v))

/-- WRCRH's new value: imm16 in bits 31:16, bits 15:0 kept (R113). -/
def withUpperHalf (v : BitVec 16) (old : Word) : Word := v ++ old.extractLsb' 0 16

/-- WRCRH's register write (R113); any other register raises ILL. -/
def writeCtrlUpper (cr : CtrlReg) (v : BitVec 16) (s : State) : Except Failure State :=
  match cr with
  | .bptr => .ok (s.setBptr (withUpperHalf v s.bptr))
  | .pptr => .ok (s.setPptr (withUpperHalf v s.pptr))
  | .fmt => .error .ill
  | .ctrl => .error .ill
  | .status => .error .ill
  | .err => .error .ill
  | .pkStride => .error .ill
  | .pkSize _ => .error .ill
  | .pkOfs _ => .error .ill

/-- A command that is one register write. -/
def finishWrite (s : State) : Except Failure State → Result
  | .ok t => succeed t
  | .error f => fail f s

/-! ### The host's events -/

/-- The event at the front taken off (R33). -/
def State.afterEvent (s : State) (rest : List HostEvent) : State := s.setHost rest

/-- The host writes one byte between two commands (R20, R60). -/
def hostWrite (a : Addr) (b : Byte) (s : State) : State := s.setMem (Memory.write s.mem a b)

/-- Reset (R270): every control register zero; memory is not changed; B, P and RESP are unspecified (R271), so they take
free values (log entry 5). -/
def applyReset (s : State) : State :=
  { pix := Config.freePix s.freeNext
    blk := Config.freeBlk s.freeNext
    fmt := 0
    ctrl := 0
    status := 0
    err := 0
    bptr := 0
    pptr := 0
    pkStride := 0
    pkSize := #v[0, 0, 0, 0]
    pkOfs := #v[0, 0, 0, 0]
    resp := Config.freeResp s.freeNext
    mem := s.mem
    host := s.host
    freeNext := s.freeNext + 1 }

/-- The host presents a command word next, before whatever it was going to do. -/
def State.present (s : State) (w : Word) : State := s.setHost (.command w :: s.host)

end Sys2Proof.Machine
end

