-- ==== Sys2Proof/Machine/Quad.lean ====
section
/-! DEFINITION. Arithmetic on colour components: spec/00_scope.md R9 to R13. All arithmetic is on unbounded integers (R7). -/

namespace Sys2Proof.Machine

/-- Component `c` of a colour quad (R6, R8). -/
def component (q : Pixel) (c : Fin 4) : Byte :=
  match c with
  | 0 => q.r
  | 1 => q.g
  | 2 => q.b
  | 3 => q.a

/-- A natural number below 256 as a component. Callers stay below 256 (R6). -/
def toByte (n : Nat) : Byte := BitVec.ofNat 8 n

/-- `clamp255` (R9). -/
def clamp255 (v : Int) : Byte :=
  if v < 0 then 0 else if 255 < v then 255 else toByte v.toNat

/-- `luma`, CCIR-601, rounding half up (R10). Alpha is not used. -/
def luma (q : Pixel) : Byte :=
  toByte ((19595 * q.r.toNat + 38470 * q.g.toNat + 7471 * q.b.toNat + 32768) / 65536)

/-- `rescale(n, from_max, to_max)`, round to nearest (R11). -/
def rescale (n fromMax toMax : Nat) : Nat := (n * toMax + fromMax / 2) / fromMax

/-- `expand5` (R12). -/
def expand5 (n : Nat) : Nat := (n <<< 3) ||| (n >>> 2)

/-- `expand6` (R12). -/
def expand6 (n : Nat) : Nat := (n <<< 2) ||| (n >>> 4)

/-- `expand4` (R12). -/
def expand4 (n : Nat) : Nat := (n <<< 4) ||| n

/-- The square of the difference of two components. -/
def sqDiff (x y : Byte) : Nat := ((x.toNat : Int) - (y.toNat : Int)).natAbs ^ 2

/-- `wdist` (R13): weights 8, 25, 1 when PERC = 1, else 1, 1, 1. Alpha never enters. -/
def wdist (perc : Bool) (p q : Pixel) : Nat :=
  if perc then 8 * sqDiff p.r q.r + 25 * sqDiff p.g q.g + sqDiff p.b q.b
  else sqDiff p.r q.r + sqDiff p.g q.g + sqDiff p.b q.b

end Sys2Proof.Machine
end

