-- ==== Sys2Proof/Machine/Operands.lean ====
section
/-! DEFINITION. The operand forms of the block commands: block formats and element roles (spec/10_state.md R23, R24), the elements of
the block buffer (R8, R22), and every field of every element as a function of its bytes (spec/30_encoding.md Part B, R80 to R90). -/

namespace Sys2Proof.Machine

/-! ### Formats and element roles -/

/-- The valid formats, codes 1 to 6 (R23). -/
inductive BlockFormat where
  | dxt1
  | dxt1a
  | dxt3
  | dxt5
  | dxt5a
  | etc1
  deriving DecidableEq, Repr

/-- The format a code names; none for 0 (NONE) and 7 (reserved, never held; DEDUCED, log entry 7): `valid_fmt` (R24). -/
def formatOf (code : BitVec 3) : Option BlockFormat :=
  match code.toNat with
  | 1 => some .dxt1
  | 2 => some .dxt1a
  | 3 => some .dxt3
  | 4 => some .dxt5
  | 5 => some .dxt5a
  | 6 => some .etc1
  | _ => none

/-- The code of a format (R23). -/
def formatCode : BlockFormat → BitVec 3
  | .dxt1 => 1
  | .dxt1a => 2
  | .dxt3 => 3
  | .dxt5 => 4
  | .dxt5a => 5
  | .etc1 => 6

/-- `epb`: elements per block (R24). -/
def epb : BlockFormat → Nat
  | .dxt1 => 1
  | .dxt1a => 1
  | .dxt3 => 2
  | .dxt5 => 2
  | .dxt5a => 1
  | .etc1 => 1

/-- The bytes LDBLK and STBLK move: `8 * epb(FMT)` (R58). -/
def blockBytes (f : BlockFormat) : Nat := 8 * epb f

/-- `colour_elem` (R24): which element has the DXT1 layout. -/
def colourElem : BlockFormat → Option (Fin 2)
  | .dxt1 => some 0
  | .dxt1a => some 0
  | .dxt3 => some 1
  | .dxt5 => some 1
  | .dxt5a => none
  | .etc1 => none

/-- `alpha5_elem` (R24): which element has the DXT5 alpha layout. -/
def alpha5Elem : BlockFormat → Option (Fin 2)
  | .dxt1 => none
  | .dxt1a => none
  | .dxt3 => none
  | .dxt5 => some 0
  | .dxt5a => some 0
  | .etc1 => none

/-- `alpha3_elem` (R24): which element has the DXT3 alpha layout. -/
def alpha3Elem : BlockFormat → Option (Fin 2)
  | .dxt1 => none
  | .dxt1a => none
  | .dxt3 => some 0
  | .dxt5 => none
  | .dxt5a => none
  | .etc1 => none

/-- `Ek`: bytes 8k..8k+7 of BLK (R8, R22). -/
def elemOf (b : Block) (k : Fin 2) : Elem := Vector.ofFn fun j => b[8 * k.val + j.val]

/-- `Ek <- e`: the other element is unchanged. -/
def setElem (b : Block) (k : Fin 2) (e : Elem) : Block :=
  Vector.ofFn fun j => if h : 8 * k.val ≤ j.val ∧ j.val < 8 * k.val + 8 then e[j.val - 8 * k.val]'(by omega) else b[j]

/-- The sixteen pixel indices, ascending. -/
def pixelIndices : List (Fin 16) := List.finRange 16

/-! ### Bit fields -/

/-- `w` with the `len` bits from bit `lo` up replaced by `v`, every other bit unchanged. -/
def replaceField {n len : Nat} (w : BitVec n) (lo : Nat) (v : BitVec len) : BitVec n :=
  (w &&& ~~~((BitVec.allOnes len).setWidth n <<< lo)) ||| (v.setWidth n <<< lo)

/-- Byte `k` of a bit string, byte 0 least significant. -/
def byteOf {n : Nat} (w : BitVec n) (k : Nat) : Byte := w.extractLsb' (8 * k) 8

/-! ### DXT1 colour element (R80 to R83) -/

/-- `low`: bytes 0..1, little-endian (R80). -/
def dxt1Low (e : Elem) : BitVec 16 := e[1] ++ e[0]

/-- `high`: bytes 2..3, little-endian (R80). -/
def dxt1High (e : Elem) : BitVec 16 := e[3] ++ e[2]

/-- `S`: bytes 4..7, little-endian (R80). -/
def dxt1Selectors (e : Elem) : BitVec 32 := e[7] ++ e[6] ++ e[5] ++ e[4]

/-- `dxt1_sel(e, i) = (S >> 2i) & 3` (R80). -/
def dxt1Sel (e : Elem) (i : Fin 16) : BitVec 2 := (dxt1Selectors e).extractLsb' (2 * i.val) 2

/-- `r5(c) = c[15:11]` (R81). -/
def r5 (c : BitVec 16) : Nat := (c.extractLsb' 11 5).toNat

/-- `g6(c) = c[10:5]` (R81). -/
def g6 (c : BitVec 16) : Nat := (c.extractLsb' 5 6).toNat

/-- `b5(c) = c[4:0]` (R81). -/
def b5 (c : BitVec 16) : Nat := (c.extractLsb' 0 5).toNat

/-- `pack565` (R81). -/
def pack565 (r g b : Nat) : BitVec 16 := BitVec.ofNat 16 ((r <<< 11) ||| (g <<< 5) ||| b)

/-- `dxt1_is_alpha_block(e) = (low <= high)`, unsigned; equality counts (R82). -/
def dxt1IsAlphaBlock (e : Elem) : Bool := decide ((dxt1Low e).toNat ≤ (dxt1High e).toNat)

/-- The element with its four selector bytes replaced. -/
def dxt1WithSelectors (e : Elem) (sels : BitVec 32) : Elem :=
  #v[e[0], e[1], e[2], e[3], byteOf sels 0, byteOf sels 1, byteOf sels 2, byteOf sels 3]

/-- `dxt1_set_sel` (R83): bits 2i+1:2i of S replaced. -/
def dxt1SetSel (e : Elem) (i : Fin 16) (v : BitVec 2) : Elem :=
  dxt1WithSelectors e (replaceField (dxt1Selectors e) (2 * i.val) v)

/-- `dxt1_set_low` (R83). -/
def dxt1SetLow (e : Elem) (c : BitVec 16) : Elem :=
  #v[byteOf c 0, byteOf c 1, e[2], e[3], e[4], e[5], e[6], e[7]]

/-- `dxt1_set_high` (R83). -/
def dxt1SetHigh (e : Elem) (c : BitVec 16) : Elem :=
  #v[e[0], e[1], byteOf c 0, byteOf c 1, e[4], e[5], e[6], e[7]]

/-- Every selector written, pixel by pixel in ascending order: `for i in 0..15: sel_i <- f i`. -/
def dxt1SetAll (e : Elem) (f : Fin 16 → BitVec 2) : Elem :=
  pixelIndices.foldl (fun acc i => dxt1SetSel acc i (f i)) e

/-! ### DXT3 alpha element (R84) -/

/-- `A`: the eight bytes, little-endian (R84). -/
def dxt3Word (e : Elem) : BitVec 64 := e[7] ++ e[6] ++ e[5] ++ e[4] ++ e[3] ++ e[2] ++ e[1] ++ e[0]

/-- `dxt3_a4(e, i) = (A >> 4i) & 15` (R84). -/
def dxt3A4 (e : Elem) (i : Fin 16) : BitVec 4 := (dxt3Word e).extractLsb' (4 * i.val) 4

/-- The element of a little-endian 64-bit integer. -/
def dxt3OfWord (w : BitVec 64) : Elem :=
  #v[byteOf w 0, byteOf w 1, byteOf w 2, byteOf w 3, byteOf w 4, byteOf w 5, byteOf w 6, byteOf w 7]

/-- `dxt3_set_a4` (R84): that nibble only. -/
def dxt3SetA4 (e : Elem) (i : Fin 16) (v : BitVec 4) : Elem := dxt3OfWord (replaceField (dxt3Word e) (4 * i.val) v)

/-- Every nibble written, pixel by pixel in ascending order. -/
def dxt3SetAll (e : Elem) (f : Fin 16 → BitVec 4) : Elem :=
  pixelIndices.foldl (fun acc i => dxt3SetA4 acc i (f i)) e

/-! ### DXT5 alpha element (R85, R86) -/

/-- `low`: byte 0 (R85). -/
def dxt5Low (e : Elem) : Byte := e[0]

/-- `high`: byte 1 (R85). -/
def dxt5High (e : Elem) : Byte := e[1]

/-- `S48`: bytes 2..7, little-endian (R85). -/
def dxt5Selectors (e : Elem) : BitVec 48 := e[7] ++ e[6] ++ e[5] ++ e[4] ++ e[3] ++ e[2]

/-- `dxt5_sel(e, i) = (S48 >> 3i) & 7` (R85). -/
def dxt5Sel (e : Elem) (i : Fin 16) : BitVec 3 := (dxt5Selectors e).extractLsb' (3 * i.val) 3

/-- `dxt5_is_6level(e) = (low <= high)` (R86). -/
def dxt5Is6Level (e : Elem) : Bool := decide ((dxt5Low e).toNat ≤ (dxt5High e).toNat)

/-- The element with its six selector bytes replaced. -/
def dxt5WithSelectors (e : Elem) (sels : BitVec 48) : Elem :=
  #v[e[0], e[1], byteOf sels 0, byteOf sels 1, byteOf sels 2, byteOf sels 3, byteOf sels 4, byteOf sels 5]

/-- `dxt5_set_sel` (R85): bits 3i+2:3i of S48 only. -/
def dxt5SetSel (e : Elem) (i : Fin 16) (v : BitVec 3) : Elem :=
  dxt5WithSelectors e (replaceField (dxt5Selectors e) (3 * i.val) v)

/-- `dxt5_set_low` (R85). -/
def dxt5SetLow (e : Elem) (v : Byte) : Elem := e.set 0 v

/-- `dxt5_set_high` (R85). -/
def dxt5SetHigh (e : Elem) (v : Byte) : Elem := e.set 1 v

/-- Every selector written, pixel by pixel in ascending order. -/
def dxt5SetAll (e : Elem) (f : Fin 16 → BitVec 3) : Elem :=
  pixelIndices.foldl (fun acc i => dxt5SetSel acc i (f i)) e

/-! ### ETC1 element (R87 to R89) -/

/-- `W`: the eight bytes, big-endian, e[0] most significant (R87). -/
def etc1Word (e : Elem) : BitVec 64 := e[0] ++ e[1] ++ e[2] ++ e[3] ++ e[4] ++ e[5] ++ e[6] ++ e[7]

/-- The element of a big-endian 64-bit integer. -/
def etc1OfWord (w : BitVec 64) : Elem :=
  #v[byteOf w 7, byteOf w 6, byteOf w 5, byteOf w 4, byteOf w 3, byteOf w 2, byteOf w 1, byteOf w 0]

/-- A field of W as an unsigned number. -/
def etc1Field (e : Elem) (lo len : Nat) : Nat := ((etc1Word e).extractLsb' lo len).toNat

/-- `diff`, W bit 33 (R87). -/
def etc1Diff (e : Elem) : Bool := (etc1Word e).getLsbD 33

/-- `flip`, W bit 32 (R87). -/
def etc1Flip (e : Elem) : Bool := (etc1Word e).getLsbD 32

/-- The halves of an ETC1 block (R89). -/
inductive SubBlock where
  | one
  | two
  deriving DecidableEq, Repr

/-- The column of a pixel index (R8). -/
def pixelX (i : Fin 16) : Nat := i.val % 4

/-- The row of a pixel index (R8). -/
def pixelY (i : Fin 16) : Nat := i.val / 4

/-- The number of a pixel in the two ETC1 planes: column-major, `n = 4x + y` (R88). -/
def etc1Number (i : Fin 16) : Nat := 4 * pixelX i + pixelY i

/-- `etc1_sel(e, i) = 2*W[16+n] + W[n]` (R88). -/
def etc1Sel (e : Elem) (i : Fin 16) : BitVec 2 :=
  BitVec.ofBool ((etc1Word e).getLsbD (16 + etc1Number i)) ++ BitVec.ofBool ((etc1Word e).getLsbD (etc1Number i))

/-- `etc1_set_sel` (R88): `W[16+n] <- v[1]`, `W[n] <- v[0]`, no other bit. -/
def etc1SetSel (e : Elem) (i : Fin 16) (v : BitVec 2) : Elem :=
  etc1OfWord
    (replaceField (replaceField (etc1Word e) (16 + etc1Number i) (v.extractLsb' 1 1)) (etc1Number i) (v.extractLsb' 0 1))

/-- Every raw index written, pixel by pixel in ascending order. -/
def etc1SetAll (e : Elem) (f : Fin 16 → BitVec 2) : Elem :=
  pixelIndices.foldl (fun acc i => etc1SetSel acc i (f i)) e

/-- `etc1_sub` (R89): left and right halves when `flip` = 0, top and bottom halves when it is 1. -/
def etc1Sub (e : Elem) (i : Fin 16) : SubBlock :=
  if etc1Flip e then
    if pixelY i < 2 then .one else .two
  else
    if pixelX i < 2 then .one else .two

/-- The intensity index of a sub-block: `table1` = W[39:37], `table2` = W[36:34] (R87). -/
def etc1TableIndex (e : Elem) : SubBlock → BitVec 3
  | .one => (etc1Word e).extractLsb' 37 3
  | .two => (etc1Word e).extractLsb' 34 3

end Sys2Proof.Machine
end

