-- ==== Sys2Proof/Machine/Tables.lean ====
section
/-! DEFINITION. The decode tables: spec/43_decode.md R160 to R176. Each is a pure function of an element's bytes. -/

namespace Sys2Proof.Machine

/-! ### DXT1 colour element -/

/-- `unpack565(c)` (R161), with alpha 255. -/
def unpack565 (c : BitVec 16) : Pixel :=
  ⟨toByte (expand5 (r5 c)), toByte (expand6 (g6 c)), toByte (expand5 (b5 c)), 255⟩

/-- `(wx*x + wy*y) / d` per component, truncating (R162, R163). -/
def blend (wx wy d : Nat) (x y : Byte) : Byte := toByte ((wx * x.toNat + wy * y.toNat) / d)

/-- `blend` on R, G and B; alpha 255. -/
def blendPixel (wx wy d : Nat) (p q : Pixel) : Pixel :=
  ⟨blend wx wy d p.r q.r, blend wx wy d p.g q.g, blend wx wy d p.b q.b, 255⟩

/-- The transparent entry (R164). -/
def transparent : Pixel := ⟨0, 0, 0, 0⟩

/-- `F4(l, h)`: the four colours of R162 without the condition on the order (R216). Entry 3 is 90_conflicts.md C1's. -/
def fourColourTable (l h : BitVec 16) : Vector Pixel 4 :=
  #v[unpack565 l, unpack565 h, blendPixel 2 1 3 (unpack565 l) (unpack565 h), blendPixel 1 2 3 (unpack565 l) (unpack565 h)]

/-- `F3(l, h)`: the table of R164 without the condition on the order (R216). -/
def threeColourTable (l h : BitVec 16) : Vector Pixel 4 :=
  #v[unpack565 l, unpack565 h, blendPixel 1 1 2 (unpack565 l) (unpack565 h), transparent]

/-- `dxt1_table(e)` (R164). -/
def dxt1Table (e : Elem) : Vector Pixel 4 :=
  if dxt1IsAlphaBlock e then threeColourTable (dxt1Low e) (dxt1High e) else fourColourTable (dxt1Low e) (dxt1High e)

/-- `dxt1_px(e, i)` (R165). -/
def dxt1Px (e : Elem) (i : Fin 16) : Pixel := (dxt1Table e)[(dxt1Sel e i).toFin]

/-! ### DXT3 alpha element -/

/-- `dxt3_px(e, i)` (R166). -/
def dxt3Px (e : Elem) (i : Fin 16) : Byte := toByte (expand4 (dxt3A4 e i).toNat)

/-! ### DXT5 alpha element -/

/-- `G8(l, h)`: the 8-level table of R167 without the condition on the order (R218). -/
def eightLevelTable (l h : Byte) : Vector Byte 8 :=
  #v[l, h, blend 6 1 7 l h, blend 5 2 7 l h, blend 4 3 7 l h, blend 3 4 7 l h, blend 2 5 7 l h, blend 1 6 7 l h]

/-- `G6(l, h)`: the 6-level table of R168 without the condition on the order (R218). -/
def sixLevelTable (l h : Byte) : Vector Byte 8 :=
  #v[l, h, blend 4 1 5 l h, blend 3 2 5 l h, blend 2 3 5 l h, blend 1 4 5 l h, 0, 255]

/-- `dxt5_table(e)` (R169). -/
def dxt5Table (e : Elem) : Vector Byte 8 :=
  if dxt5Is6Level e then sixLevelTable (dxt5Low e) (dxt5High e) else eightLevelTable (dxt5Low e) (dxt5High e)

/-- `dxt5_px(e, i)` (R169). -/
def dxt5Px (e : Elem) (i : Fin 16) : Byte := (dxt5Table e)[(dxt5Sel e i).toFin]

/-! ### ETC1 element -/

/-- `ETC1_INT[t]`, ascending (R170). -/
def etc1Intensities (t : BitVec 3) : Vector Int 4 :=
  match t.toNat with
  | 0 => #v[-8, -2, 2, 8]
  | 1 => #v[-17, -5, 5, 17]
  | 2 => #v[-29, -9, 9, 29]
  | 3 => #v[-42, -13, 13, 42]
  | 4 => #v[-60, -18, 18, 60]
  | 5 => #v[-80, -24, 24, 80]
  | 6 => #v[-106, -33, 33, 106]
  | _ => #v[-183, -47, 47, 183]

/-- `etc1_mod(t, v)` (R171): raw index 0 small positive, 1 large positive, 2 small negative, 3 large negative. -/
def etc1Mod (t : BitVec 3) (v : BitVec 2) : Int :=
  match v.toNat with
  | 0 => (etc1Intensities t)[2]
  | 1 => (etc1Intensities t)[3]
  | 2 => (etc1Intensities t)[1]
  | _ => (etc1Intensities t)[0]

/-- `sd(d)`: 3-bit two's complement (R173). -/
def etc1SignedDelta (d : Nat) : Int := if d < 4 then (d : Int) else (d : Int) - 8

/-- The differential sum of one channel, whose 5-bit field starts at W bit `lo5` and 3-bit delta at `lo3` (R87, R173). -/
def etc1Sum (e : Elem) (lo5 lo3 : Nat) : Int := (etc1Field e lo5 5 : Int) + etc1SignedDelta (etc1Field e lo3 3)

/-- `r2` (R173). -/
def etc1SumR (e : Elem) : Int := etc1Sum e 59 56

/-- `g2` (R173). -/
def etc1SumG (e : Elem) : Int := etc1Sum e 51 48

/-- `b2` (R173). -/
def etc1SumB (e : Elem) : Int := etc1Sum e 43 40

/-- A differential sum outside 0..31 (R173). -/
def etc1OutOfRange (v : Int) : Bool := decide (v < 0) || decide (31 < v)

/-- `etc1_invalid(e)` (R173); false when `diff` = 0 (R172). -/
def etc1Invalid (e : Elem) : Bool :=
  etc1Diff e && (etc1OutOfRange (etc1SumR e) || etc1OutOfRange (etc1SumG e) || etc1OutOfRange (etc1SumB e))

/-- `min(31, max(0, v))`, the clamp of R173 (decision D33; 93 I1, log entry 8). -/
def etc1Clamp31 (v : Int) : Nat := (min 31 (max 0 v)).toNat

/-- A 5-bit value of one channel expanded. -/
def etc1Base5 (n : Nat) : Byte := toByte (expand5 n)

/-- A 4-bit value of one channel expanded. -/
def etc1Base4 (n : Nat) : Byte := toByte (expand4 n)

/-- The base colour of a sub-block (R172, R173), alpha 255. -/
def etc1Base (e : Elem) (sb : SubBlock) : Pixel :=
  if etc1Diff e then
    match sb with
    | .one => ⟨etc1Base5 (etc1Field e 59 5), etc1Base5 (etc1Field e 51 5), etc1Base5 (etc1Field e 43 5), 255⟩
    | .two =>
      ⟨etc1Base5 (etc1Clamp31 (etc1SumR e)), etc1Base5 (etc1Clamp31 (etc1SumG e)), etc1Base5 (etc1Clamp31 (etc1SumB e)), 255⟩
  else
    match sb with
    | .one => ⟨etc1Base4 (etc1Field e 60 4), etc1Base4 (etc1Field e 52 4), etc1Base4 (etc1Field e 44 4), 255⟩
    | .two => ⟨etc1Base4 (etc1Field e 56 4), etc1Base4 (etc1Field e 48 4), etc1Base4 (etc1Field e 40 4), 255⟩

/-- Base plus modifier, each channel clamped separately, alpha 255 (R174). -/
def etc1Shift (base : Pixel) (m : Int) : Pixel :=
  ⟨clamp255 (base.r.toNat + m), clamp255 (base.g.toNat + m), clamp255 (base.b.toNat + m), 255⟩

/-- Entry v of `etc1_table(e, sb)` (R174). -/
def etc1Entry (e : Elem) (sb : SubBlock) (v : BitVec 2) : Pixel :=
  etc1Shift (etc1Base e sb) (etc1Mod (etc1TableIndex e sb) v)

/-- `etc1_px(e, i)` (R174). -/
def etc1Px (e : Elem) (i : Fin 16) : Pixel := etc1Entry e (etc1Sub e i) (etc1Sel e i)

/-! ### A pixel of a block -/

/-- R, G, B of one quad with another alpha. -/
def withAlpha (q : Pixel) (a : Byte) : Pixel := ⟨q.r, q.g, q.b, a⟩

/-- `decode_px(f, B, i)` (R176). -/
def decodePx (f : BlockFormat) (b : Block) (i : Fin 16) : Pixel :=
  match f with
  | .dxt1 => withAlpha (dxt1Px (elemOf b 0) i) 255
  | .dxt1a => dxt1Px (elemOf b 0) i
  | .dxt3 => withAlpha (dxt1Px (elemOf b 1) i) (dxt3Px (elemOf b 0) i)
  | .dxt5 => withAlpha (dxt1Px (elemOf b 1) i) (dxt5Px (elemOf b 0) i)
  | .dxt5a => ⟨0, 0, 0, dxt5Px (elemOf b 0) i⟩
  | .etc1 => withAlpha (etc1Px (elemOf b 0) i) 255

end Sys2Proof.Machine
end

