-- ==== Sys2Proof/Machine/BlockDecode.lean ====
section
/-! DEFINITION. The decode commands DEC, DECPX: spec/43_decode.md R180, R181. -/

namespace Sys2Proof.Machine

/-- `if FMT == 6 and etc1_invalid(E0): STATUS.INVBLK <- 1` (R180, R181). -/
def noteInvalid (f : BlockFormat) (s : State) : State :=
  if f = .etc1 ∧ etc1Invalid (elemOf s.blk 0) = true then s.setStatus (setInvblk s.status) else s

/-- All sixteen pixels of the block (R180). -/
def decodeAll (f : BlockFormat) (b : Block) : Pixels := Vector.ofFn fun i => decodePx f b i

/-- DEC (R180). -/
def execDec (s : State) : Result :=
  match formatOf s.fmt with
  | none => fail .cfgerr s
  | some f => succeed (noteInvalid f (s.setPix (decodeAll f s.blk)))

/-- DECPX i (R181). -/
def execDecpx (i : Fin 16) (s : State) : Result :=
  match formatOf s.fmt with
  | none => fail .cfgerr s
  | some f => succeed (noteInvalid f (s.setPix (s.pix.set i (decodePx f s.blk i))))

end Sys2Proof.Machine
end

