-- ==== Sys2Proof/Machine/Canonicaliser.lean ====
section
/-! DEFINITION. Endpoint-order canonicalisation, commands CANON, CANONA: spec/44_encode.md R215 to R219. -/

namespace Sys2Proof.Machine

/-- `INV4 = [1, 0, 3, 2]` (R215). -/
def inv4 (v : BitVec 2) : BitVec 2 :=
  match v.toNat with
  | 0 => 1
  | 1 => 0
  | 2 => 3
  | _ => 2

/-- `INV3 = [1, 0, 2, 3]` (R215). -/
def inv3 (v : BitVec 2) : BitVec 2 :=
  match v.toNat with
  | 0 => 1
  | 1 => 0
  | 2 => 2
  | _ => 3

/-- `INV8 = [1, 0, 7, 6, 5, 4, 3, 2]` (R218). -/
def inv8 (v : BitVec 3) : BitVec 3 :=
  match v.toNat with
  | 0 => 1
  | 1 => 0
  | 2 => 7
  | 3 => 6
  | 4 => 5
  | 5 => 4
  | 6 => 3
  | _ => 2

/-- `INV6 = [1, 0, 5, 4, 3, 2, 6, 7]` (R218). -/
def inv6 (v : BitVec 3) : BitVec 3 :=
  match v.toNat with
  | 0 => 1
  | 1 => 0
  | 2 => 5
  | 3 => 4
  | 4 => 3
  | 5 => 2
  | 6 => 6
  | _ => 7

/-- "swap endpoints" of a DXT1-layout element (R217). -/
def dxt1Swap (e : Elem) : Elem := dxt1SetLow (dxt1SetHigh e (dxt1Low e)) (dxt1High e)

/-- "swap endpoints" of a DXT5 alpha element (R219). -/
def dxt5Swap (e : Elem) : Elem := dxt5SetLow (dxt5SetHigh e (dxt5Low e)) (dxt5High e)

/-- Every selector replaced by its image (R217). -/
def dxt1Remap (inv : BitVec 2 → BitVec 2) (e : Elem) : Elem := dxt1SetAll e fun i => inv (dxt1Sel e i)

/-- Every selector replaced by its image (R219). -/
def dxt5Remap (inv : BitVec 3 → BitVec 3) (e : Elem) : Elem := dxt5SetAll e fun i => inv (dxt5Sel e i)

/-- The element CANON leaves (R217). -/
def canonColour (mode : ColourScheme) (e : Elem) : Elem :=
  match mode with
  | .fourColour =>
    if (dxt1Low e).toNat < (dxt1High e).toNat then dxt1Remap inv4 (dxt1Swap e)
    else if dxt1Low e = dxt1High e then dxt1SetAll e fun _ => 0
    else e
  | .threeColour =>
    if (dxt1High e).toNat < (dxt1Low e).toNat then dxt1Remap inv3 (dxt1Swap e) else e

/-- The element CANONA leaves (R219). -/
def canonAlpha (mode : AlphaScheme) (e : Elem) : Elem :=
  match mode with
  | .eightLevel =>
    if (dxt5Low e).toNat < (dxt5High e).toNat then dxt5Remap inv8 (dxt5Swap e)
    else if dxt5Low e = dxt5High e then dxt5SetAll e fun _ => 0
    else e
  | .sixLevel =>
    if (dxt5High e).toNat < (dxt5Low e).toNat then dxt5Remap inv6 (dxt5Swap e) else e

/-- CANON mode (R217). CFGERR where the format has no DXT1-layout colour element, or there is no format. -/
def execCanon (mode : ColourScheme) (s : State) : Result :=
  match (formatOf s.fmt).bind colourElem with
  | none => fail .cfgerr s
  | some k => succeed (s.setBlk (setElem s.blk k (canonColour mode (elemOf s.blk k))))

/-- CANONA mode (R219). CFGERR where the format has no DXT5 alpha element, or there is no format. -/
def execCanona (mode : AlphaScheme) (s : State) : Result :=
  match (formatOf s.fmt).bind alpha5Elem with
  | none => fail .cfgerr s
  | some k => succeed (s.setBlk (setElem s.blk k (canonAlpha mode (elemOf s.blk k))))

end Sys2Proof.Machine
end

