-- ==== Sys2Proof/Machine/Control.lean ====
section
/-! DEFINITION. The control commands NOP, WRCR, WRCRH, RDCR, CLRST: spec/40_control.md R110 to R115. -/

namespace Sys2Proof.Machine

/-- NOP (R110). -/
def execNop (s : State) : Result := succeed s

/-- WRCR cr, imm16 (R111, R112). -/
def execWrcr (cr : CtrlReg) (imm16 : BitVec 16) (s : State) : Result := finishWrite s (writeCtrl cr imm16 s)

/-- WRCRH cr, imm16 (R113, R112). -/
def execWrcrh (cr : CtrlReg) (imm16 : BitVec 16) (s : State) : Result := finishWrite s (writeCtrlUpper cr imm16 s)

/-- RDCR cr (R114): RESP takes the value the register has before this command's own update of OK. -/
def execRdcr (cr : CtrlReg) (s : State) : Result := succeed (s.setResp (readCtrl cr s))

/-- CLRST mask (R115). -/
def execClrst (mask : BitVec 4) (s : State) : Result := succeed (s.setStatus (clearSticky mask s.status))

end Sys2Proof.Machine
end

