-- ==== Sys2Proof/Machine/Flips.lean ====
section
/-! DEFINITION. In-block reflection, commands FLIPX, FLIPY: spec/45_flip.md R240 to R245. -/

namespace Sys2Proof.Machine

/-- `fx(i) = 4*y + (3 - x)` (R240). -/
def flipFx (i : Fin 16) : Fin 16 := ⟨4 * (i.val / 4) + (3 - i.val % 4), by omega⟩

/-- `fy(i) = 4*(3 - y) + x` (R240). -/
def flipFy (i : Fin 16) : Fin 16 := ⟨4 * (3 - i.val / 4) + i.val % 4, by omega⟩

/-- `flip_dxt1(e, p)` (R241). -/
def flipDxt1 (e : Elem) (p : Fin 16 → Fin 16) : Elem := dxt1SetAll e fun i => dxt1Sel e (p i)

/-- `flip_dxt3(e, p)` (R241). -/
def flipDxt3 (e : Elem) (p : Fin 16 → Fin 16) : Elem := dxt3SetAll e fun i => dxt3A4 e (p i)

/-- `flip_dxt5(e, p)` (R241). -/
def flipDxt5 (e : Elem) (p : Fin 16 → Fin 16) : Elem := dxt5SetAll e fun i => dxt5Sel e (p i)

/-- The block a flip leaves, by format (R243); none for ETC1, which cannot be reflected (R242). -/
def flipBlock (f : BlockFormat) (p : Fin 16 → Fin 16) (b : Block) : Option Block :=
  match f with
  | .dxt1 => some (setElem b 0 (flipDxt1 (elemOf b 0) p))
  | .dxt1a => some (setElem b 0 (flipDxt1 (elemOf b 0) p))
  | .dxt3 => some (setElem (setElem b 0 (flipDxt3 (elemOf b 0) p)) 1 (flipDxt1 (elemOf b 1) p))
  | .dxt5 => some (setElem (setElem b 0 (flipDxt5 (elemOf b 0) p)) 1 (flipDxt1 (elemOf b 1) p))
  | .dxt5a => some (setElem b 0 (flipDxt5 (elemOf b 0) p))
  | .etc1 => none

/-- A flip by the permutation `p`: CFGERR before GEOM (R243, R244, R255). -/
def flipBy (p : Fin 16 → Fin 16) (s : State) : Result :=
  match formatOf s.fmt with
  | none => fail .cfgerr s
  | some f =>
    match flipBlock f p s.blk with
    | none => fail .geom s
    | some b => succeed (s.setBlk b)

/-- FLIPX (R243). -/
def execFlipx (s : State) : Result := flipBy flipFx s

/-- FLIPY (R244). -/
def execFlipy (s : State) : Result := flipBy flipFy s

end Sys2Proof.Machine
end

