-- ==== Sys2Proof/Machine/Packer.lean ====
section
/-! DEFINITION. The pixel packer: spec/42_packer.md R130 to R139, commands UNPK and PACK. Packed-pixel bits are numbered by
spec/20_memory.md R54. -/

namespace Sys2Proof.Machine

/-! ### Packed components -/

/-- Bit `k` of the packed pixel at `p` (R54): bit `k mod 8` of `Mem[p + k/8]`. -/
def packedBit (m : Memory) (p : Addr) (k : Nat) : Bool := (Memory.read m (addrPlus p (k / 8))).getLsbD (k % 8)

/-- `pk_get(p, o, s)` (R131): the unsigned integer whose bit j is pixel bit o + j. -/
def pkGet (m : Memory) (p : Addr) (o : Nat) : Nat → Nat
  | 0 => 0
  | s + 1 => pkGet m p o s + (packedBit m p (o + s)).toNat * 2 ^ s

/-- The byte numbers, from the pixel's first byte, that a component of size `s` at offset `o` touches: o/8 to (o+s-1)/8,
ascending (R58). -/
def componentBytes (o s : Nat) : List Nat :=
  if s = 0 then [] else List.range' (o / 8) ((o + s - 1) / 8 - o / 8 + 1)

/-- Byte `k` of the packed pixel with the bits of the component replaced by those of `n` (R136). -/
def mergeByte (old : Byte) (k o s n : Nat) : Byte :=
  BitVec.ofFnLE fun b : Fin 8 =>
    if o ≤ 8 * k + b.val ∧ 8 * k + b.val < o + s then n.testBit (8 * k + b.val - o) else old.getLsbD b.val

/-- One read-modify-write of `pk_put`: byte `k` of the packed pixel at `p` (R136). -/
def putByte (p : Addr) (o s n : Nat) (m : Memory) (k : Nat) : Memory :=
  Memory.write m (addrPlus p k) (mergeByte (Memory.read m (addrPlus p k)) k o s n)

/-- `pk_put(p, o, s, n)` (R136). -/
def pkPut (m : Memory) (p : Addr) (o s n : Nat) : Memory := (componentBytes o s).foldl (putByte p o s n) m

/-- `pk_max` of a size (R31). -/
def pkMax (s : Nat) : Nat := 2 ^ s - 1

/-- `pk_to8(n, s)` (R132). -/
def pkTo8 (resc : Bool) (n s : Nat) : Byte :=
  if resc then toByte (rescale n (pkMax s) 255) else toByte (min n 255)

/-- `pk_from8(v, s)` (R135). -/
def pkFrom8 (resc : Bool) (v : Byte) (s : Nat) : Nat :=
  if resc then rescale v.toNat 255 (pkMax s) else min v.toNat (pkMax s)

/-! ### Slots -/

/-- `PK_SIZE[c]` as a number. -/
def slotSize (s : State) (c : Fin 4) : Nat := s.pkSize[c].toNat

/-- `PK_OFS[c]` as a number. -/
def slotOfs (s : State) (c : Fin 4) : Nat := s.pkOfs[c].toNat

/-- The address of packed pixel `k`: `(PPTR + k * PK_STRIDE) mod 2^32` (R137, R138). -/
def packedAddr (s : State) (k : Nat) : Addr := addrPlus s.pptr (k * s.pkStride.toNat)

/-- Slot `c` of the packed pixel at `p` as an 8-bit component; `dflt` and no memory read when the slot is absent (R134). -/
def unpackSlot (s : State) (p : Addr) (c : Fin 4) (dflt : Byte) : Byte :=
  if slotSize s c = 0 then dflt
  else pkTo8 (ctrlRescale s.ctrl) (pkGet s.mem p (slotOfs s c) (slotSize s c)) (slotSize s c)

/-- The quad UNPK makes of the packed pixel at `p` (R137); with YMODE slot 0 feeds R, G and B (R133). -/
def unpackPixel (s : State) (p : Addr) : Pixel :=
  if ctrlYmode s.ctrl then
    ⟨unpackSlot s p 0 0, unpackSlot s p 0 0, unpackSlot s p 0 0, unpackSlot s p 3 255⟩
  else
    ⟨unpackSlot s p 0 0, unpackSlot s p 1 0, unpackSlot s p 2 0, unpackSlot s p 3 255⟩

/-- The slots PACK looks at, in slot order: with YMODE slots 1 and 2 are ignored (R133, R138). -/
def packSlots (s : State) : List (Fin 4) := if ctrlYmode s.ctrl then [0, 3] else [0, 1, 2, 3]

/-- The 8-bit value PACK stores in slot `c`: with YMODE slot 0 is the luma (R133, R138). -/
def packValue (s : State) (q : Pixel) (c : Fin 4) : Byte :=
  if ctrlYmode s.ctrl = true ∧ c = 0 then luma q else component q c

/-- One slot of one packed pixel written; an absent slot writes nothing (R134, R138). -/
def packSlot (s : State) (p : Addr) (q : Pixel) (m : Memory) (c : Fin 4) : Memory :=
  if slotSize s c = 0 then m
  else pkPut m p (slotOfs s c) (slotSize s c) (pkFrom8 (ctrlRescale s.ctrl) (packValue s q c) (slotSize s c))

/-- One packed pixel written, slots in order (R138, R139). -/
def packPixel (s : State) (p : Addr) (q : Pixel) (m : Memory) : Memory := (packSlots s).foldl (packSlot s p q) m

/-- The pixel registers with `cnt` packed pixels unpacked from `first` on (R137). -/
def unpackPixels (s : State) (first cnt : Nat) : Pixels :=
  Vector.ofFn fun i =>
    if first ≤ i.val ∧ i.val < first + cnt then unpackPixel s (packedAddr s (i.val - first)) else s.pix[i]

/-- Pixel register `first + k`. Legal operands keep it below 16 (R138). -/
def pixelAt (s : State) (n : Nat) : Pixel := s.pix[n % 16]'(Nat.mod_lt _ (by decide))

/-- Memory with `cnt` pixel registers packed from `first` on, pixels in ascending order (R138, R139). -/
def packPixels (s : State) (first cnt : Nat) : Memory :=
  (List.range cnt).foldl (fun m k => packPixel s (packedAddr s k) (pixelAt s (first + k)) m) s.mem

/-- The addresses PACK stores to (R58, R136, R138): the bytes of every present slot of every packed pixel. -/
def packAddrs (s : State) (cnt : Nat) : List Addr :=
  (List.range cnt).flatMap fun k =>
    (packSlots s).flatMap fun c => (componentBytes (slotOfs s c) (slotSize s c)).map fun j => addrPlus (packedAddr s k) j

/-! ### Commands -/

/-- UNPK first, cnt (R137). A range that is not legal makes the word illegal (R74; DEDUCED, log entry 7). -/
def execUnpk (first : Fin 16) (cnt : Fin 32) (s : State) : Result :=
  if pixelRangeLegal first cnt then
    succeed ((s.setPix (unpackPixels s first.val cnt.val)).setPptr (packedAddr s cnt.val))
  else illegalWord s

/-- PACK first, cnt (R138). A range that is not legal makes the word illegal (R74; DEDUCED, log entry 7). -/
def execPack (first : Fin 16) (cnt : Fin 32) (s : State) : Result :=
  if pixelRangeLegal first cnt then
    succeed ((s.setMem (packPixels s first.val cnt.val)).setPptr (packedAddr s cnt.val))
  else illegalWord s

end Sys2Proof.Machine
end

