-- ==== Sys2Proof/Machine/Quantiser.lean ====
section
/-! DEFINITION. The quantiser, commands QNT, SETEA, ENCA3: spec/44_encode.md R200 to R205. -/

namespace Sys2Proof.Machine

/-- `q5(v) = rescale(v, 255, 31)` (R200). -/
def q5 (v : Byte) : Nat := rescale v.toNat 255 31

/-- `q6(v) = rescale(v, 255, 63)` (R200). -/
def q6 (v : Byte) : Nat := rescale v.toNat 255 63

/-- `quant565(q)` (R200). Alpha is not used. -/
def quant565 (q : Pixel) : BitVec 16 := pack565 (q5 q.r) (q6 q.g) (q5 q.b)

/-- `quant4(a) = rescale(a, 255, 15)`, a value 0..15 (R202). -/
def quant4 (a : Byte) : BitVec 4 := BitVec.ofNat 4 (rescale a.toNat 255 15)

/-- A colour endpoint written (R203). -/
def setColourEndpoint (e : Endpoint) (c : BitVec 16) (el : Elem) : Elem :=
  match e with
  | .low => dxt1SetLow el c
  | .high => dxt1SetHigh el c

/-- An alpha endpoint written (R204). -/
def setAlphaEndpoint (e : Endpoint) (a : Byte) (el : Elem) : Elem :=
  match e with
  | .low => dxt5SetLow el a
  | .high => dxt5SetHigh el a

/-- QNT i, e (R203). CFGERR where the format has no DXT1-layout colour element, or there is no format. -/
def execQnt (i : Fin 16) (e : Endpoint) (s : State) : Result :=
  match (formatOf s.fmt).bind colourElem with
  | none => fail .cfgerr s
  | some k => succeed (s.setBlk (setElem s.blk k (setColourEndpoint e (quant565 s.pix[i]) (elemOf s.blk k))))

/-- SETEA i, e (R204). CFGERR where the format has no DXT5 alpha element, or there is no format. -/
def execSetea (i : Fin 16) (e : Endpoint) (s : State) : Result :=
  match (formatOf s.fmt).bind alpha5Elem with
  | none => fail .cfgerr s
  | some k => succeed (s.setBlk (setElem s.blk k (setAlphaEndpoint e s.pix[i].a (elemOf s.blk k))))

/-- ENCA3 (R205). CFGERR where the format is not DXT3. -/
def execEnca3 (s : State) : Result :=
  match (formatOf s.fmt).bind alpha3Elem with
  | none => fail .cfgerr s
  | some k => succeed (s.setBlk (setElem s.blk k (dxt3SetAll (elemOf s.blk k) fun i => quant4 s.pix[i].a)))

end Sys2Proof.Machine
end

