-- ==== Sys2Proof/Machine/Selectors.lean ====
section
/-! DEFINITION. The selector encoder, commands SELC, SELA, SETPX: spec/44_encode.md R206 to R214. -/

namespace Sys2Proof.Machine

/-- `nearest(C, d)` for the candidates `c :: cs`, ascending (R206): the first of least distance, and that distance. -/
def nearest {n : Nat} (c : BitVec n) (cs : List (BitVec n)) (d : BitVec n → Nat) : BitVec n × Nat :=
  cs.foldl (fun best x => if d x < best.2 then (x, d x) else best) (c, d c)

/-- `sel_dxt1(f, e, i)` for the pixel `q` (R207). -/
def selDxt1 (f : BlockFormat) (ctrl : BitVec 16) (e : Elem) (q : Pixel) : BitVec 2 × Nat :=
  if dxt1IsAlphaBlock e then
    if f = .dxt1a ∧ q.a.toNat < (ctrlAthr ctrl).toNat then (3, 0)
    else nearest 0 [1, 2] fun v => wdist (ctrlPerc ctrl) q (dxt1Table e)[v.toFin]
  else nearest 0 [1, 2, 3] fun v => wdist (ctrlPerc ctrl) q (dxt1Table e)[v.toFin]

/-- `sel_etc1(e, i)` for the pixel `q` in sub-block `sb` (R209). -/
def selEtc1 (ctrl : BitVec 16) (e : Elem) (sb : SubBlock) (q : Pixel) : BitVec 2 × Nat :=
  nearest 0 [1, 2, 3] fun v => wdist (ctrlPerc ctrl) q (etc1Entry e sb v)

/-- `sel_dxt5(e, a)` (R210): all eight entries are candidates; the alpha error is never weighted. -/
def selDxt5 (e : Elem) (a : Byte) : BitVec 3 × Nat :=
  nearest 0 [1, 2, 3, 4, 5, 6, 7] fun v => sqDiff a (dxt5Table e)[v.toFin]

/-- `enc_alpha3(a)` (R211). -/
def encAlpha3 (a : Byte) : BitVec 4 × Nat := (quant4 a, sqDiff a (toByte (expand4 (quant4 a).toNat)))

/-- The sum over the sixteen pixels of an error: "total". -/
def totalError (d : Fin 16 → Nat) : Nat := (pixelIndices.map d).sum

/-- `ERR <- total`; the total never reaches 2^32 (R29). -/
def errWord (total : Nat) : Word := BitVec.ofNat 32 total

/-- The selector and error of pixel `i` in the DXT1-layout element `e`. -/
def colourChoice (f : BlockFormat) (s : State) (e : Elem) (i : Fin 16) : BitVec 2 × Nat := selDxt1 f s.ctrl e s.pix[i]

/-- The raw index and error of pixel `i` in the ETC1 element `e`. -/
def etc1Choice (s : State) (e : Elem) (i : Fin 16) : BitVec 2 × Nat := selEtc1 s.ctrl e (etc1Sub e i) s.pix[i]

/-- The selector and error of pixel `i` in the DXT5 alpha element `e`. -/
def alphaChoice (s : State) (e : Elem) (i : Fin 16) : BitVec 3 × Nat := selDxt5 e s.pix[i].a

/-- SELC on a DXT1-layout element (R208). The choices depend on the endpoints, which selector writes do not change. -/
def encodeColour (f : BlockFormat) (k : Fin 2) (s : State) : State :=
  (s.setBlk (setElem s.blk k (dxt1SetAll (elemOf s.blk k) fun i => (colourChoice f s (elemOf s.blk k) i).1))).setErr
    (errWord (totalError fun i => (colourChoice f s (elemOf s.blk k) i).2))

/-- SELC on an ETC1 element (R208): the header is read once, before any write. -/
def encodeEtc1 (s : State) : State :=
  (s.setBlk (setElem s.blk 0 (etc1SetAll (elemOf s.blk 0) fun i => (etc1Choice s (elemOf s.blk 0) i).1))).setErr
    (errWord (totalError fun i => (etc1Choice s (elemOf s.blk 0) i).2))

/-- SELA on the DXT5 alpha element (R212). -/
def encodeAlpha (k : Fin 2) (s : State) : State :=
  (s.setBlk (setElem s.blk k (dxt5SetAll (elemOf s.blk k) fun i => (alphaChoice s (elemOf s.blk k) i).1))).setErr
    (errWord (totalError fun i => (alphaChoice s (elemOf s.blk k) i).2))

/-- SELC (R208). CFGERR for FMT in 0, 5, 7. -/
def execSelc (s : State) : Result :=
  match formatOf s.fmt with
  | none => fail .cfgerr s
  | some .etc1 => succeed (encodeEtc1 s)
  | some .dxt1 => succeed (encodeColour .dxt1 0 s)
  | some .dxt1a => succeed (encodeColour .dxt1a 0 s)
  | some .dxt3 => succeed (encodeColour .dxt3 1 s)
  | some .dxt5 => succeed (encodeColour .dxt5 1 s)
  | some .dxt5a => fail .cfgerr s

/-- SELA (R212). CFGERR where the format has no DXT5 alpha element, or there is no format. -/
def execSela (s : State) : Result :=
  match (formatOf s.fmt).bind alpha5Elem with
  | none => fail .cfgerr s
  | some k => succeed (encodeAlpha k s)

/-- One selector of the colour element `k`. -/
def setColourPixel (f : BlockFormat) (k : Fin 2) (i : Fin 16) (s : State) (b : Block) : Block :=
  setElem b k (dxt1SetSel (elemOf b k) i (colourChoice f s (elemOf s.blk k) i).1)

/-- One selector of the DXT5 alpha element. -/
def setAlphaPixel (i : Fin 16) (s : State) (b : Block) : Block :=
  setElem b 0 (dxt5SetSel (elemOf b 0) i (alphaChoice s (elemOf s.blk 0) i).1)

/-- One nibble of the DXT3 alpha element. -/
def setNibblePixel (i : Fin 16) (s : State) (b : Block) : Block :=
  setElem b 0 (dxt3SetA4 (elemOf b 0) i (encAlpha3 s.pix[i].a).1)

/-- One raw index of the ETC1 element. -/
def setEtc1Pixel (i : Fin 16) (s : State) (b : Block) : Block :=
  setElem b 0 (etc1SetSel (elemOf b 0) i (etc1Choice s (elemOf s.blk 0) i).1)

/-- The block SETPX leaves (R214). -/
def setPixelBlock (f : BlockFormat) (i : Fin 16) (s : State) : Block :=
  match f with
  | .dxt1 => setColourPixel .dxt1 0 i s s.blk
  | .dxt1a => setColourPixel .dxt1a 0 i s s.blk
  | .dxt3 => setColourPixel .dxt3 1 i s (setNibblePixel i s s.blk)
  | .dxt5 => setColourPixel .dxt5 1 i s (setAlphaPixel i s s.blk)
  | .dxt5a => setAlphaPixel i s s.blk
  | .etc1 => setEtc1Pixel i s s.blk

/-- The error SETPX reports (R214): colour error plus alpha error. -/
def setPixelError (f : BlockFormat) (i : Fin 16) (s : State) : Nat :=
  match f with
  | .dxt1 => (colourChoice .dxt1 s (elemOf s.blk 0) i).2
  | .dxt1a => (colourChoice .dxt1a s (elemOf s.blk 0) i).2
  | .dxt3 => (colourChoice .dxt3 s (elemOf s.blk 1) i).2 + (encAlpha3 s.pix[i].a).2
  | .dxt5 => (colourChoice .dxt5 s (elemOf s.blk 1) i).2 + (alphaChoice s (elemOf s.blk 0) i).2
  | .dxt5a => (alphaChoice s (elemOf s.blk 0) i).2
  | .etc1 => (etc1Choice s (elemOf s.blk 0) i).2

/-- SETPX i (R213, R214). -/
def execSetpx (i : Fin 16) (s : State) : Result :=
  match formatOf s.fmt with
  | none => fail .cfgerr s
  | some f => succeed ((s.setBlk (setPixelBlock f i s)).setErr (errWord (setPixelError f i s)))

end Sys2Proof.Machine
end

