-- ==== Sys2Proof/Machine/Transfer.lean ====
section
/-! DEFINITION. The block transfer commands LDBLK, STBLK: spec/41_transfer.md R120, R121. -/

namespace Sys2Proof.Machine

/-- BLK with its first `n` bytes read from memory at `a`; the others are kept (R120). -/
def loadBlock (m : Memory) (a : Addr) (n : Nat) (b : Block) : Block :=
  Vector.ofFn fun k => if k.val < n then Memory.read m (addrPlus a k.val) else b[k]

/-- The first `n` bytes of BLK, lowest first (R121). -/
def blockPrefix (b : Block) (n : Nat) : List Byte := b.toList.take n

/-- LDBLK (R120). -/
def execLdblk (s : State) : Result :=
  match formatOf s.fmt with
  | none => fail .cfgerr s
  | some f =>
    succeed ((s.setBlk (loadBlock s.mem s.bptr (blockBytes f) s.blk)).setBptr (addrPlus s.bptr (blockBytes f)))

/-- STBLK (R121). -/
def execStblk (s : State) : Result :=
  match formatOf s.fmt with
  | none => fail .cfgerr s
  | some f =>
    succeed
      ((s.setMem (Memory.writeBytes s.mem s.bptr (blockPrefix s.blk (blockBytes f)))).setBptr
        (addrPlus s.bptr (blockBytes f)))

end Sys2Proof.Machine
end

