-- ==== Sys2Proof/Machine/Dispatch.lean ====
section
/-! DEFINITION. One command executed: one arm for each row of the opcode map (spec/30_encoding.md R72). -/

namespace Sys2Proof.Machine

def exec (i : Instr) (s : State) : Host.Outcome State Fault Refusal :=
  match i with
  -- control (40_control.md)
  | .nop => Sys2Proof.Machine.execNop s
  | .wrcr cr imm16 => Sys2Proof.Machine.execWrcr cr imm16 s
  | .wrcrh cr imm16 => Sys2Proof.Machine.execWrcrh cr imm16 s
  | .rdcr cr => Sys2Proof.Machine.execRdcr cr s
  | .clrst mask => Sys2Proof.Machine.execClrst mask s
  -- block transfer (41_transfer.md)
  | .ldblk => Sys2Proof.Machine.execLdblk s
  | .stblk => Sys2Proof.Machine.execStblk s
  -- pixel packer (42_packer.md)
  | .unpk first cnt => Sys2Proof.Machine.execUnpk first cnt s
  | .pack first cnt => Sys2Proof.Machine.execPack first cnt s
  -- decode (43_decode.md)
  | .dec => Sys2Proof.Machine.execDec s
  | .decpx n => Sys2Proof.Machine.execDecpx n s
  -- quantiser, selectors, canonicaliser (44_encode.md)
  | .qnt n e => Sys2Proof.Machine.execQnt n e s
  | .setea n e => Sys2Proof.Machine.execSetea n e s
  | .enca3 => Sys2Proof.Machine.execEnca3 s
  | .selc => Sys2Proof.Machine.execSelc s
  | .sela => Sys2Proof.Machine.execSela s
  | .setpx n => Sys2Proof.Machine.execSetpx n s
  | .canon mode => Sys2Proof.Machine.execCanon mode s
  | .canona mode => Sys2Proof.Machine.execCanona mode s
  -- flips (45_flip.md)
  | .flipx => Sys2Proof.Machine.execFlipx s
  | .flipy => Sys2Proof.Machine.execFlipy s

end Sys2Proof.Machine
end

