-- ==== Sys2Proof/Machine/Step.lean ====
section
/-! DEFINITION. One step of the machine: it takes the host's next event (spec/10_state.md R20, R33; log entries 1, 2). -/

namespace Sys2Proof.Machine

/-- A presented word: the command it decodes to, or an illegal word (R74, R252). -/
def runWord (w : Word) (s : State) : Host.Outcome State Fault Refusal :=
  match decode w with
  | .ok i => exec i s
  | .error _ => illegalWord s

/-- One step. With no event waiting the BCU stays idle (R272); a command is executed whole before the next event (R20, R60). -/
def step (s : State) : Host.Outcome State Fault Refusal :=
  match s.host with
  | [] => .next s
  | .command w :: rest => runWord w (s.afterEvent rest)
  | .memWrite a b :: rest => .next (hostWrite a b (s.afterEvent rest))
  | .reset :: rest => .next (applyReset (s.afterEvent rest))

/-- `s` with a command word presented next: the next step executes exactly it (log entry 2). -/
def State.withFetchWord (s : State) (nbits w : Nat) : State := s.present (BitVec.ofNat 32 (wordOfBits nbits w))

end Sys2Proof.Machine
end

