-- ==== Sys2Proof/Machine/Pseudo.lean ====
section
/-! DEFINITION. The host-side pseudo-instructions LI, SETFMT, PKSPEC, PKINIT: spec/30_encoding.md R76, spec/42_packer.md R140, R141. Each
expands to a fixed command sequence; none means the assembler fails and no command is issued. -/

namespace Sys2Proof.Machine

/-- `LI cr, v32` for cr in 4, 5 (R76). -/
def expandLi (cr : CtrlReg) (v : Word) : Option (List Instr) :=
  if cr.hasUpperHalf then some [.wrcr cr (v.extractLsb' 0 16), .wrcrh cr (v.extractLsb' 16 16)] else none

/-- `SETFMT name` (R76); `none` is the name NONE, code 0. -/
def expandSetfmt (f : Option BlockFormat) : List Instr :=
  match f with
  | none => [.wrcr .fmt 0]
  | some g => [.wrcr .fmt ((formatCode g).setWidth 16)]

/-- A packer layout: what the ten WRCR commands of R140 write. -/
structure PackerLayout where
  size : Vector Nat 4
  ofs : Vector Nat 4
  stride : Nat
  ymode : Bool
  deriving DecidableEq, Repr

/-- `(ctrl_base & 0xFF03) | (ymode << 2)` (R140). -/
def layoutCtrl (ymode : Bool) (ctrlBase : BitVec 16) : BitVec 16 :=
  (ctrlBase &&& 0xFF03) ||| (if ymode then 0x0004 else 0)

/-- The ten WRCR commands of R140, in its order. -/
def layoutCommands (l : PackerLayout) (ctrlBase : BitVec 16) : List Instr :=
  [.wrcr (.pkSize 0) (BitVec.ofNat 16 l.size[0]), .wrcr (.pkSize 1) (BitVec.ofNat 16 l.size[1]),
    .wrcr (.pkSize 2) (BitVec.ofNat 16 l.size[2]), .wrcr (.pkSize 3) (BitVec.ofNat 16 l.size[3]),
    .wrcr (.pkOfs 0) (BitVec.ofNat 16 l.ofs[0]), .wrcr (.pkOfs 1) (BitVec.ofNat 16 l.ofs[1]),
    .wrcr (.pkOfs 2) (BitVec.ofNat 16 l.ofs[2]), .wrcr (.pkOfs 3) (BitVec.ofNat 16 l.ofs[3]),
    .wrcr .pkStride (BitVec.ofNat 16 l.stride), .wrcr .ctrl (layoutCtrl l.ymode ctrlBase)]

/-! ### PKSPEC -/

/-- The letters of a textual layout spec (R140). -/
inductive PackLetter where
  | r
  | g
  | b
  | a
  | y
  deriving DecidableEq, Repr

/-- A token: a letter and its size in bits (R140). -/
abbrev PackToken := PackLetter × Nat

/-- `letter`, upper case only (R140). -/
def packLetter (c : Char) : Option PackLetter :=
  if c = 'R' then some .r
  else if c = 'G' then some .g
  else if c = 'B' then some .b
  else if c = 'A' then some .a
  else if c = 'Y' then some .y
  else none

/-- The value of a decimal digit. -/
def decDigit (c : Char) : Option Nat := if '0' ≤ c ∧ c ≤ '9' then some (c.toNat - '0'.toNat) else none

/-- A token with its size checked: 1..32 (R140). -/
def packToken (c : Char) (size : Nat) : Option PackToken :=
  match packLetter c with
  | none => none
  | some l => if 1 ≤ size ∧ size ≤ 32 then some (l, size) else none

/-- A token before the others. -/
def consToken (t : Option PackToken) (ts : Option (List PackToken)) : Option (List PackToken) :=
  match t, ts with
  | some x, some xs => some (x :: xs)
  | _, _ => none

/-- `text := token token*`, each token a letter and one or two decimal digits (R140). -/
def packTokens : List Char → Option (List PackToken)
  | [] => some []
  | [_] => none
  | [c, d] =>
    match decDigit d with
    | some x => consToken (packToken c x) (some [])
    | none => none
  | c :: d :: e :: rest =>
    match decDigit d, decDigit e with
    | some x, some y => consToken (packToken c (10 * x + y)) (packTokens rest)
    | some x, none => consToken (packToken c x) (packTokens (e :: rest))
    | none, _ => none

/-- The slot of a letter: R 0, G 1, B 2, A 3, Y 0 (R140). -/
def letterSlot : PackLetter → Fin 4
  | .r => 0
  | .g => 1
  | .b => 2
  | .a => 3
  | .y => 0

/-- The tokens name no letter twice, and not Y with R, G or B (R140). -/
def tokensLegal (ts : List PackToken) : Bool :=
  decide ((ts.map Prod.fst).Nodup)
    && !(decide (PackLetter.y ∈ ts.map Prod.fst)
      && (decide (PackLetter.r ∈ ts.map Prod.fst) || decide (PackLetter.g ∈ ts.map Prod.fst)
        || decide (PackLetter.b ∈ ts.map Prod.fst)))

/-- The size of the token in slot `c`, 0 when none is (R140). -/
def tokenSize (c : Fin 4) : List PackToken → Nat
  | [] => 0
  | (l, n) :: ts => if letterSlot l = c then n else tokenSize c ts

/-- The offset of the token in slot `c`: `before` plus the sizes of the tokens before it; 0 when no token is (R140). -/
def tokenOfs (c : Fin 4) (before : Nat) : List PackToken → Nat
  | [] => 0
  | (l, n) :: ts => if letterSlot l = c then before else tokenOfs c (before + n) ts

/-- The bits all tokens take. -/
def tokenBits (ts : List PackToken) : Nat := (ts.map Prod.snd).sum

/-- The layout of a token list: first token at pixel bit 0, stride = (total bits + 7) / 8 (R140). -/
def tokenLayout (ts : List PackToken) : PackerLayout where
  size := #v[tokenSize 0 ts, tokenSize 1 ts, tokenSize 2 ts, tokenSize 3 ts]
  ofs := #v[tokenOfs 0 0 ts, tokenOfs 1 0 ts, tokenOfs 2 0 ts, tokenOfs 3 0 ts]
  stride := (tokenBits ts + 7) / 8
  ymode := decide (PackLetter.y ∈ ts.map Prod.fst)

/-- The layout of a textual spec (R140); none where it is malformed. -/
def specLayout (text : List Char) : Option PackerLayout :=
  match packTokens text with
  | none => none
  | some [] => none
  | some (t :: ts) => if tokensLegal (t :: ts) then some (tokenLayout (t :: ts)) else none

/-- `PKSPEC "text", ctrl_base` (R140). -/
def expandPkspec (text : List Char) (ctrlBase : BitVec 16) : Option (List Instr) :=
  (specLayout text).map fun l => layoutCommands l ctrlBase

/-! ### PKINIT -/

/-- The size of slot `c` (R141). -/
def initSize (n bits : Nat) (c : Nat) : Nat := if c < n then bits else 0

/-- The offset of slot `c` (R141). -/
def initOfs (n bits : Nat) (reversed : Bool) (c : Nat) : Nat :=
  if c < n then (if reversed then (n - 1 - c) * bits else c * bits) else 0

/-- The layout of a component count (R141). -/
def initLayout (n bits stride : Nat) (reversed : Bool) : PackerLayout where
  size := #v[initSize n bits 0, initSize n bits 1, initSize n bits 2, initSize n bits 3]
  ofs := #v[initOfs n bits reversed 0, initOfs n bits reversed 1, initOfs n bits reversed 2, initOfs n bits reversed 3]
  stride := stride
  ymode := false

/-- `PKINIT n, bits, stride, reversed, ctrl_base` (R141); none where an operand is out of range. -/
def expandPkinit (n bits stride reversed : Nat) (ctrlBase : BitVec 16) : Option (List Instr) :=
  if 1 ≤ n ∧ n ≤ 4 ∧ 1 ≤ bits ∧ bits ≤ 32 ∧ stride ≤ 65535 ∧ reversed ≤ 1 then
    some (layoutCommands (initLayout n bits stride (reversed == 1)) ctrlBase)
  else none

end Sys2Proof.Machine
end

