-- ==== Sys2Proof/Safety.lean ====
section
/-! DEFINITION. What counts as a safe state and a safe run of the BCU, in the terms the statements use. -/

namespace Sys2Proof.Machine

/-- The legal states: what the registers can hold by spec/10_state.md R25 to R31, and memory in canonical form. -/
structure State.Inv (s : State) : Prop where
  /-- FMT never holds 7 (R26). -/
  fmt_legal : s.fmt.toNat ≤ 6
  /-- The reserved bits 7:3 of CTRL read as 0 (R27). -/
  ctrl_reserved : s.ctrl &&& 0x00F8 = 0
  /-- PK_SIZE[c] is 0..32 (R31). -/
  size_legal : ∀ c : Fin 4, s.pkSize[c].toNat ≤ 32
  /-- ERR is at most 16 * 2210850 (R29). -/
  err_bound : s.err.toNat ≤ 35373600
  /-- Memory is in canonical form. -/
  mem_canonical : Memory.wf s.mem = true

/-- A command list run to its end: every command executed on the state the one before it left (R20, R60). -/
def runCommands : List Instr → State → Option State
  | [], s => some s
  | i :: is, s =>
    match exec i s with
    | .next t => runCommands is t
    | .fault _ => none
    | .refused _ => none

/-- A run in which no command failed: OK is 1 after every one of them (R28). -/
def runSucceeds : List Instr → State → Bool
  | [], _ => true
  | i :: is, s =>
    match exec i s with
    | .next t => statusOk t.status && runSucceeds is t
    | .fault _ => false
    | .refused _ => false

end Sys2Proof.Machine
end

