-- ==== Sys2Proof/Certificates/Slice0/Obligations.lean ====
section
/-! DEFINITION. The statements about the model, each an `Obligations.<Name> : Prop`, with the vocabulary they share under `Sys2Proof.Claims`.
None of them rests on a value this model chose for reset contents, for unlisted memory, or for a free value. -/

namespace Sys2Proof.Claims

open Sys2Proof.Machine

/-! ### Shared vocabulary -/

/-- Every byte of memory reads as before. -/
def KeepsMemory (s t : State) : Prop := ∀ a : Addr, Memory.read t.mem a = Memory.read s.mem a

/-- A failed command (R251): the flag set, OK cleared, no other state changed. -/
def failed (flag : BitVec 5) (s : State) : State := { s with status := (s.status ||| flag) &&& 0b11110 }

/-- STATUS after a success: OK set, the sticky flags kept. -/
def okStatus (s : State) : BitVec 5 := s.status ||| 0b00001

/-- ILL, CFGERR, GEOM as STATUS bits 1, 2, 4 (R28, R253). -/
def illBit : BitVec 5 := 0b00010
def cfgerrBit : BitVec 5 := 0b00100
def geomBit : BitVec 5 := 0b10000

/-- No command moves the model's own fields. -/
def KeepsModelFields (s t : State) : Prop := t.host = s.host ∧ t.freeNext = s.freeNext

/-- The configuration registers FMT, CTRL, PK_STRIDE, PK_SIZE, PK_OFS. -/
def KeepsConfig (s t : State) : Prop :=
  t.fmt = s.fmt ∧ t.ctrl = s.ctrl ∧ t.pkStride = s.pkStride ∧ t.pkSize = s.pkSize ∧ t.pkOfs = s.pkOfs

/-- The byte pair of a 16-bit endpoint, little-endian. -/
def lowByte (c : BitVec 16) : Byte := c.extractLsb' 0 8
def highByte (c : BitVec 16) : Byte := c.extractLsb' 8 8

/-- A word of the host's: opcode, f1, imm (R70). -/
def word (op f1 : BitVec 8) (imm : BitVec 16) : Word := op ++ f1 ++ imm

end Sys2Proof.Claims

open Sys2Proof Sys2Proof.Machine Sys2Proof.Claims

/-! ### Encoding -/

/-- R74: encoding a legal command and decoding the word gives the command back, every operand at every value. -/
def Obligations.DecodeOfEncode : Prop :=
  ∀ i : Instr, i.wellFormed = true → decode (encode i) = .ok i

/-- R71, R74: a word that decodes is the encoding of a legal command, bit for bit: no bit of a legal word is dropped, and every other
word is rejected. -/
def Obligations.DecodesOnlyEncodings : Prop :=
  ∀ (w : Word) (i : Instr), decode w = .ok i → i.wellFormed = true ∧ encode i = w

/-- The last column of R72, read off the word. -/
def Sys2Proof.Claims.furtherLegality (w : Word) : Instr → Prop
  | .wrcr _ _ => (w.extractLsb' 16 8).toNat ∈ [0, 1, 4, 5, 6, 8, 9, 10, 11, 12, 13, 14, 15]
  | .wrcrh _ _ => (w.extractLsb' 16 8).toNat ∈ [4, 5]
  | .rdcr _ => (w.extractLsb' 16 8).toNat ∈ [0, 1, 2, 3, 4, 5, 6, 8, 9, 10, 11, 12, 13, 14, 15]
  | .unpk _ _ => 1 ≤ (w.extractLsb' 0 5).toNat ∧ (w.extractLsb' 0 5).toNat ≤ 16
      ∧ (w.extractLsb' 16 4).toNat + (w.extractLsb' 0 5).toNat ≤ 16
  | .pack _ _ => 1 ≤ (w.extractLsb' 0 5).toNat ∧ (w.extractLsb' 0 5).toNat ≤ 16
      ∧ (w.extractLsb' 16 4).toNat + (w.extractLsb' 0 5).toNat ≤ 16
  | _ => True

/-- R72: a word is the command of a row exactly when `W & mask = match` and the row's further legality holds. A row is named by any
command of it; rows differ in their match value. -/
def Obligations.OpcodeMapIsTheTable : Prop :=
  ∀ (w : Word) (row : Instr),
    (∃ i, decode w = .ok i ∧ i.tableMatch = row.tableMatch) ↔
      (w &&& row.tableMask = row.tableMatch ∧ Claims.furtherLegality w row)

/-- R72, R75: words written out from the encoding tables decode to the commands they stand for (a sanity statement). -/
def Obligations.WrittenOutWordsDecode : Prop :=
  decode 0x01000004 = .ok (.wrcr .fmt 4) ∧ decode 0x02048000 = .ok (.wrcrh .bptr 0x8000)
    ∧ decode 0x10000000 = .ok .ldblk ∧ decode 0x20020002 = .ok (.unpk 2 2) ∧ decode 0x31050000 = .ok (.decpx 5)
    ∧ decode 0x41030001 = .ok (.setea 3 .high) ∧ decode 0x45050000 = .ok (.setpx 5)
    ∧ decode 0x47000001 = .ok (.canona .sixLevel) ∧ decode 0x51000000 = .ok .flipy

/-! ### The step -/

/-- R20, R33: when the word the host presents decodes to a command, the step is that command executed on the state with the word taken
off the host's list; and `withFetchWord` presents exactly the word it is given. -/
def Obligations.StepRunsTheDecodedCommand : Prop :=
  (∀ (s : State) (w : Word) (rest : List HostEvent) (i : Instr), s.host = .command w :: rest → decode w = .ok i →
      step s = exec i { s with host := rest }) ∧
    (∀ (s : State) (w : Word) (i : Instr), decode w = .ok i → step (s.withFetchWord 32 w.toNat) = exec i s)

/-- R252: a presented word that is the encoding of no legal command sets ILL, clears OK and changes nothing else. -/
def Obligations.IllegalWordRaisesIll : Prop :=
  ∀ (s : State) (w : Word) (rest : List HostEvent), s.host = .command w :: rest →
    (∀ i : Instr, i.wellFormed = true → encode i ≠ w) → step s = .next (failed illBit { s with host := rest })

/-- R20, R60, R272, the model's form of the host (log entries 1, 6): a byte the host writes between commands reads back, other bytes are
kept, and no other state moves; with nothing presented the BCU idles. -/
def Obligations.HostActsBetweenCommands : Prop :=
  (∀ s : State, s.host = [] → step s = .next s) ∧
    (∀ (s : State) (a : Addr) (b : Byte) (rest : List HostEvent), s.host = .memWrite a b :: rest → Memory.wf s.mem = true →
      ∃ t, step s = .next t ∧ (∀ x : Addr, Memory.read t.mem x = if x = a then b else Memory.read s.mem x)
        ∧ t = { s with host := rest, mem := t.mem })

/-- R270, R271: after a reset every control register reads zero, and reset does not change memory. That a reset may come inside a run, as
an event of the host's list, is the model's choice (log entry 5 with log entry 1, DESIGN CHOICE), not a rule. Nothing is said of B, P and
RESP, which R271 leaves unspecified. -/
def Obligations.ResetClearsControlRegisters : Prop :=
  (∀ cr : CtrlReg, readCtrl cr State.reset = 0) ∧
    (∀ (s : State) (rest : List HostEvent), s.host = .reset :: rest →
      ∃ t, step s = .next t ∧ (∀ cr : CtrlReg, readCtrl cr t = 0) ∧ KeepsMemory s t ∧ t.mem = s.mem ∧ t.host = rest)

/-! ### The whole machine -/

/-- R250: no command stops the BCU; every command on every state, and every step, answers a next state. -/
def Obligations.NothingStopsTheUnit : Prop :=
  (∀ (i : Instr) (s : State), ∃ t, exec i s = .next t) ∧ (∀ s : State, ∃ t, step s = .next t)

/-- R26, R27, R31, R29's bound (an inference the spec marks as its own) and the model's own canonical memory (log entry 4): the legal-state invariant (FMT never 7, CTRL's reserved bits 0, PK_SIZE at most 32, ERR within its bound, memory
canonical) is kept by every step from every legal state. -/
def Obligations.EveryStepKeepsLegalState : Prop :=
  ∀ s t : State, s.Inv → step s = .next t → t.Inv

/-- The launch state is a legal state. -/
def Obligations.ResetStateIsLegal : Prop := State.reset.Inv

/-- R251: a command after which OK is 0 changed nothing but STATUS, by one of the three failures. -/
def Obligations.FailedCommandChangesOnlyStatus : Prop :=
  ∀ (i : Instr) (s t : State), exec i s = .next t → statusOk t.status = false →
    t = failed illBit s ∨ t = failed cfgerrBit s ∨ t = failed geomBit s

/-- The formats a block command accepts (R253), as codes; `none` for the commands that need no format. -/
def Sys2Proof.Claims.acceptedFormats : Instr → Option (List Nat)
  | .ldblk => some [1, 2, 3, 4, 5, 6]
  | .stblk => some [1, 2, 3, 4, 5, 6]
  | .dec => some [1, 2, 3, 4, 5, 6]
  | .decpx _ => some [1, 2, 3, 4, 5, 6]
  | .setpx _ => some [1, 2, 3, 4, 5, 6]
  | .flipx => some [1, 2, 3, 4, 5, 6]
  | .flipy => some [1, 2, 3, 4, 5, 6]
  | .qnt _ _ => some [1, 2, 3, 4]
  | .canon _ => some [1, 2, 3, 4]
  | .setea _ _ => some [4, 5]
  | .sela => some [4, 5]
  | .canona _ => some [4, 5]
  | .enca3 => some [3]
  | .selc => some [1, 2, 3, 4, 6]
  | _ => none

/-- The causes of CFGERR (R253). -/
def Sys2Proof.Claims.cfgerrCause (i : Instr) (s : State) : Prop :=
  (∃ l, Claims.acceptedFormats i = some l ∧ s.fmt.toNat ∉ l) ∨
    (∃ v : BitVec 16, i = .wrcr .fmt v ∧ 6 < v.toNat) ∨
    (∃ (c : Fin 4) (v : BitVec 16), i = .wrcr (.pkSize c) v ∧ 32 < v.toNat)

/-- The cause of GEOM (R253). -/
def Sys2Proof.Claims.geomCause (i : Instr) (s : State) : Prop := (i = .flipx ∨ i = .flipy) ∧ s.fmt.toNat = 6

/-- The cause of INVBLK (R253). -/
def Sys2Proof.Claims.invblkCause (i : Instr) (s : State) : Prop :=
  (i = .dec ∨ ∃ n, i = .decpx n) ∧ s.fmt.toNat = 6 ∧ etc1Invalid (elemOf s.blk 0) = true

/-- R253: an illegal word raises ILL; for a legal command other than CLRST each flag is set by exactly its causes, OK is 0 exactly
after CFGERR or GEOM, and a legal command never raises ILL; CLRST sets no flag but OK. -/
def Obligations.FlagsAreSetByTheirCauses : Prop :=
  (∀ (w : Word) (r : Reject) (s : State), decode w = .error r → runWord w s = .next (failed illBit s)) ∧
  (∀ (m : BitVec 4) (s t : State), exec (.clrst m) s = .next t →
    statusOk t.status = true ∧ ∀ k : Nat, 1 ≤ k → t.status.getLsbD k = true → s.status.getLsbD k = true) ∧
  ∀ (i : Instr) (s t : State), i.wellFormed = true → (∀ m, i ≠ .clrst m) → exec i s = .next t →
    (statusOk t.status = false ↔ Claims.cfgerrCause i s ∨ Claims.geomCause i s) ∧
    (statusIll t.status = statusIll s.status) ∧
    (statusCfgerr t.status = true ↔ statusCfgerr s.status = true ∨ Claims.cfgerrCause i s) ∧
    (statusInvblk t.status = true ↔ statusInvblk s.status = true ∨ Claims.invblkCause i s) ∧
    (statusGeom t.status = true ↔ statusGeom s.status = true ∨ Claims.geomCause i s)

/-- R255: ILL is decided from the word alone, whatever the state; then CFGERR for a format the command does not accept; a flip with no
format raises CFGERR, not GEOM; GEOM comes last; INVBLK does not compete: it is set by a decode that succeeds. -/
def Obligations.FailurePriority : Prop :=
  (∀ (s : State) (v : BitVec 16), runWord (word 0x01 0x07 v) s = .next (failed illBit s)) ∧
    (∀ (w : Word) (r : Reject), decode w = .error r → ∀ s : State, ∃ t, runWord w s = .next t ∧ statusIll t.status = true) ∧
    (∀ s : State, s.fmt = 0 → exec .flipx s = .next (failed cfgerrBit s) ∧ exec .flipy s = .next (failed cfgerrBit s)) ∧
    (∀ (i : Instr) (s : State) (l : List Nat), Claims.acceptedFormats i = some l → s.fmt.toNat ∉ l →
      exec i s = .next (failed cfgerrBit s)) ∧
    (∀ s : State, s.fmt = 6 → exec .flipx s = .next (failed geomBit s) ∧ exec .flipy s = .next (failed geomBit s)) ∧
    (∀ s : State, s.fmt = 6 → etc1Invalid (elemOf s.blk 0) = true →
      (∃ t, exec .dec s = .next t ∧ statusOk t.status = true ∧ statusInvblk t.status = true) ∧
      ∀ n : Fin 16, ∃ t, exec (.decpx n) s = .next t ∧ statusOk t.status = true ∧ statusInvblk t.status = true)

/-- R257: a command other than RDCR STATUS executes identically whatever STATUS holds: the two results agree in everything but STATUS,
and agree in OK. -/
def Obligations.StatusNeverSteersACommand : Prop :=
  ∀ (i : Instr) (s t t' : State) (st : BitVec 5), i ≠ .rdcr .status → exec i s = .next t →
    exec i { s with status := st } = .next t' →
    t' = { t with status := t'.status } ∧ statusOk t'.status = statusOk t.status

/-- R21: the pixel registers are written by UNPK, DEC and DECPX only. -/
def Obligations.PixelsAreWrittenByUnpkDecDecpx : Prop :=
  ∀ (i : Instr) (s t : State), exec i s = .next t → t.pix ≠ s.pix →
    (∃ first cnt, i = .unpk first cnt) ∨ i = .dec ∨ ∃ n, i = .decpx n

/-- R22: BLK is written by LDBLK, QNT, SETEA, ENCA3, SELC, SELA, SETPX, CANON, CANONA, FLIPX and FLIPY only. -/
def Obligations.BlockBufferWriters : Prop :=
  ∀ (i : Instr) (s t : State), exec i s = .next t → t.blk ≠ s.blk →
    i = .ldblk ∨ (∃ n e, i = .qnt n e) ∨ (∃ n e, i = .setea n e) ∨ i = .enca3 ∨ i = .selc ∨ i = .sela
      ∨ (∃ n, i = .setpx n) ∨ (∃ m, i = .canon m) ∨ (∃ m, i = .canona m) ∨ i = .flipx ∨ i = .flipy

/-- R25, R29, R30, R32, R50: which command may change each register, and memory. -/
def Obligations.RegisterAndMemoryWriters : Prop :=
  ∀ (i : Instr) (s t : State), exec i s = .next t →
    (t.resp ≠ s.resp → ∃ cr, i = .rdcr cr) ∧
    (t.err ≠ s.err → i = .selc ∨ i = .sela ∨ ∃ n, i = .setpx n) ∧
    (¬ KeepsConfig s t → ∃ cr v, i = .wrcr cr v) ∧
    (t.bptr ≠ s.bptr → i = .ldblk ∨ i = .stblk ∨ (∃ v, i = .wrcr .bptr v) ∨ ∃ v, i = .wrcrh .bptr v) ∧
    (t.pptr ≠ s.pptr → (∃ first cnt, i = .unpk first cnt) ∨ (∃ first cnt, i = .pack first cnt)
      ∨ (∃ v, i = .wrcr .pptr v) ∨ ∃ v, i = .wrcrh .pptr v) ∧
    (i ≠ .stblk → (∀ first cnt, i ≠ .pack first cnt) → KeepsMemory s t ∧ t.mem = s.mem) ∧
    KeepsModelFields s t

/-! ### Control commands -/

/-- R110, R115, as their pseudocode has it: NOP sets OK and does nothing else; CLRST clears the selected sticky flags, sets OK, and does nothing else. -/
def Obligations.NopAndClrst : Prop :=
  (∀ s : State, exec .nop s = .next { s with status := okStatus s }) ∧
    (∀ (mask : BitVec 4) (s : State), ∃ t, exec (.clrst mask) s = .next t ∧ statusOk t.status = true
      ∧ (∀ k : Nat, 1 ≤ k → k ≤ 4 → t.status.getLsbD k = (s.status.getLsbD k && !mask.getLsbD (k - 1)))
      ∧ t = { s with status := t.status })

/-- R111: what WRCR leaves, register by register, and its failures, the reserved numbers among them. -/
def Obligations.WrcrWritesRegisters : Prop :=
  ∀ (v : BitVec 16) (s : State),
    (exec (.wrcr .fmt v) s = .next (if v.toNat ≤ 6 then { s with fmt := v.setWidth 3, status := okStatus s } else failed cfgerrBit s)) ∧
    (exec (.wrcr .ctrl v) s = .next { s with ctrl := v &&& 0xFF07, status := okStatus s }) ∧
    (exec (.wrcr .status v) s = .next (failed illBit s)) ∧
    (exec (.wrcr .err v) s = .next (failed illBit s)) ∧
    (exec (.wrcr .bptr v) s = .next { s with bptr := v.setWidth 32, status := okStatus s }) ∧
    (exec (.wrcr .pptr v) s = .next { s with pptr := v.setWidth 32, status := okStatus s }) ∧
    (exec (.wrcr .pkStride v) s = .next { s with pkStride := v, status := okStatus s }) ∧
    (∀ c : Fin 4, exec (.wrcr (.pkSize c) v) s =
      .next (if v.toNat ≤ 32 then { s with pkSize := s.pkSize.set c (v.setWidth 6), status := okStatus s } else failed cfgerrBit s)) ∧
    (∀ c : Fin 4, exec (.wrcr (.pkOfs c) v) s = .next { s with pkOfs := s.pkOfs.set c v, status := okStatus s }) ∧
    (∀ cr : BitVec 8, cr.toNat = 7 ∨ 16 ≤ cr.toNat → runWord (word 0x01 cr v) s = .next (failed illBit s))

/-- R113: WRCRH writes bits 31:16 and keeps bits 15:0; every other register number is ILL. -/
def Obligations.WrcrhWritesUpperHalf : Prop :=
  ∀ (v : BitVec 16) (s : State),
    (∃ t, exec (.wrcrh .bptr v) s = .next t ∧ t.bptr.extractLsb' 16 16 = v
      ∧ t.bptr.extractLsb' 0 16 = s.bptr.extractLsb' 0 16 ∧ t = { s with bptr := t.bptr, status := okStatus s }) ∧
    (∃ t, exec (.wrcrh .pptr v) s = .next t ∧ t.pptr.extractLsb' 16 16 = v
      ∧ t.pptr.extractLsb' 0 16 = s.pptr.extractLsb' 0 16 ∧ t = { s with pptr := t.pptr, status := okStatus s }) ∧
    (∀ cr : CtrlReg, cr ≠ .bptr → cr ≠ .pptr → exec (.wrcrh cr v) s = .next (failed illBit s)) ∧
    (∀ cr : BitVec 8, cr.toNat ≠ 4 → cr.toNat ≠ 5 → runWord (word 0x02 cr v) s = .next (failed illBit s))

/-- R114: RDCR puts the register's value, zero-extended, in RESP; RDCR STATUS gives the value before its own update; the register read is
unchanged; reserved numbers are ILL. -/
def Obligations.RdcrReadsRegisters : Prop :=
  ∀ s : State,
    (∀ cr : CtrlReg, ∃ t, exec (.rdcr cr) s = .next t ∧ t = { s with resp := t.resp, status := okStatus s } ∧
      t.resp.toNat = (match cr with
        | .fmt => s.fmt.toNat
        | .ctrl => s.ctrl.toNat
        | .status => s.status.toNat
        | .err => s.err.toNat
        | .bptr => s.bptr.toNat
        | .pptr => s.pptr.toNat
        | .pkStride => s.pkStride.toNat
        | .pkSize c => s.pkSize[c].toNat
        | .pkOfs c => s.pkOfs[c].toNat)) ∧
    (∀ cr : BitVec 8, cr.toNat = 7 ∨ 16 ≤ cr.toNat → runWord (word 0x03 cr 0) s = .next (failed illBit s))

/-! ### Memory and block transfer -/

/-- The bytes a transfer moves (R58, R120): 16 for FMT 3 and 4, else 8. -/
def Sys2Proof.Claims.transferBytes (fmt : BitVec 3) : Nat := if fmt.toNat = 3 ∨ fmt.toNat = 4 then 16 else 8

/-- FMT holds a valid format (R24). -/
def Sys2Proof.Claims.validFormat (s : State) : Prop := 1 ≤ s.fmt.toNat ∧ s.fmt.toNat ≤ 6

/-- R120: LDBLK. -/
def Obligations.LdblkLoadsTheBlock : Prop :=
  ∀ s : State,
    (¬ Claims.validFormat s → exec .ldblk s = .next (failed cfgerrBit s)) ∧
    (Claims.validFormat s → ∃ t, exec .ldblk s = .next t ∧
      (∀ k : Fin 16, t.blk[k] =
        if k.val < Claims.transferBytes s.fmt then Memory.read s.mem (s.bptr + BitVec.ofNat 32 k.val) else s.blk[k]) ∧
      t.bptr = s.bptr + BitVec.ofNat 32 (Claims.transferBytes s.fmt) ∧ KeepsMemory s t ∧
      t = { s with blk := t.blk, bptr := t.bptr, status := okStatus s })

/-- R121: STBLK. The bytes stored are those at BPTR + k for k below 8 or 16; every other byte of memory reads as before. -/
def Obligations.StblkStoresTheBlock : Prop :=
  ∀ s : State,
    (¬ Claims.validFormat s → exec .stblk s = .next (failed cfgerrBit s)) ∧
    (Claims.validFormat s → Memory.wf s.mem = true → ∃ t, exec .stblk s = .next t ∧
      (∀ k : Fin 16, k.val < Claims.transferBytes s.fmt → Memory.read t.mem (s.bptr + BitVec.ofNat 32 k.val) = s.blk[k]) ∧
      (∀ a : Addr, (∀ k : Nat, k < Claims.transferBytes s.fmt → a ≠ s.bptr + BitVec.ofNat 32 k) →
        Memory.read t.mem a = Memory.read s.mem a) ∧
      t.bptr = s.bptr + BitVec.ofNat 32 (Claims.transferBytes s.fmt) ∧
      t = { s with mem := t.mem, bptr := t.bptr, status := okStatus s })

/-- R59, R120, R121, and R56 (an inference the spec marks as its own): a block stored is loaded back byte for byte, wherever it lies (also across the top of memory) and whatever
BLK held in between. -/
def Obligations.StoreThenLoadGivesTheBlock : Prop :=
  ∀ (s t : State) (b : Block), Claims.validFormat s → Memory.wf s.mem = true → exec .stblk s = .next t →
    ∃ u, exec .ldblk { t with blk := b, bptr := s.bptr } = .next u ∧
      ∀ k : Fin 16, u.blk[k] = if k.val < Claims.transferBytes s.fmt then s.blk[k] else b[k]

/-- The model's own canonical form (log entry 4): two memories in it that read the same at every address are the same memory. -/
def Obligations.CanonicalMemoryIsItsReads : Prop :=
  ∀ m m' : Memory, Memory.wf m = true → Memory.wf m' = true → (∀ a : Addr, Memory.read m a = Memory.read m' a) → m = m'

/-! ### Pixel packer -/

/-- R131 (an inference the spec marks as its own, from R54): bit j of `pk_get(p, o, s)` is bit (o+j) mod 8 of the byte (o+j)/8 on from p, and the result is below 2^s. -/
def Obligations.PkGetReadsTheBits : Prop :=
  ∀ (m : Memory) (p : Addr) (o s : Nat),
    pkGet m p o s < 2 ^ s ∧
      ∀ j : Nat, j < s →
        (pkGet m p o s).testBit j = (Memory.read m (p + BitVec.ofNat 32 ((o + j) / 8))).getLsbD ((o + j) % 8)

/-- R136 (an inference the spec marks as its own, from R54 and R58): `pk_put` writes the bits of n into pixel bits o..o+s-1 and preserves every other bit of memory. -/
def Obligations.PkPutWritesOnlyItsBits : Prop :=
  ∀ (m : Memory) (p : Addr) (o s n : Nat), Memory.wf m = true → 1 ≤ s → s ≤ 32 → o ≤ 65535 → n < 2 ^ s →
    (∀ j : Nat, j < s →
      (Memory.read (pkPut m p o s n) (p + BitVec.ofNat 32 ((o + j) / 8))).getLsbD ((o + j) % 8) = n.testBit j) ∧
    (∀ (a : Addr) (b : Nat), (∀ j : Nat, j < s → a = p + BitVec.ofNat 32 ((o + j) / 8) → b ≠ (o + j) % 8) →
      (Memory.read (pkPut m p o s n) a).getLsbD b = (Memory.read m a).getLsbD b)

/-- R132: unpacking rescales to nearest or saturates, always into 0..255, and is the identity at 8 bits. -/
def Obligations.UnpackConversion : Prop :=
  ∀ s n : Nat, 1 ≤ s → s ≤ 32 → n < 2 ^ s →
    (pkTo8 true n s).toNat = (n * 255 + (2 ^ s - 1) / 2) / (2 ^ s - 1) ∧ (pkTo8 false n s).toNat = min n 255 ∧
    (s = 8 → ∀ resc : Bool, (pkTo8 resc n s).toNat = n)

/-- R135: packing rescales to nearest or saturates, always into 0..2^s - 1, and is the identity at 8 bits. The last clause, that packing
an unpacked value of at most 8 bits restores it, is an inference the spec marks as its own. -/
def Obligations.PackConversion : Prop :=
  ∀ s : Nat, 1 ≤ s → s ≤ 32 →
    (∀ v : Byte,
      pkFrom8 true v s = (v.toNat * (2 ^ s - 1) + 127) / 255 ∧ pkFrom8 false v s = min v.toNat (2 ^ s - 1) ∧
      (∀ resc : Bool, pkFrom8 resc v s ≤ 2 ^ s - 1) ∧ (s = 8 → ∀ resc : Bool, pkFrom8 resc v s = v.toNat)) ∧
    (s ≤ 8 → ∀ n : Nat, n < 2 ^ s → pkFrom8 true (pkTo8 true n s) s = n)

/-- What UNPK puts in component `c` of a packed pixel at `p` (R132, R133, R134, R137): `slot` is the slot that feeds it. -/
def Sys2Proof.Claims.unpacked (s : State) (p : Addr) (slot : Fin 4) (dflt : Byte) : Byte :=
  if s.pkSize[slot].toNat = 0 then dflt
  else pkTo8 (s.ctrl.getLsbD 1) (pkGet s.mem p s.pkOfs[slot].toNat s.pkSize[slot].toNat) s.pkSize[slot].toNat

/-- R137: UNPK. The first clause, that an UNPK term with an illegal range, which no word decodes to, executes as ILL, is log entry 7's
reading (DEDUCED), and so is the use of a PK_SIZE of 33 to 63 as it stands, which no run reaches. -/
def Obligations.UnpkUnpacksPixels : Prop :=
  ∀ (first : Fin 16) (cnt : Fin 32) (s : State),
    (¬ (1 ≤ cnt.val ∧ cnt.val ≤ 16 ∧ first.val + cnt.val ≤ 16) → exec (.unpk first cnt) s = .next (failed illBit s)) ∧
    (1 ≤ cnt.val ∧ cnt.val ≤ 16 ∧ first.val + cnt.val ≤ 16 → ∃ t, exec (.unpk first cnt) s = .next t ∧
      (∀ (k : Nat) (i : Fin 16) (p : Addr), k < cnt.val → i.val = first.val + k →
        p = s.pptr + BitVec.ofNat 32 (k * s.pkStride.toNat) →
        t.pix[i].r = Claims.unpacked s p 0 0 ∧
        t.pix[i].g = Claims.unpacked s p (if s.ctrl.getLsbD 2 then 0 else 1) 0 ∧
        t.pix[i].b = Claims.unpacked s p (if s.ctrl.getLsbD 2 then 0 else 2) 0 ∧
        t.pix[i].a = Claims.unpacked s p 3 255) ∧
      (∀ i : Fin 16, i.val < first.val ∨ first.val + cnt.val ≤ i.val → t.pix[i] = s.pix[i]) ∧
      t.pptr = s.pptr + BitVec.ofNat 32 (cnt.val * s.pkStride.toNat) ∧ KeepsMemory s t ∧
      t = { s with pix := t.pix, pptr := t.pptr, status := okStatus s })

/-- Slot `c` of packed pixel `k` puts its bit `j` in bit `b` of the byte at `a` (R54, R138). With YMODE slots 1 and 2 put nothing. -/
def Sys2Proof.Claims.packCovers (s : State) (k : Nat) (c : Fin 4) (j : Nat) (a : Addr) (b : Nat) : Prop :=
  (s.ctrl.getLsbD 2 = true → c = 0 ∨ c = 3) ∧ j < s.pkSize[c].toNat ∧
    a = s.pptr + BitVec.ofNat 32 (k * s.pkStride.toNat) + BitVec.ofNat 32 ((s.pkOfs[c].toNat + j) / 8) ∧
    b = (s.pkOfs[c].toNat + j) % 8

/-- The value slot `c` of a pixel is packed from (R133, R138): the luma in slot 0 with YMODE, else the component. -/
def Sys2Proof.Claims.packedFrom (s : State) (q : Pixel) (c : Fin 4) : Byte :=
  if s.ctrl.getLsbD 2 = true ∧ c = 0 then luma q
  else if c = 0 then q.r else if c = 1 then q.g else if c = 2 then q.b else q.a

/-- R138: PACK. Each bit of memory is the bit of the last slot (pixels ascending, then slots ascending) that covers it; a bit
that no slot covers is kept, so every byte outside `packAddrs` reads as before. The first clause, that a PACK term with an illegal range,
which no word decodes to, executes as ILL, is log entry 7's reading (DEDUCED). -/
def Obligations.PackPacksPixels : Prop :=
  ∀ (first : Fin 16) (cnt : Fin 32) (s : State), s.Inv →
    (¬ (1 ≤ cnt.val ∧ cnt.val ≤ 16 ∧ first.val + cnt.val ≤ 16) → exec (.pack first cnt) s = .next (failed illBit s)) ∧
    (1 ≤ cnt.val ∧ cnt.val ≤ 16 ∧ first.val + cnt.val ≤ 16 → ∃ t, exec (.pack first cnt) s = .next t ∧
      (∀ (k : Nat) (c : Fin 4) (j : Nat) (a : Addr) (b : Nat) (i : Fin 16), k < cnt.val → i.val = first.val + k →
        Claims.packCovers s k c j a b →
        (∀ (k' : Nat) (c' : Fin 4) (j' : Nat), k' < cnt.val → k < k' ∨ (k = k' ∧ c < c') → ¬ Claims.packCovers s k' c' j' a b) →
        (Memory.read t.mem a).getLsbD b =
          (pkFrom8 (s.ctrl.getLsbD 1) (Claims.packedFrom s s.pix[i] c) s.pkSize[c].toNat).testBit j) ∧
      (∀ (a : Addr) (b : Nat), (∀ (k : Nat) (c : Fin 4) (j : Nat), k < cnt.val → ¬ Claims.packCovers s k c j a b) →
        (Memory.read t.mem a).getLsbD b = (Memory.read s.mem a).getLsbD b) ∧
      (∀ a : Addr, a ∉ packAddrs s cnt.val → Memory.read t.mem a = Memory.read s.mem a) ∧
      t.pptr = s.pptr + BitVec.ofNat 32 (cnt.val * s.pkStride.toNat) ∧
      t = { s with mem := t.mem, pptr := t.pptr, status := okStatus s })

/-! ### Decode -/

/-- R161 to R164: the 565 endpoints expanded by bit replication (what the spec marks as from general knowledge, 93 G2, G5), and the DXT1
table of an element, per channel, truncating; alphas 255, and the transparent entry (0,0,0,0) (93 G14) in the cutout table, which
equality of the endpoints selects. -/
def Obligations.Dxt1TableFormulas : Prop :=
  (∀ c : BitVec 16,
    (unpack565 c).r.toNat = 8 * (c.toNat / 2048) + c.toNat / 2048 / 4 ∧
    (unpack565 c).g.toNat = 4 * (c.toNat / 32 % 64) + c.toNat / 32 % 64 / 16 ∧
    (unpack565 c).b.toNat = 8 * (c.toNat % 32) + c.toNat % 32 / 4 ∧ (unpack565 c).a = 255) ∧
  ∀ (e : Elem) (l h : BitVec 16), l = e[1] ++ e[0] → h = e[3] ++ e[2] →
    (dxt1Table e)[0] = unpack565 l ∧ (dxt1Table e)[1] = unpack565 h ∧
    (h.toNat < l.toNat →
      ((dxt1Table e)[2].r.toNat = (2 * (unpack565 l).r.toNat + (unpack565 h).r.toNat) / 3 ∧
        (dxt1Table e)[2].g.toNat = (2 * (unpack565 l).g.toNat + (unpack565 h).g.toNat) / 3 ∧
        (dxt1Table e)[2].b.toNat = (2 * (unpack565 l).b.toNat + (unpack565 h).b.toNat) / 3 ∧ (dxt1Table e)[2].a = 255) ∧
      ((dxt1Table e)[3].r.toNat = ((unpack565 l).r.toNat + 2 * (unpack565 h).r.toNat) / 3 ∧
        (dxt1Table e)[3].g.toNat = ((unpack565 l).g.toNat + 2 * (unpack565 h).g.toNat) / 3 ∧
        (dxt1Table e)[3].b.toNat = ((unpack565 l).b.toNat + 2 * (unpack565 h).b.toNat) / 3 ∧ (dxt1Table e)[3].a = 255)) ∧
    (l.toNat ≤ h.toNat →
      ((dxt1Table e)[2].r.toNat = ((unpack565 l).r.toNat + (unpack565 h).r.toNat) / 2 ∧
        (dxt1Table e)[2].g.toNat = ((unpack565 l).g.toNat + (unpack565 h).g.toNat) / 2 ∧
        (dxt1Table e)[2].b.toNat = ((unpack565 l).b.toNat + (unpack565 h).b.toNat) / 2 ∧ (dxt1Table e)[2].a = 255) ∧
      (dxt1Table e)[3] = ⟨0, 0, 0, 0⟩)

/-- R167, R168, R169 (93 G7, G15: from general knowledge): the DXT5 alpha table of an element; equality of the endpoints is the 6-level table. -/
def Obligations.Dxt5TableFormulas : Prop :=
  ∀ (e : Elem) (l h : Nat), l = e[0].toNat → h = e[1].toNat →
    (dxt5Table e)[0].toNat = l ∧ (dxt5Table e)[1].toNat = h ∧
    (h < l → ∀ (k : Nat) (n : Fin 8), 1 ≤ k → k ≤ 6 → n.val = k + 1 → (dxt5Table e)[n].toNat = ((7 - k) * l + k * h) / 7) ∧
    (l ≤ h → (∀ (k : Nat) (n : Fin 8), 1 ≤ k → k ≤ 4 → n.val = k + 1 → (dxt5Table e)[n].toNat = ((5 - k) * l + k * h) / 5) ∧
      (dxt5Table e)[6] = 0 ∧ (dxt5Table e)[7] = 255)

/-- Channel `ch` of an ETC1 pixel from the bytes of the element (R87 to R89, R170 to R174), written out on integers. -/
def Sys2Proof.Claims.etc1Second (e : Elem) (i : Fin 16) : Bool :=
  if e[3].toNat % 2 = 1 then decide (2 ≤ i.val / 4) else decide (2 ≤ i.val % 4)

def Sys2Proof.Claims.etc1Expand5 (n : Int) : Int := 8 * n + n / 4

def Sys2Proof.Claims.etc1Delta (v : Nat) : Int := if v % 8 < 4 then (v % 8 : Nat) else ((v % 8 : Nat) : Int) - 8

def Sys2Proof.Claims.etc1BaseOf (e : Elem) (second : Bool) (v : Nat) : Int :=
  if e[3].toNat / 2 % 2 = 1 then
    if second then Claims.etc1Expand5 (min 31 (max 0 ((v / 8 : Nat) + Claims.etc1Delta v))) else Claims.etc1Expand5 (v / 8 : Nat)
  else
    if second then 17 * (v % 16 : Nat) else 17 * (v / 16 : Nat)

def Sys2Proof.Claims.etc1Small : List Int := [2, 5, 9, 13, 18, 24, 33, 47]

def Sys2Proof.Claims.etc1Large : List Int := [8, 17, 29, 42, 60, 80, 106, 183]

def Sys2Proof.Claims.etc1Modifier (t : Nat) (negative large : Bool) : Int :=
  (if negative then -1 else 1) * (if large then Claims.etc1Large.getD t 0 else Claims.etc1Small.getD t 0)

def Sys2Proof.Claims.etc1Channel (e : Elem) (i : Fin 16) (v : Nat) : Int :=
  let second := Claims.etc1Second e i
  let t := if second then e[3].toNat / 4 % 8 else e[3].toNat / 32
  let n := 4 * (i.val % 4) + i.val / 4
  let negative := (256 * e[4].toNat + e[5].toNat).testBit n
  let large := (256 * e[6].toNat + e[7].toNat).testBit n
  min 255 (max 0 (Claims.etc1BaseOf e second v + Claims.etc1Modifier t negative large))

/-- R87, R88, R89, R170 to R174 (what the spec marks as from general knowledge, 93 G8, G9, G10): an ETC1 pixel, channel by channel, from
the element's bytes, alpha 255; and an element is invalid exactly when it is differential and some sum leaves 0..31. -/
def Obligations.Etc1PixelFromBytes : Prop :=
  (∀ e : Elem, etc1Invalid e = true ↔
    e[3].toNat / 2 % 2 = 1 ∧
      ∃ k : Fin 3, ((e[k.val].toNat / 8 : Nat) : Int) + Claims.etc1Delta e[k.val].toNat < 0 ∨
        31 < ((e[k.val].toNat / 8 : Nat) : Int) + Claims.etc1Delta e[k.val].toNat) ∧
  ∀ (e : Elem) (i : Fin 16),
    ((etc1Px e i).r.toNat : Int) = Claims.etc1Channel e i e[0].toNat ∧
    ((etc1Px e i).g.toNat : Int) = Claims.etc1Channel e i e[1].toNat ∧
    ((etc1Px e i).b.toNat : Int) = Claims.etc1Channel e i e[2].toNat ∧ (etc1Px e i).a = 255

/-- The R, G and B of two quads agree. -/
def Sys2Proof.Claims.sameRgb (p q : Pixel) : Prop := p.r = q.r ∧ p.g = q.g ∧ p.b = q.b

/-- The DXT1 table entry that pixel i of an element selects (R165). -/
def Sys2Proof.Claims.dxt1Entry (e : Elem) (i : Fin 16) : Pixel := (dxt1Table e)[(dxt1Sel e i).toFin]

/-- The DXT5 table entry that pixel i of an element selects (R169). -/
def Sys2Proof.Claims.dxt5Entry (e : Elem) (i : Fin 16) : Byte := (dxt5Table e)[(dxt5Sel e i).toFin]

/-- R165, R166, R169, R176 (decision D31): every channel of every format. DXT1 and DXT1A take R, G, B from element 0's table entry, DXT1
with alpha 255, DXT1A with the entry's own alpha, which is 0 exactly at selector 3 of a cutout element; DXT3 and DXT5 take all of R, G, B
from element 1's entry and alpha from element 0, 17 times the nibble or the DXT5 table entry; DXT5A has R, G, B 0 and that same alpha; ETC1
takes all of R, G, B from `etc1_px`, alpha 255. -/
def Obligations.DecodeByFormat : Prop :=
  ∀ (b : Block) (i : Fin 16),
    (Claims.sameRgb (decodePx .dxt1 b i) (Claims.dxt1Entry (elemOf b 0) i) ∧ (decodePx .dxt1 b i).a = 255) ∧
    (decodePx .dxt1a b i = Claims.dxt1Entry (elemOf b 0) i ∧
      (decodePx .dxt1a b i).a =
        (if (dxt1Low (elemOf b 0)).toNat ≤ (dxt1High (elemOf b 0)).toNat ∧ dxt1Sel (elemOf b 0) i = 3 then 0 else 255)) ∧
    (Claims.sameRgb (decodePx .dxt3 b i) (Claims.dxt1Entry (elemOf b 1) i) ∧
      (decodePx .dxt3 b i).a.toNat = 17 * (dxt3A4 (elemOf b 0) i).toNat) ∧
    (Claims.sameRgb (decodePx .dxt5 b i) (Claims.dxt1Entry (elemOf b 1) i) ∧
      (decodePx .dxt5 b i).a = Claims.dxt5Entry (elemOf b 0) i) ∧
    ((decodePx .dxt5a b i).r = 0 ∧ (decodePx .dxt5a b i).g = 0 ∧ (decodePx .dxt5a b i).b = 0 ∧
      (decodePx .dxt5a b i).a = Claims.dxt5Entry (elemOf b 0) i) ∧
    (Claims.sameRgb (decodePx .etc1 b i) (etc1Px (elemOf b 0) i) ∧ (decodePx .etc1 b i).a = 255) ∧
    (∀ b' : Block, elemOf b' 0 = elemOf b 1 →
      Claims.sameRgb (decodePx .dxt3 b i) (decodePx .dxt1 b' i) ∧ Claims.sameRgb (decodePx .dxt5 b i) (decodePx .dxt1 b' i))

/-- STATUS after a decode that succeeds (R180, R181): OK, and INVBLK for an invalid ETC1 block. -/
def Sys2Proof.Claims.decodeStatus (s : State) : BitVec 5 :=
  if s.fmt.toNat = 6 ∧ etc1Invalid (elemOf s.blk 0) = true then s.status ||| 0b01001 else s.status ||| 0b00001

/-- R180, R181: DEC decodes all sixteen pixels, DECPX one; the others, BLK, ERR and memory are unchanged. -/
def Obligations.DecAndDecpxDecode : Prop :=
  ∀ s : State,
    (¬ Claims.validFormat s → exec .dec s = .next (failed cfgerrBit s) ∧ ∀ n : Fin 16, exec (.decpx n) s = .next (failed cfgerrBit s)) ∧
    (∀ f : BlockFormat, s.fmt = formatCode f →
      (∃ t, exec .dec s = .next t ∧ (∀ i : Fin 16, t.pix[i] = decodePx f s.blk i) ∧ KeepsMemory s t ∧
        t = { s with pix := t.pix, status := Claims.decodeStatus s }) ∧
      (∀ n : Fin 16, ∃ t, exec (.decpx n) s = .next t ∧ t.pix[n] = decodePx f s.blk n ∧
        (∀ i : Fin 16, i ≠ n → t.pix[i] = s.pix[i]) ∧ KeepsMemory s t ∧
        t = { s with pix := t.pix, status := Claims.decodeStatus s }))

/-- R181: DECPX for all sixteen pixels, in any order, leaves what one DEC leaves. -/
def Obligations.DecpxInAnyOrderIsDec : Prop :=
  ∀ (s t : State) (l : List (Fin 16)), Claims.validFormat s → l.Perm (List.finRange 16) → exec .dec s = .next t →
    runCommands (l.map Instr.decpx) s = some t

/-! ### Quantiser -/

/-- R200, R201, R202: the quantiser's formulas (93 G16), placed in the 16-bit endpoint; and, an inference the spec marks as its own
(R201), a colour that is exactly representable quantises to itself. -/
def Obligations.QuantiserIsExact : Prop :=
  (∀ q : Pixel, (quant565 q).toNat =
      2048 * ((31 * q.r.toNat + 127) / 255) + 32 * ((63 * q.g.toNat + 127) / 255) + (31 * q.b.toNat + 127) / 255) ∧
    (∀ a : Byte, (quant4 a).toNat = (15 * a.toNat + 127) / 255) ∧ (∀ n : BitVec 4, quant4 (toByte (expand4 n.toNat)) = n) ∧
    (∀ n : Nat, n < 32 → q5 (toByte (expand5 n)) = n) ∧ (∀ n : Nat, n < 64 → q6 (toByte (expand6 n)) = n) ∧
    ∀ c : BitVec 16, quant565 (unpack565 c) = c

/-- R203, R204, R205: QNT writes one colour endpoint, SETEA one alpha endpoint, ENCA3 sixteen nibbles; nothing else moves. -/
def Obligations.QuantiserCommands : Prop :=
  ∀ s : State,
    (∀ (n : Fin 16) (e : Endpoint), s.fmt.toNat ∉ [1, 2, 3, 4] → exec (.qnt n e) s = .next (failed cfgerrBit s)) ∧
    (∀ (n : Fin 16) (e : Endpoint) (at_ : Nat), s.fmt.toNat ∈ [1, 2, 3, 4] →
      at_ = (if s.fmt.toNat ≤ 2 then 0 else 8) + (if e = .low then 0 else 2) →
      ∃ t, exec (.qnt n e) s = .next t ∧
        (∀ j : Fin 16, t.blk[j] =
          if j.val = at_ then lowByte (quant565 s.pix[n]) else if j.val = at_ + 1 then highByte (quant565 s.pix[n]) else s.blk[j]) ∧
        KeepsMemory s t ∧ t = { s with blk := t.blk, status := okStatus s }) ∧
    (∀ (n : Fin 16) (e : Endpoint), s.fmt.toNat ∉ [4, 5] → exec (.setea n e) s = .next (failed cfgerrBit s)) ∧
    (∀ (n : Fin 16) (e : Endpoint), s.fmt.toNat ∈ [4, 5] →
      ∃ t, exec (.setea n e) s = .next t ∧
        (∀ j : Fin 16, t.blk[j] = if j.val = (if e = .low then 0 else 1) then s.pix[n].a else s.blk[j]) ∧
        KeepsMemory s t ∧ t = { s with blk := t.blk, status := okStatus s }) ∧
    (s.fmt.toNat ≠ 3 → exec .enca3 s = .next (failed cfgerrBit s)) ∧
    (s.fmt.toNat = 3 →
      ∃ t, exec .enca3 s = .next t ∧ (∀ i : Fin 16, dxt3A4 (elemOf t.blk 0) i = quant4 s.pix[i].a) ∧
        (∀ j : Fin 16, 8 ≤ j.val → t.blk[j] = s.blk[j]) ∧ KeepsMemory s t ∧ t = { s with blk := t.blk, status := okStatus s })

/-! ### Selector encoder -/

/-- R206: `nearest` on ascending candidates answers a candidate of least distance, the lowest such, with its distance. -/
def Obligations.NearestIsTheLowestMinimum : Prop :=
  ∀ (n : Nat) (c : BitVec n) (cs : List (BitVec n)) (d : BitVec n → Nat),
    (c :: cs).Pairwise (fun x y => x.toNat < y.toNat) →
    (nearest c cs d).1 ∈ c :: cs ∧ (nearest c cs d).2 = d (nearest c cs d).1 ∧
      ∀ x ∈ c :: cs, d (nearest c cs d).1 ≤ d x ∧ (d x = d (nearest c cs d).1 → (nearest c cs d).1.toNat ≤ x.toNat)

/-- R13: the two metrics, on integers; alpha does not enter; the maximum is 34 * 255^2. -/
def Obligations.WeightedDistance : Prop :=
  ∀ p q : Pixel,
    ((wdist true p q : Nat) : Int) =
      8 * ((p.r.toNat : Int) - q.r.toNat) ^ 2 + 25 * ((p.g.toNat : Int) - q.g.toNat) ^ 2 + ((p.b.toNat : Int) - q.b.toNat) ^ 2 ∧
    ((wdist false p q : Nat) : Int) =
      ((p.r.toNat : Int) - q.r.toNat) ^ 2 + ((p.g.toNat : Int) - q.g.toNat) ^ 2 + ((p.b.toNat : Int) - q.b.toNat) ^ 2 ∧
    ∀ perc : Bool, wdist perc p q ≤ 2210850

/-- R207: a transparent pixel (DXT1A, cutout element, alpha below ATHR) gets selector 3 with error 0; any other pixel gets the lowest
nearest entry, of all four in an opaque element and of the first three in a cutout one. -/
def Obligations.ColourSelectorChoice : Prop :=
  ∀ (f : BlockFormat) (ctrl : BitVec 16) (e : Elem) (q : Pixel) (v : BitVec 2) (d : Nat), selDxt1 f ctrl e q = (v, d) →
    (f = .dxt1a ∧ (dxt1Low e).toNat ≤ (dxt1High e).toNat ∧ q.a.toNat < (ctrl.extractLsb' 8 8).toNat → v = 3 ∧ d = 0) ∧
    (¬ (f = .dxt1a ∧ (dxt1Low e).toNat ≤ (dxt1High e).toNat ∧ q.a.toNat < (ctrl.extractLsb' 8 8).toNat) →
      d = wdist (ctrl.getLsbD 0) q (dxt1Table e)[v.toFin] ∧
      ((dxt1Low e).toNat ≤ (dxt1High e).toNat → v ≠ 3) ∧
      ∀ x : BitVec 2, ((dxt1Low e).toNat ≤ (dxt1High e).toNat → x ≠ 3) →
        d ≤ wdist (ctrl.getLsbD 0) q (dxt1Table e)[x.toFin] ∧
        (wdist (ctrl.getLsbD 0) q (dxt1Table e)[x.toFin] = d → v.toNat ≤ x.toNat))

/-- The sum of an error over the sixteen pixels. -/
def Sys2Proof.Claims.sum16 (d : Fin 16 → Nat) : Nat := ((List.finRange 16).map d).sum

/-- R208: SELC on the formats with a DXT1-layout element: the selectors, ERR as the exact sum, and what is kept. -/
def Obligations.SelcEncodesColour : Prop :=
  ∀ s : State,
    (s.fmt.toNat ∉ [1, 2, 3, 4, 6] → exec .selc s = .next (failed cfgerrBit s)) ∧
    (∀ (f : BlockFormat) (k : Fin 2), s.fmt = formatCode f → f ∈ [.dxt1, .dxt1a, .dxt3, .dxt5] →
      k = (if f = .dxt1 ∨ f = .dxt1a then 0 else 1) →
      ∃ t, exec .selc s = .next t ∧
        (∀ i : Fin 16, dxt1Sel (elemOf t.blk k) i = (selDxt1 f s.ctrl (elemOf s.blk k) s.pix[i]).1) ∧
        t.err.toNat = Claims.sum16 (fun i => (selDxt1 f s.ctrl (elemOf s.blk k) s.pix[i]).2) ∧
        (∀ j : Fin 16, j.val < 8 * k.val + 4 ∨ 8 * k.val + 8 ≤ j.val → t.blk[j] = s.blk[j]) ∧
        KeepsMemory s t ∧ t = { s with blk := t.blk, err := t.err, status := okStatus s })

/-- R208, R209: SELC on ETC1: each raw index is the lowest nearest of the four clamped candidates of its sub-block (R206), ERR is the
exact sum, and the header bytes and INVBLK are kept. -/
def Obligations.SelcEncodesEtc1 : Prop :=
  ∀ s : State, s.fmt = 6 →
    ∃ t, exec .selc s = .next t ∧
      (∀ (i : Fin 16) (v x : BitVec 2), v = etc1Sel (elemOf t.blk 0) i →
        wdist (s.ctrl.getLsbD 0) s.pix[i] (etc1Entry (elemOf s.blk 0) (etc1Sub (elemOf s.blk 0) i) v) ≤
          wdist (s.ctrl.getLsbD 0) s.pix[i] (etc1Entry (elemOf s.blk 0) (etc1Sub (elemOf s.blk 0) i) x) ∧
        (wdist (s.ctrl.getLsbD 0) s.pix[i] (etc1Entry (elemOf s.blk 0) (etc1Sub (elemOf s.blk 0) i) x) =
          wdist (s.ctrl.getLsbD 0) s.pix[i] (etc1Entry (elemOf s.blk 0) (etc1Sub (elemOf s.blk 0) i) v) → v.toNat ≤ x.toNat)) ∧
      t.err.toNat = Claims.sum16 (fun i =>
        wdist (s.ctrl.getLsbD 0) s.pix[i]
          (etc1Entry (elemOf s.blk 0) (etc1Sub (elemOf s.blk 0) i) (etc1Sel (elemOf t.blk 0) i))) ∧
      (∀ j : Fin 16, j.val < 4 ∨ 8 ≤ j.val → t.blk[j] = s.blk[j]) ∧
      KeepsMemory s t ∧ t = { s with blk := t.blk, err := t.err, status := okStatus s }

/-- R210, R212: SELA: each alpha selector is the lowest nearest of all eight table entries, ERR is the exact sum, and only B[2..7] and
ERR move. -/
def Obligations.SelaEncodesAlpha : Prop :=
  ∀ s : State,
    (s.fmt.toNat ∉ [4, 5] → exec .sela s = .next (failed cfgerrBit s)) ∧
    (s.fmt.toNat ∈ [4, 5] →
      ∃ t, exec .sela s = .next t ∧
        (∀ (i : Fin 16) (v x : BitVec 3), v = dxt5Sel (elemOf t.blk 0) i →
          sqDiff s.pix[i].a (dxt5Table (elemOf s.blk 0))[v.toFin] ≤ sqDiff s.pix[i].a (dxt5Table (elemOf s.blk 0))[x.toFin] ∧
          (sqDiff s.pix[i].a (dxt5Table (elemOf s.blk 0))[x.toFin] = sqDiff s.pix[i].a (dxt5Table (elemOf s.blk 0))[v.toFin] →
            v.toNat ≤ x.toNat)) ∧
        t.err.toNat = Claims.sum16 (fun i => sqDiff s.pix[i].a (dxt5Table (elemOf s.blk 0))[(dxt5Sel (elemOf t.blk 0) i).toFin]) ∧
        (∀ j : Fin 16, j.val < 2 ∨ 8 ≤ j.val → t.blk[j] = s.blk[j]) ∧
        KeepsMemory s t ∧ t = { s with blk := t.blk, err := t.err, status := okStatus s })

/-- What SETPX leaves in each element, and its error (R214). -/
def Sys2Proof.Claims.setpxColour (f : BlockFormat) (k : Fin 2) (n : Fin 16) (s t : State) : Prop :=
  (∀ i : Fin 16, dxt1Sel (elemOf t.blk k) i =
      if i = n then (selDxt1 f s.ctrl (elemOf s.blk k) s.pix[n]).1 else dxt1Sel (elemOf s.blk k) i) ∧
    dxt1Low (elemOf t.blk k) = dxt1Low (elemOf s.blk k) ∧ dxt1High (elemOf t.blk k) = dxt1High (elemOf s.blk k)

def Sys2Proof.Claims.setpxAlpha (n : Fin 16) (s t : State) : Prop :=
  (∀ i : Fin 16, dxt5Sel (elemOf t.blk 0) i =
      if i = n then (selDxt5 (elemOf s.blk 0) s.pix[n].a).1 else dxt5Sel (elemOf s.blk 0) i) ∧
    dxt5Low (elemOf t.blk 0) = dxt5Low (elemOf s.blk 0) ∧ dxt5High (elemOf t.blk 0) = dxt5High (elemOf s.blk 0)

/-- R213, R214: SETPX changes pixel n's selector in each element and ERR; endpoints and the other fifteen selectors are kept. -/
def Obligations.SetpxSetsOneSelector : Prop :=
  ∀ (s : State) (n : Fin 16),
    (¬ Claims.validFormat s → exec (.setpx n) s = .next (failed cfgerrBit s)) ∧
    (Claims.validFormat s → ∃ t, exec (.setpx n) s = .next t ∧ KeepsMemory s t ∧
      t = { s with blk := t.blk, err := t.err, status := okStatus s } ∧
      (s.fmt.toNat = 1 ∨ s.fmt.toNat = 2 → elemOf t.blk 1 = elemOf s.blk 1 ∧
        ∀ f : BlockFormat, s.fmt = formatCode f → Claims.setpxColour f 0 n s t ∧
          t.err.toNat = (selDxt1 f s.ctrl (elemOf s.blk 0) s.pix[n]).2) ∧
      (s.fmt.toNat = 3 → Claims.setpxColour .dxt3 1 n s t ∧
        (∀ i : Fin 16, dxt3A4 (elemOf t.blk 0) i = if i = n then quant4 s.pix[n].a else dxt3A4 (elemOf s.blk 0) i) ∧
        t.err.toNat = (selDxt1 .dxt3 s.ctrl (elemOf s.blk 1) s.pix[n]).2 +
          (((s.pix[n].a.toNat : Int) - 17 * (quant4 s.pix[n].a).toNat) ^ 2).toNat) ∧
      (s.fmt.toNat = 4 → Claims.setpxColour .dxt5 1 n s t ∧ Claims.setpxAlpha n s t ∧
        t.err.toNat = (selDxt1 .dxt5 s.ctrl (elemOf s.blk 1) s.pix[n]).2 + (selDxt5 (elemOf s.blk 0) s.pix[n].a).2) ∧
      (s.fmt.toNat = 5 → elemOf t.blk 1 = elemOf s.blk 1 ∧ Claims.setpxAlpha n s t ∧
        t.err.toNat = (selDxt5 (elemOf s.blk 0) s.pix[n].a).2) ∧
      (s.fmt.toNat = 6 → elemOf t.blk 1 = elemOf s.blk 1 ∧
        (∀ i : Fin 16, etc1Sel (elemOf t.blk 0) i =
          if i = n then (selEtc1 s.ctrl (elemOf s.blk 0) (etc1Sub (elemOf s.blk 0) n) s.pix[n]).1 else etc1Sel (elemOf s.blk 0) i) ∧
        (∀ j : Fin 16, j.val < 4 → t.blk[j] = s.blk[j]) ∧
        t.err.toNat = (selEtc1 s.ctrl (elemOf s.blk 0) (etc1Sub (elemOf s.blk 0) n) s.pix[n]).2))

/-- The whole-block encoders of a format (R214): SELC, with SELA or ENCA3 where the format has an alpha element. -/
def Sys2Proof.Claims.wholeBlockEncoders : BlockFormat → List Instr
  | .dxt1 => [.selc]
  | .dxt1a => [.selc]
  | .dxt3 => [.selc, .enca3]
  | .dxt5 => [.selc, .sela]
  | .dxt5a => [.sela]
  | .etc1 => [.selc]

/-- The sentence of R214 that the spec marks as its own inference, from R207 to R211: SETPX for all sixteen pixels, in any order, leaves
the BLK the whole-block encoders leave. -/
def Obligations.SetpxInAnyOrderIsWholeBlockEncoding : Prop :=
  ∀ (s : State) (f : BlockFormat) (l : List (Fin 16)), s.fmt = formatCode f → l.Perm (List.finRange 16) →
    ∃ t u, runCommands (l.map Instr.setpx) s = some t ∧ runCommands (Claims.wholeBlockEncoders f) s = some u ∧ t.blk = u.blk

/-- R220 (a), an inference the spec marks as its own: a block of one colour, quantised to both endpoints and encoded as DXT1, decodes everywhere to that colour's 565 image, with
selectors 0 and ERR 16 times the distance to it. -/
def Obligations.SolidBlockEncodesExactly : Prop :=
  ∀ (s : State) (c : Pixel), s.fmt = 1 → (∀ i : Fin 16, s.pix[i] = c) →
    ∃ t u, runCommands [.qnt 0 .low, .qnt 0 .high, .selc] s = some t ∧ exec .dec t = .next u ∧
      dxt1Low (elemOf t.blk 0) = quant565 c ∧ dxt1High (elemOf t.blk 0) = quant565 c ∧
      (∀ i : Fin 16, dxt1Sel (elemOf t.blk 0) i = 0) ∧
      t.err.toNat = 16 * wdist (s.ctrl.getLsbD 0) c (unpack565 (quant565 c)) ∧
      (∀ i : Fin 16, u.pix[i] = unpack565 (quant565 c))

/-! ### Canonicaliser -/

/-- R215, R216, R218 (inferences the spec marks as its own, from R162, R164, R167, R168): exchanging the endpoints and mapping the selector through the inversion table names the same value. -/
def Obligations.InversionTablesKeepValues : Prop :=
  (∀ (l h : BitVec 16) (v : BitVec 2),
      (fourColourTable h l)[(inv4 v).toFin] = (fourColourTable l h)[v.toFin] ∧
      (threeColourTable h l)[(inv3 v).toFin] = (threeColourTable l h)[v.toFin]) ∧
    (∀ (l h : Byte) (v : BitVec 3),
      (eightLevelTable h l)[(inv8 v).toFin] = (eightLevelTable l h)[v.toFin] ∧
      (sixLevelTable h l)[(inv6 v).toFin] = (sixLevelTable l h)[v.toFin])

/-- R217: CANON: the order it leaves, what it does to the selectors in each case, what it keeps, and that it is idempotent. -/
def Obligations.CanonOrdersEndpoints : Prop :=
  ∀ (mode : ColourScheme) (s : State),
    (s.fmt.toNat ∉ [1, 2, 3, 4] → exec (.canon mode) s = .next (failed cfgerrBit s)) ∧
    (∀ (k : Fin 2) (l h : BitVec 16), s.fmt.toNat ∈ [1, 2, 3, 4] → k = (if s.fmt.toNat ≤ 2 then 0 else 1) →
      l = dxt1Low (elemOf s.blk k) → h = dxt1High (elemOf s.blk k) →
      ∃ t e, exec (.canon mode) s = .next t ∧ e = elemOf t.blk k ∧
        (mode = .fourColour → (dxt1High e).toNat ≤ (dxt1Low e).toNat) ∧
        (mode = .threeColour → (dxt1Low e).toNat ≤ (dxt1High e).toNat) ∧
        (mode = .fourColour ∧ l.toNat < h.toNat → dxt1Low e = h ∧ dxt1High e = l ∧
          ∀ i : Fin 16, dxt1Sel e i = inv4 (dxt1Sel (elemOf s.blk k) i)) ∧
        (mode = .fourColour ∧ l = h → dxt1Low e = l ∧ dxt1High e = h ∧ ∀ i : Fin 16, dxt1Sel e i = 0) ∧
        (mode = .threeColour ∧ h.toNat < l.toNat → dxt1Low e = h ∧ dxt1High e = l ∧
          ∀ i : Fin 16, dxt1Sel e i = inv3 (dxt1Sel (elemOf s.blk k) i)) ∧
        (mode = .fourColour ∧ h.toNat < l.toNat ∨ mode = .threeColour ∧ l.toNat ≤ h.toNat → t.blk = s.blk) ∧
        (∀ k' : Fin 2, k' ≠ k → elemOf t.blk k' = elemOf s.blk k') ∧
        KeepsMemory s t ∧ t = { s with blk := t.blk, status := okStatus s } ∧ exec (.canon mode) t = .next t)

/-- R219: CANONA: the order it leaves, what it does to the selectors in each case, what it keeps, and that it is idempotent. -/
def Obligations.CanonaOrdersEndpoints : Prop :=
  ∀ (mode : AlphaScheme) (s : State),
    (s.fmt.toNat ∉ [4, 5] → exec (.canona mode) s = .next (failed cfgerrBit s)) ∧
    (∀ l h : Byte, s.fmt.toNat ∈ [4, 5] → l = s.blk[0] → h = s.blk[1] →
      ∃ t e, exec (.canona mode) s = .next t ∧ e = elemOf t.blk 0 ∧
        (mode = .eightLevel → (dxt5High e).toNat ≤ (dxt5Low e).toNat) ∧
        (mode = .sixLevel → (dxt5Low e).toNat ≤ (dxt5High e).toNat) ∧
        (mode = .eightLevel ∧ l.toNat < h.toNat → dxt5Low e = h ∧ dxt5High e = l ∧
          ∀ i : Fin 16, dxt5Sel e i = inv8 (dxt5Sel (elemOf s.blk 0) i)) ∧
        (mode = .eightLevel ∧ l = h → dxt5Low e = l ∧ dxt5High e = h ∧ ∀ i : Fin 16, dxt5Sel e i = 0) ∧
        (mode = .sixLevel ∧ h.toNat < l.toNat → dxt5Low e = h ∧ dxt5High e = l ∧
          ∀ i : Fin 16, dxt5Sel e i = inv6 (dxt5Sel (elemOf s.blk 0) i)) ∧
        (mode = .eightLevel ∧ h.toNat < l.toNat ∨ mode = .sixLevel ∧ l.toNat ≤ h.toNat → t.blk = s.blk) ∧
        elemOf t.blk 1 = elemOf s.blk 1 ∧ KeepsMemory s t ∧ t = { s with blk := t.blk, status := okStatus s } ∧
        exec (.canona mode) t = .next t)

/-- What R217 draws from R216 (an inference the spec marks as its own): where the endpoints differ and the element is already in, or is put into, the intended order, DEC of a DXT1 block
after CANON 0 gives every pixel its colour under the 4-colour formula of the endpoints as they stood before. -/
def Obligations.CanonKeepsIntendedColours : Prop :=
  ∀ (s t u : State), s.fmt = 1 → dxt1Low (elemOf s.blk 0) ≠ dxt1High (elemOf s.blk 0) →
    exec (.canon .fourColour) s = .next t → exec .dec t = .next u →
    ∀ i : Fin 16, u.pix[i] =
      (fourColourTable (dxt1Low (elemOf s.blk 0)) (dxt1High (elemOf s.blk 0)))[(dxt1Sel (elemOf s.blk 0) i).toFin]

/-! ### Flips -/

/-- FLIPX and FLIPY as commands with their pixel permutations on (x, y): left-right and top-bottom (R240). -/
def Sys2Proof.Claims.flipSource (vertical : Bool) (i : Fin 16) : Fin 16 :=
  if vertical then ⟨4 * (3 - i.val / 4) + i.val % 4, by omega⟩ else ⟨4 * (i.val / 4) + (3 - i.val % 4), by omega⟩

def Sys2Proof.Claims.flipCommand (vertical : Bool) : Instr := if vertical then .flipy else .flipx

/-- R242, R243, R244: with no format a flip fails with CFGERR, on ETC1 with GEOM whatever the block holds; otherwise it permutes every
per-pixel field of each element the format has, keeps every endpoint, and moves nothing else. -/
def Obligations.FlipsPermuteSelectors : Prop :=
  ∀ (vertical : Bool) (s : State),
    (¬ Claims.validFormat s → exec (Claims.flipCommand vertical) s = .next (failed cfgerrBit s)) ∧
    (s.fmt.toNat = 6 → exec (Claims.flipCommand vertical) s = .next (failed geomBit s)) ∧
    (1 ≤ s.fmt.toNat → s.fmt.toNat ≤ 5 → ∃ t, exec (Claims.flipCommand vertical) s = .next t ∧ KeepsMemory s t ∧ t = { s with blk := t.blk, status := okStatus s } ∧
      (∀ k : Fin 2, s.fmt.toNat ∈ [1, 2] ∧ k = 0 ∨ s.fmt.toNat ∈ [3, 4] ∧ k = 1 →
        dxt1Low (elemOf t.blk k) = dxt1Low (elemOf s.blk k) ∧ dxt1High (elemOf t.blk k) = dxt1High (elemOf s.blk k) ∧
        ∀ i : Fin 16, dxt1Sel (elemOf t.blk k) i = dxt1Sel (elemOf s.blk k) (Claims.flipSource vertical i)) ∧
      (s.fmt.toNat = 3 →
        ∀ i : Fin 16, dxt3A4 (elemOf t.blk 0) i = dxt3A4 (elemOf s.blk 0) (Claims.flipSource vertical i)) ∧
      (s.fmt.toNat ∈ [4, 5] →
        dxt5Low (elemOf t.blk 0) = dxt5Low (elemOf s.blk 0) ∧ dxt5High (elemOf t.blk 0) = dxt5High (elemOf s.blk 0) ∧
        ∀ i : Fin 16, dxt5Sel (elemOf t.blk 0) i = dxt5Sel (elemOf s.blk 0) (Claims.flipSource vertical i)) ∧
      (s.fmt.toNat ∈ [1, 2, 5] → elemOf t.blk 1 = elemOf s.blk 1))

/-- The last sentence of R241, an inference the spec marks as its own: the reflection is lossless: decoding the flipped block gives each pixel the colour of its mirror image. -/
def Obligations.FlipsAreLossless : Prop :=
  ∀ (vertical : Bool) (s t u v : State), 1 ≤ s.fmt.toNat → s.fmt.toNat ≤ 5 → exec (Claims.flipCommand vertical) s = .next t →
    exec .dec t = .next u → exec .dec s = .next v → ∀ i : Fin 16, u.pix[i] = v.pix[Claims.flipSource vertical i]

/-- R245, an inference the spec marks as its own: two equal flips restore BLK bit for bit, and the two flips commute. -/
def Obligations.FlipsAreInvolutionsAndCommute : Prop :=
  ∀ s : State, 1 ≤ s.fmt.toNat → s.fmt.toNat ≤ 5 →
    (∀ vertical : Bool, ∃ t, runCommands [Claims.flipCommand vertical, Claims.flipCommand vertical] s = some t ∧ t.blk = s.blk) ∧
      runCommands [.flipx, .flipy] s = runCommands [.flipy, .flipx] s

/-! ### Pseudo-instructions and helpers -/

/-- R76: LI on BPTR or PPTR expands to two legal commands, WRCR with bits 15:0 and then WRCRH with bits 31:16; running them leaves all
32 bits in the pointer register, whatever it held, and moves nothing else. -/
def Obligations.LiLoadsThePointer : Prop :=
  ∀ (v : Word) (s : State),
    (∃ is, expandLi .bptr v = some is ∧ is = [.wrcr .bptr (v.extractLsb' 0 16), .wrcrh .bptr (v.extractLsb' 16 16)] ∧
      (∀ i ∈ is, i.wellFormed = true) ∧ runCommands is s = some { s with bptr := v, status := okStatus s }) ∧
    (∃ is, expandLi .pptr v = some is ∧ is = [.wrcr .pptr (v.extractLsb' 0 16), .wrcrh .pptr (v.extractLsb' 16 16)] ∧
      (∀ i ∈ is, i.wellFormed = true) ∧ runCommands is s = some { s with pptr := v, status := okStatus s })

/-- R140, R141: the expansion of PKSPEC or PKINIT is ten legal commands that all succeed and leave the packer registers as the layout
says and CTRL with YMODE from the layout; and the two layouts the source names are what R140 says. -/
def Obligations.PackerPseudosConfigure : Prop :=
  (∀ (text : List Char) (base : BitVec 16) (is : List Instr) (s : State), expandPkspec text base = some is →
      is.length = 10 ∧ (∀ i ∈ is, i.wellFormed = true) ∧ runSucceeds is s = true ∧
      ∃ l t, specLayout text = some l ∧ runCommands is s = some t ∧
        (∀ c : Fin 4, t.pkSize[c].toNat = l.size[c] ∧ t.pkOfs[c].toNat = l.ofs[c]) ∧ t.pkStride.toNat = l.stride ∧
        t.ctrl = (base &&& 0xFF03) ||| (if l.ymode then 4 else 0)) ∧
    (∀ (n bits stride reversed : Nat) (base : BitVec 16) (is : List Instr) (s : State),
      expandPkinit n bits stride reversed base = some is →
      is.length = 10 ∧ (∀ i ∈ is, i.wellFormed = true) ∧ runSucceeds is s = true ∧
      ∃ t, runCommands is s = some t ∧ t.pkStride.toNat = stride ∧ t.ctrl = base &&& 0xFF03 ∧
        ∀ c : Fin 4, t.pkSize[c].toNat = (if c.val < n then bits else 0) ∧
          t.pkOfs[c].toNat = (if c.val < n then (if reversed = 1 then (n - 1 - c.val) * bits else c.val * bits) else 0)) ∧
    specLayout ['R', '8', 'G', '8', 'B', '8', 'A', '8'] = some ⟨#v[8, 8, 8, 8], #v[0, 8, 16, 24], 4, false⟩ ∧
    specLayout ['B', '5', 'G', '6', 'R', '5'] = some ⟨#v[5, 6, 5, 0], #v[11, 5, 0, 0], 2, false⟩

/-- R10, R11: the luma is the rounded weighted sum, in range, and a grey is its own luma; rescale keeps the end points of its range. -/
def Obligations.LumaAndRescale : Prop :=
  (∀ q : Pixel, (luma q).toNat = (19595 * q.r.toNat + 38470 * q.g.toNat + 7471 * q.b.toNat + 32768) / 65536) ∧
    (∀ v a : Byte, luma ⟨v, v, v, a⟩ = v) ∧
    (∀ n fromMax toMax : Nat, 1 ≤ fromMax → n ≤ fromMax →
      rescale n fromMax toMax = (n * toMax + fromMax / 2) / fromMax ∧ rescale 0 fromMax toMax = 0 ∧
      rescale fromMax fromMax toMax = toMax ∧ rescale n fromMax toMax ≤ toMax)

/-- R80, R84, R85, R176's E0 and E1: the elements of a block and the fields of an element, from the bytes: DXT1 endpoints little-endian
and two-bit selectors, row y in byte 4+y, low bits first; DXT3 nibbles, the low nibble first (93 G6, log entry 11); DXT5 endpoints,
and three-bit selectors packed low bit first across bytes 2 to 7. -/
def Obligations.ElementFieldsFromBytes : Prop :=
  (∀ (b : Block) (k : Fin 2) (j : Fin 8) (n : Fin 16), n.val = 8 * k.val + j.val → (elemOf b k)[j] = b[n]) ∧
    ∀ (e : Elem) (i : Fin 16),
      (dxt1Low e).toNat = e[0].toNat + 256 * e[1].toNat ∧ (dxt1High e).toNat = e[2].toNat + 256 * e[3].toNat ∧
      (∀ j : Fin 8, j.val = 4 + i.val / 4 → (dxt1Sel e i).toNat = e[j].toNat / 4 ^ (i.val % 4) % 4) ∧
      (∀ j : Fin 8, j.val = i.val / 2 → (dxt3A4 e i).toNat = e[j].toNat / 16 ^ (i.val % 2) % 16) ∧
      dxt5Low e = e[0] ∧ dxt5High e = e[1] ∧
      (∀ (n : Nat) (j : Fin 8), n < 3 → j.val = 2 + (3 * i.val + n) / 8 →
        (dxt5Sel e i).getLsbD n = e[j].getLsbD ((3 * i.val + n) % 8))
end

