-- ==== Sys2Proof/Laws/Encoding.lean ====
section
/-! SUPPORT. A command word and its three fields (spec/30_encoding.md R70): one determines the other; the operand fields one by one. -/

namespace Sys2Proof

@[simp] theorem opField_packWord (op f1 : BitVec 8) (imm : BitVec 16) : opField (packWord op f1 imm) = op := by
  apply BitVec.eq_of_getLsbD_eq
  intro i hi
  simp only [opField, packWord, BitVec.getLsbD_extractLsb', BitVec.getLsbD_append, hi, decide_true, Bool.true_and]
  rw [if_neg (by omega), if_neg (by omega), show 24 + i - 16 - 8 = i by omega]

@[simp] theorem f1Field_packWord (op f1 : BitVec 8) (imm : BitVec 16) : f1Field (packWord op f1 imm) = f1 := by
  apply BitVec.eq_of_getLsbD_eq
  intro i hi
  simp only [f1Field, packWord, BitVec.getLsbD_extractLsb', BitVec.getLsbD_append, hi, decide_true, Bool.true_and]
  rw [if_neg (by omega), if_pos (by omega), show 16 + i - 16 = i by omega]

@[simp] theorem immField_packWord (op f1 : BitVec 8) (imm : BitVec 16) : immField (packWord op f1 imm) = imm := by
  apply BitVec.eq_of_getLsbD_eq
  intro i hi
  simp only [immField, packWord, BitVec.getLsbD_extractLsb', BitVec.getLsbD_append, hi, decide_true, Bool.true_and]
  rw [if_pos (by omega), Nat.zero_add]

/-- A word is its fields. -/
theorem packWord_fields (w : Word) : packWord (opField w) (f1Field w) (immField w) = w := by
  simp only [packWord, opField, f1Field, immField]
  rw [BitVec.extractLsb'_append_extractLsb'_eq_extractLsb' (by omega),
    BitVec.extractLsb'_append_extractLsb'_eq_extractLsb' (by omega)]
  exact BitVec.extractLsb'_eq_self

/-- The number of a register names it, and a number names at most one register. -/
@[simp] theorem ctrlRegOf_number (cr : CtrlReg) : ctrlRegOf cr.number = some cr := by
  cases cr with
  | pkSize c => revert c; decide
  | pkOfs c => revert c; decide
  | _ => rfl

theorem number_of_ctrlRegOf {n : BitVec 8} {cr : CtrlReg} (h : ctrlRegOf n = some cr) : cr.number = n := by
  have hall : ∀ m : BitVec 8, ∀ c ∈ ctrlRegOf m, c.number = m := by decide
  exact hall n cr h

@[simp] theorem indexOfField_ofNat (i : Fin 16) : indexOfField (BitVec.ofNat 8 i.val) = some i := by
  revert i; decide

theorem field_of_indexOfField {f1 : BitVec 8} {i : Fin 16} (h : indexOfField f1 = some i) : BitVec.ofNat 8 i.val = f1 := by
  unfold indexOfField at h
  split at h
  · cases h
    exact BitVec.ofNat_toNat _ _
  · cases h

@[simp] theorem countOfField_ofNat (n : Fin 32) : countOfField (BitVec.ofNat 16 n.val) = some n := by
  revert n; decide

theorem field_of_countOfField {imm : BitVec 16} {n : Fin 32} (h : countOfField imm = some n) : BitVec.ofNat 16 n.val = imm := by
  unfold countOfField at h
  split at h
  · cases h
    exact BitVec.ofNat_toNat _ _
  · cases h

@[simp] theorem maskOfField_ofNat (m : BitVec 4) : maskOfField (BitVec.ofNat 16 (2 * m.toNat)) = some m := by
  revert m; decide

theorem field_of_maskOfField {imm : BitVec 16} {m : BitVec 4} (h : maskOfField imm = some m) :
    BitVec.ofNat 16 (2 * m.toNat) = imm := by
  unfold maskOfField at h
  split at h
  · cases h
    apply BitVec.eq_of_toNat_eq
    simp only [BitVec.toNat_ofNat]
    omega
  · cases h

theorem field_of_endpoint {imm : BitVec 16} {e : Endpoint} (h : endpointOfField imm = some e) : e.bits = imm := by
  unfold endpointOfField at h
  split at h <;> cases h <;> exact BitVec.eq_of_toNat_eq (Eq.symm (by assumption))

theorem field_of_colourScheme {imm : BitVec 16} {m : ColourScheme} (h : colourSchemeOfField imm = some m) : m.bits = imm := by
  unfold colourSchemeOfField at h
  split at h <;> cases h <;> exact BitVec.eq_of_toNat_eq (Eq.symm (by assumption))

theorem field_of_alphaScheme {imm : BitVec 16} {m : AlphaScheme} (h : alphaSchemeOfField imm = some m) : m.bits = imm := by
  unfold alphaSchemeOfField at h
  split at h <;> cases h <;> exact BitVec.eq_of_toNat_eq (Eq.symm (by assumption))

end Sys2Proof
end

