-- ==== Sys2Proof/Laws/Memory.lean ====
section
/-! SUPPORT. The laws of the byte memory: every operation keeps the canonical form, and a read after a write. -/

namespace Sys2Proof.Machine

theorem Memory.wfFrom_cons {lo k : Nat} {c : Byte} {m : Memory} :
    Memory.wfFrom lo ((k, c) :: m) = true ↔ lo ≤ k ∧ k < 2 ^ 32 ∧ c ≠ Memory.unlisted ∧ Memory.wfFrom (k + 1) m = true := by
  simp [Memory.wfFrom, and_assoc]

theorem Memory.wfFrom_mono {lo lo' : Nat} {m : Memory} (h : lo' ≤ lo) (hm : Memory.wfFrom lo m = true) :
    Memory.wfFrom lo' m = true := by
  cases m with
  | nil => rfl
  | cons x m =>
    obtain ⟨k, c⟩ := x
    rw [Memory.wfFrom_cons] at hm ⊢
    exact ⟨h.trans hm.1, hm.2⟩

/-- Below the first key nothing is listed. -/
theorem Memory.readAt_below {lo a : Nat} {m : Memory} (hm : Memory.wfFrom lo m = true) (ha : a < lo) :
    Memory.readAt m a = Memory.unlisted := by
  induction m generalizing lo with
  | nil => rfl
  | cons x m ih =>
    obtain ⟨k, c⟩ := x
    rw [Memory.wfFrom_cons] at hm
    simp only [Memory.readAt]
    rw [if_neg (by omega), ih hm.2.2.2 (by omega)]

theorem Memory.writeAt_wfFrom {lo a : Nat} {b : Byte} {m : Memory} (hm : Memory.wfFrom lo m = true) (hlo : lo ≤ a)
    (ha : a < 2 ^ 32) : Memory.wfFrom lo (Memory.writeAt m a b) = true := by
  induction m generalizing lo with
  | nil =>
    simp only [Memory.writeAt]
    split
    · rfl
    · rw [Memory.wfFrom_cons]; exact ⟨hlo, ha, ‹_›, rfl⟩
  | cons x m ih =>
    obtain ⟨k, c⟩ := x
    have hx := hm
    rw [Memory.wfFrom_cons] at hm
    obtain ⟨h1, h2, h3, h4⟩ := hm
    simp only [Memory.writeAt]
    split
    · split
      · exact hx
      · rw [Memory.wfFrom_cons, Memory.wfFrom_cons]; exact ⟨hlo, ha, ‹_›, by omega, h2, h3, h4⟩
    · split
      · subst a
        split
        · exact Memory.wfFrom_mono (by omega) h4
        · rw [Memory.wfFrom_cons]; exact ⟨h1, h2, ‹_›, h4⟩
      · rw [Memory.wfFrom_cons]; exact ⟨h1, h2, h3, ih h4 (by omega)⟩

theorem Memory.readAt_writeAt {lo a : Nat} {b : Byte} {m : Memory} (hm : Memory.wfFrom lo m = true) (x : Nat) :
    Memory.readAt (Memory.writeAt m a b) x = if x = a then b else Memory.readAt m x := by
  induction m generalizing lo with
  | nil =>
    by_cases hb : b = Memory.unlisted <;> by_cases hx : x = a <;>
      simp [Memory.writeAt, Memory.readAt, hb, hx, eq_comm]
    omega
  | cons y m ih =>
    obtain ⟨k, c⟩ := y
    rw [Memory.wfFrom_cons] at hm
    obtain ⟨h1, h2, h3, h4⟩ := hm
    have hbelow : ∀ z, z ≤ k → Memory.readAt m z = Memory.unlisted := fun z hz => Memory.readAt_below h4 (by omega)
    simp only [Memory.writeAt]
    by_cases hak : a < k
    · by_cases hb : b = Memory.unlisted <;> by_cases hx : x = a
      · subst hx hb
        simp [Memory.readAt, hak, hbelow x (by omega)]
        omega
      · simp [Memory.readAt, hak, hb, hx]
      · simp [Memory.readAt, hak, hb, hx]
      · simp [Memory.readAt, hak, hb, hx, Ne.symm hx]
    · by_cases hak' : a = k
      · subst hak'
        by_cases hb : b = Memory.unlisted <;> by_cases hx : x = a
        · subst hx hb; simp [hbelow x le_rfl]
        · simp [Memory.readAt, hb, hx, Ne.symm hx]
        · simp [Memory.readAt, hb, hx]
        · simp [Memory.readAt, hb, hx, Ne.symm hx]
      · rw [if_neg hak, if_neg hak']
        simp only [Memory.readAt, ih h4]
        by_cases hx : x = a
        · subst hx; simp [Ne.symm hak']
        · simp [hx]

/-- A write keeps the canonical form. -/
theorem Memory.write_wf {m : Memory} (hm : Memory.wf m = true) (a : Addr) (b : Byte) :
    Memory.wf (Memory.write m a b) = true :=
  Memory.writeAt_wfFrom hm (Nat.zero_le _) a.isLt

/-- A read after a write: the byte written, or the byte that was there. -/
theorem Memory.read_write {m : Memory} (hm : Memory.wf m = true) (a x : Addr) (b : Byte) :
    Memory.read (Memory.write m a b) x = if x = a then b else Memory.read m x := by
  simp only [Memory.read, Memory.write, Memory.readAt_writeAt hm, BitVec.toNat_inj]

/-- A multi-byte write keeps the canonical form. -/
theorem Memory.writeBytes_wf {m : Memory} (hm : Memory.wf m = true) (a : Addr) (bs : List Byte) :
    Memory.wf (Memory.writeBytes m a bs) = true := by
  induction bs generalizing m a with
  | nil => exact hm
  | cons b bs ih => exact ih (Memory.write_wf hm a b) _

/-- A fold of operations that keep the canonical form keeps it. -/
theorem Memory.foldl_wf {α : Type} (f : Memory → α → Memory) (hf : ∀ m x, Memory.wf m = true → Memory.wf (f m x) = true)
    {m : Memory} (hm : Memory.wf m = true) (l : List α) : Memory.wf (l.foldl f m) = true := by
  induction l generalizing m with
  | nil => exact hm
  | cons x l ih => exact ih (hf m x hm)

/-- A bit of memory that no write of a sequence covers is kept. `cov` says which writes cover it, `get` reads it. -/
theorem Memory.foldl_uncovered {ι : Type} (W : Memory → ι → Memory) (cov : ι → Prop) [DecidablePred cov] (val : ι → Bool)
    (get : Memory → Bool)
    (hW : ∀ m i, Memory.wf m = true → Memory.wf (W m i) = true ∧ get (W m i) = if cov i then val i else get m)
    (l : List ι) (h : ∀ i ∈ l, ¬ cov i) {m : Memory} (hm : Memory.wf m = true) : get (l.foldl W m) = get m := by
  induction l generalizing m with
  | nil => rfl
  | cons x l ih =>
    rw [List.foldl_cons, ih (fun i hi => h i (by simp [hi])) (hW m x hm).1, (hW m x hm).2, if_neg (h x (by simp))]

/-- A bit of memory holds what the last covering write of a sequence put there; `R` is the order of the sequence. -/
theorem Memory.foldl_last_cover {ι : Type} (W : Memory → ι → Memory) (cov : ι → Prop) [DecidablePred cov] (val : ι → Bool)
    (get : Memory → Bool)
    (hW : ∀ m i, Memory.wf m = true → Memory.wf (W m i) = true ∧ get (W m i) = if cov i then val i else get m)
    (R : ι → ι → Prop) (l : List ι) (hl : l.Pairwise R) (i : ι) (hi : i ∈ l) (hc : cov i) (h : ∀ j ∈ l, R i j → ¬ cov j)
    {m : Memory} (hm : Memory.wf m = true) : get (l.foldl W m) = val i := by
  induction l generalizing m with
  | nil => simp at hi
  | cons x l ih =>
    rw [List.pairwise_cons] at hl
    rw [List.foldl_cons]
    by_cases hil : i ∈ l
    · exact ih hl.2 hil (fun j hj => h j (by simp [hj])) (hW m x hm).1
    · have hx : i = x := by simpa [hil] using hi
      subst hx
      rw [Memory.foldl_uncovered W cov val get hW l (fun j hj => h j (by simp [hj]) (hl.1 j hj)) (hW m i hm).1, (hW m i hm).2,
        if_pos hc]

/-- The empty memory is canonical. -/
theorem Memory.wf_nil : Memory.wf [] = true := rfl

/-- The address k bytes on: 0 is the address itself, and steps add. -/
@[simp] theorem addrPlus_zero (a : Addr) : addrPlus a 0 = a := by simp [addrPlus]

theorem addrPlus_addrPlus (a : Addr) (i j : Nat) : addrPlus (addrPlus a i) j = addrPlus a (i + j) := by
  simp [addrPlus, BitVec.ofNat_add, BitVec.add_assoc]

theorem addrPlus_inj {a : Addr} {i j : Nat} (hi : i < 2 ^ 32) (hj : j < 2 ^ 32) : addrPlus a i = addrPlus a j ↔ i = j := by
  simp only [addrPlus, BitVec.add_right_inj]
  constructor
  · intro h
    have := congrArg BitVec.toNat h
    simp only [BitVec.toNat_ofNat] at this
    omega
  · rintro rfl; rfl

/-- A read after a multi-byte write that does not wrap round onto itself. -/
theorem Memory.read_writeBytes {m : Memory} (hm : Memory.wf m = true) (a x : Addr) (bs : List Byte)
    (hlen : bs.length ≤ 2 ^ 32) :
    (∀ k (hk : k < bs.length), x = addrPlus a k → Memory.read (Memory.writeBytes m a bs) x = bs[k]) ∧
    ((∀ k, k < bs.length → x ≠ addrPlus a k) → Memory.read (Memory.writeBytes m a bs) x = Memory.read m x) := by
  induction bs generalizing m a with
  | nil => exact ⟨fun k hk => absurd hk (by simp), fun _ => rfl⟩
  | cons b bs ih =>
    have hlen' : bs.length + 1 ≤ 2 ^ 32 := by simpa using hlen
    obtain ⟨ih1, ih2⟩ := ih (Memory.write_wf hm a b) (addrPlus a 1) (by omega)
    refine ⟨?_, ?_⟩
    · intro k hk hx
      cases k with
      | zero =>
        simp only [addrPlus_zero] at hx
        subst hx
        rw [Memory.writeBytes, ih2, Memory.read_write hm, if_pos rfl]
        · rfl
        · intro j hj h
          rw [addrPlus_addrPlus] at h
          have h0 : addrPlus x 0 = addrPlus x (1 + j) := by rw [addrPlus_zero]; exact h
          rw [addrPlus_inj (by omega) (by omega)] at h0
          omega
      | succ k =>
        rw [Memory.writeBytes]
        simp only [List.length_cons, Nat.add_lt_add_iff_right] at hk
        rw [ih1 k hk (by rw [addrPlus_addrPlus, hx, Nat.add_comm])]
        rfl
    · intro h
      rw [Memory.writeBytes, ih2, Memory.read_write hm, if_neg]
      · simpa using h 0 (by simp)
      · intro j hj
        rw [addrPlus_addrPlus, Nat.add_comm]
        exact h (j + 1) (by simpa using hj)

end Sys2Proof.Machine
end

