-- ==== Sys2Proof/Laws/State.lean ====
section
/-! SUPPORT. One lemma per register update: what every field of State reads after it, each part true by rfl (a simp lemma whose parts
are the rewrite rules). No later proof unfolds a record update. -/

namespace Sys2Proof.Machine

@[simp] theorem State.setPix_fields (s : State) (v : Pixels) :
    (s.setPix v).pix = v ∧ (s.setPix v).blk = s.blk ∧ (s.setPix v).fmt = s.fmt ∧ (s.setPix v).ctrl = s.ctrl ∧
    (s.setPix v).status = s.status ∧ (s.setPix v).err = s.err ∧ (s.setPix v).bptr = s.bptr ∧ (s.setPix v).pptr = s.pptr ∧
    (s.setPix v).pkStride = s.pkStride ∧ (s.setPix v).pkSize = s.pkSize ∧ (s.setPix v).pkOfs = s.pkOfs ∧
    (s.setPix v).resp = s.resp ∧ (s.setPix v).mem = s.mem ∧ (s.setPix v).host = s.host ∧
    (s.setPix v).freeNext = s.freeNext := by
  refine ⟨?_, ?_, ?_, ?_, ?_, ?_, ?_, ?_, ?_, ?_, ?_, ?_, ?_, ?_, ?_⟩ <;> rfl

@[simp] theorem State.setBlk_fields (s : State) (v : Block) :
    (s.setBlk v).pix = s.pix ∧ (s.setBlk v).blk = v ∧ (s.setBlk v).fmt = s.fmt ∧ (s.setBlk v).ctrl = s.ctrl ∧
    (s.setBlk v).status = s.status ∧ (s.setBlk v).err = s.err ∧ (s.setBlk v).bptr = s.bptr ∧ (s.setBlk v).pptr = s.pptr ∧
    (s.setBlk v).pkStride = s.pkStride ∧ (s.setBlk v).pkSize = s.pkSize ∧ (s.setBlk v).pkOfs = s.pkOfs ∧
    (s.setBlk v).resp = s.resp ∧ (s.setBlk v).mem = s.mem ∧ (s.setBlk v).host = s.host ∧
    (s.setBlk v).freeNext = s.freeNext := by
  refine ⟨?_, ?_, ?_, ?_, ?_, ?_, ?_, ?_, ?_, ?_, ?_, ?_, ?_, ?_, ?_⟩ <;> rfl

@[simp] theorem State.setFmt_fields (s : State) (v : BitVec 3) :
    (s.setFmt v).pix = s.pix ∧ (s.setFmt v).blk = s.blk ∧ (s.setFmt v).fmt = v ∧ (s.setFmt v).ctrl = s.ctrl ∧
    (s.setFmt v).status = s.status ∧ (s.setFmt v).err = s.err ∧ (s.setFmt v).bptr = s.bptr ∧ (s.setFmt v).pptr = s.pptr ∧
    (s.setFmt v).pkStride = s.pkStride ∧ (s.setFmt v).pkSize = s.pkSize ∧ (s.setFmt v).pkOfs = s.pkOfs ∧
    (s.setFmt v).resp = s.resp ∧ (s.setFmt v).mem = s.mem ∧ (s.setFmt v).host = s.host ∧
    (s.setFmt v).freeNext = s.freeNext := by
  refine ⟨?_, ?_, ?_, ?_, ?_, ?_, ?_, ?_, ?_, ?_, ?_, ?_, ?_, ?_, ?_⟩ <;> rfl

@[simp] theorem State.setCtrl_fields (s : State) (v : BitVec 16) :
    (s.setCtrl v).pix = s.pix ∧ (s.setCtrl v).blk = s.blk ∧ (s.setCtrl v).fmt = s.fmt ∧ (s.setCtrl v).ctrl = v ∧
    (s.setCtrl v).status = s.status ∧ (s.setCtrl v).err = s.err ∧ (s.setCtrl v).bptr = s.bptr ∧
    (s.setCtrl v).pptr = s.pptr ∧ (s.setCtrl v).pkStride = s.pkStride ∧ (s.setCtrl v).pkSize = s.pkSize ∧
    (s.setCtrl v).pkOfs = s.pkOfs ∧ (s.setCtrl v).resp = s.resp ∧ (s.setCtrl v).mem = s.mem ∧ (s.setCtrl v).host = s.host ∧
    (s.setCtrl v).freeNext = s.freeNext := by
  refine ⟨?_, ?_, ?_, ?_, ?_, ?_, ?_, ?_, ?_, ?_, ?_, ?_, ?_, ?_, ?_⟩ <;> rfl

@[simp] theorem State.setStatus_fields (s : State) (v : BitVec 5) :
    (s.setStatus v).pix = s.pix ∧ (s.setStatus v).blk = s.blk ∧ (s.setStatus v).fmt = s.fmt ∧
    (s.setStatus v).ctrl = s.ctrl ∧ (s.setStatus v).status = v ∧ (s.setStatus v).err = s.err ∧
    (s.setStatus v).bptr = s.bptr ∧ (s.setStatus v).pptr = s.pptr ∧ (s.setStatus v).pkStride = s.pkStride ∧
    (s.setStatus v).pkSize = s.pkSize ∧ (s.setStatus v).pkOfs = s.pkOfs ∧ (s.setStatus v).resp = s.resp ∧
    (s.setStatus v).mem = s.mem ∧ (s.setStatus v).host = s.host ∧ (s.setStatus v).freeNext = s.freeNext := by
  refine ⟨?_, ?_, ?_, ?_, ?_, ?_, ?_, ?_, ?_, ?_, ?_, ?_, ?_, ?_, ?_⟩ <;> rfl

@[simp] theorem State.setErr_fields (s : State) (v : Word) :
    (s.setErr v).pix = s.pix ∧ (s.setErr v).blk = s.blk ∧ (s.setErr v).fmt = s.fmt ∧ (s.setErr v).ctrl = s.ctrl ∧
    (s.setErr v).status = s.status ∧ (s.setErr v).err = v ∧ (s.setErr v).bptr = s.bptr ∧ (s.setErr v).pptr = s.pptr ∧
    (s.setErr v).pkStride = s.pkStride ∧ (s.setErr v).pkSize = s.pkSize ∧ (s.setErr v).pkOfs = s.pkOfs ∧
    (s.setErr v).resp = s.resp ∧ (s.setErr v).mem = s.mem ∧ (s.setErr v).host = s.host ∧
    (s.setErr v).freeNext = s.freeNext := by
  refine ⟨?_, ?_, ?_, ?_, ?_, ?_, ?_, ?_, ?_, ?_, ?_, ?_, ?_, ?_, ?_⟩ <;> rfl

@[simp] theorem State.setBptr_fields (s : State) (v : Addr) :
    (s.setBptr v).pix = s.pix ∧ (s.setBptr v).blk = s.blk ∧ (s.setBptr v).fmt = s.fmt ∧ (s.setBptr v).ctrl = s.ctrl ∧
    (s.setBptr v).status = s.status ∧ (s.setBptr v).err = s.err ∧ (s.setBptr v).bptr = v ∧ (s.setBptr v).pptr = s.pptr ∧
    (s.setBptr v).pkStride = s.pkStride ∧ (s.setBptr v).pkSize = s.pkSize ∧ (s.setBptr v).pkOfs = s.pkOfs ∧
    (s.setBptr v).resp = s.resp ∧ (s.setBptr v).mem = s.mem ∧ (s.setBptr v).host = s.host ∧
    (s.setBptr v).freeNext = s.freeNext := by
  refine ⟨?_, ?_, ?_, ?_, ?_, ?_, ?_, ?_, ?_, ?_, ?_, ?_, ?_, ?_, ?_⟩ <;> rfl

@[simp] theorem State.setPptr_fields (s : State) (v : Addr) :
    (s.setPptr v).pix = s.pix ∧ (s.setPptr v).blk = s.blk ∧ (s.setPptr v).fmt = s.fmt ∧ (s.setPptr v).ctrl = s.ctrl ∧
    (s.setPptr v).status = s.status ∧ (s.setPptr v).err = s.err ∧ (s.setPptr v).bptr = s.bptr ∧ (s.setPptr v).pptr = v ∧
    (s.setPptr v).pkStride = s.pkStride ∧ (s.setPptr v).pkSize = s.pkSize ∧ (s.setPptr v).pkOfs = s.pkOfs ∧
    (s.setPptr v).resp = s.resp ∧ (s.setPptr v).mem = s.mem ∧ (s.setPptr v).host = s.host ∧
    (s.setPptr v).freeNext = s.freeNext := by
  refine ⟨?_, ?_, ?_, ?_, ?_, ?_, ?_, ?_, ?_, ?_, ?_, ?_, ?_, ?_, ?_⟩ <;> rfl

@[simp] theorem State.setPkStride_fields (s : State) (v : BitVec 16) :
    (s.setPkStride v).pix = s.pix ∧ (s.setPkStride v).blk = s.blk ∧ (s.setPkStride v).fmt = s.fmt ∧
    (s.setPkStride v).ctrl = s.ctrl ∧ (s.setPkStride v).status = s.status ∧ (s.setPkStride v).err = s.err ∧
    (s.setPkStride v).bptr = s.bptr ∧ (s.setPkStride v).pptr = s.pptr ∧ (s.setPkStride v).pkStride = v ∧
    (s.setPkStride v).pkSize = s.pkSize ∧ (s.setPkStride v).pkOfs = s.pkOfs ∧ (s.setPkStride v).resp = s.resp ∧
    (s.setPkStride v).mem = s.mem ∧ (s.setPkStride v).host = s.host ∧ (s.setPkStride v).freeNext = s.freeNext := by
  refine ⟨?_, ?_, ?_, ?_, ?_, ?_, ?_, ?_, ?_, ?_, ?_, ?_, ?_, ?_, ?_⟩ <;> rfl

@[simp] theorem State.setPkSize_fields (s : State) (v : Vector (BitVec 6) 4) :
    (s.setPkSize v).pix = s.pix ∧ (s.setPkSize v).blk = s.blk ∧ (s.setPkSize v).fmt = s.fmt ∧
    (s.setPkSize v).ctrl = s.ctrl ∧ (s.setPkSize v).status = s.status ∧ (s.setPkSize v).err = s.err ∧
    (s.setPkSize v).bptr = s.bptr ∧ (s.setPkSize v).pptr = s.pptr ∧ (s.setPkSize v).pkStride = s.pkStride ∧
    (s.setPkSize v).pkSize = v ∧ (s.setPkSize v).pkOfs = s.pkOfs ∧ (s.setPkSize v).resp = s.resp ∧
    (s.setPkSize v).mem = s.mem ∧ (s.setPkSize v).host = s.host ∧ (s.setPkSize v).freeNext = s.freeNext := by
  refine ⟨?_, ?_, ?_, ?_, ?_, ?_, ?_, ?_, ?_, ?_, ?_, ?_, ?_, ?_, ?_⟩ <;> rfl

@[simp] theorem State.setPkOfs_fields (s : State) (v : Vector (BitVec 16) 4) :
    (s.setPkOfs v).pix = s.pix ∧ (s.setPkOfs v).blk = s.blk ∧ (s.setPkOfs v).fmt = s.fmt ∧ (s.setPkOfs v).ctrl = s.ctrl ∧
    (s.setPkOfs v).status = s.status ∧ (s.setPkOfs v).err = s.err ∧ (s.setPkOfs v).bptr = s.bptr ∧
    (s.setPkOfs v).pptr = s.pptr ∧ (s.setPkOfs v).pkStride = s.pkStride ∧ (s.setPkOfs v).pkSize = s.pkSize ∧
    (s.setPkOfs v).pkOfs = v ∧ (s.setPkOfs v).resp = s.resp ∧ (s.setPkOfs v).mem = s.mem ∧ (s.setPkOfs v).host = s.host ∧
    (s.setPkOfs v).freeNext = s.freeNext := by
  refine ⟨?_, ?_, ?_, ?_, ?_, ?_, ?_, ?_, ?_, ?_, ?_, ?_, ?_, ?_, ?_⟩ <;> rfl

@[simp] theorem State.setResp_fields (s : State) (v : Word) :
    (s.setResp v).pix = s.pix ∧ (s.setResp v).blk = s.blk ∧ (s.setResp v).fmt = s.fmt ∧ (s.setResp v).ctrl = s.ctrl ∧
    (s.setResp v).status = s.status ∧ (s.setResp v).err = s.err ∧ (s.setResp v).bptr = s.bptr ∧
    (s.setResp v).pptr = s.pptr ∧ (s.setResp v).pkStride = s.pkStride ∧ (s.setResp v).pkSize = s.pkSize ∧
    (s.setResp v).pkOfs = s.pkOfs ∧ (s.setResp v).resp = v ∧ (s.setResp v).mem = s.mem ∧ (s.setResp v).host = s.host ∧
    (s.setResp v).freeNext = s.freeNext := by
  refine ⟨?_, ?_, ?_, ?_, ?_, ?_, ?_, ?_, ?_, ?_, ?_, ?_, ?_, ?_, ?_⟩ <;> rfl

@[simp] theorem State.setMem_fields (s : State) (v : Memory) :
    (s.setMem v).pix = s.pix ∧ (s.setMem v).blk = s.blk ∧ (s.setMem v).fmt = s.fmt ∧ (s.setMem v).ctrl = s.ctrl ∧
    (s.setMem v).status = s.status ∧ (s.setMem v).err = s.err ∧ (s.setMem v).bptr = s.bptr ∧ (s.setMem v).pptr = s.pptr ∧
    (s.setMem v).pkStride = s.pkStride ∧ (s.setMem v).pkSize = s.pkSize ∧ (s.setMem v).pkOfs = s.pkOfs ∧
    (s.setMem v).resp = s.resp ∧ (s.setMem v).mem = v ∧ (s.setMem v).host = s.host ∧ (s.setMem v).freeNext = s.freeNext := by
  refine ⟨?_, ?_, ?_, ?_, ?_, ?_, ?_, ?_, ?_, ?_, ?_, ?_, ?_, ?_, ?_⟩ <;> rfl

@[simp] theorem State.setHost_fields (s : State) (v : List HostEvent) :
    (s.setHost v).pix = s.pix ∧ (s.setHost v).blk = s.blk ∧ (s.setHost v).fmt = s.fmt ∧ (s.setHost v).ctrl = s.ctrl ∧
    (s.setHost v).status = s.status ∧ (s.setHost v).err = s.err ∧ (s.setHost v).bptr = s.bptr ∧
    (s.setHost v).pptr = s.pptr ∧ (s.setHost v).pkStride = s.pkStride ∧ (s.setHost v).pkSize = s.pkSize ∧
    (s.setHost v).pkOfs = s.pkOfs ∧ (s.setHost v).resp = s.resp ∧ (s.setHost v).mem = s.mem ∧ (s.setHost v).host = v ∧
    (s.setHost v).freeNext = s.freeNext := by
  refine ⟨?_, ?_, ?_, ?_, ?_, ?_, ?_, ?_, ?_, ?_, ?_, ?_, ?_, ?_, ?_⟩ <;> rfl

end Sys2Proof.Machine
end

