-- ==== Sys2Proof/Laws/Ops.lean ====
section
/-! SUPPORT. One lemma per shared operation: everything it can do. Proofs cite these and do not unfold the operation. -/

namespace Sys2Proof.Machine

/-- `succeed` answers one state: OK set, nothing else changed. -/
theorem succeed_eq (s : State) : succeed s = .next (s.setStatus (setOk s.status)) := rfl

theorem succeed_next {s t : State} (h : succeed s = .next t) : t = s.setStatus (setOk s.status) := by
  rw [succeed_eq] at h; exact (Host.Outcome.next.inj h).symm

/-- `fail f` answers one state: the flag set, OK cleared, nothing else changed (R251). -/
theorem fail_eq (f : Failure) (s : State) : fail f s = .next (s.setStatus (raiseFlag f s.status)) := rfl

theorem fail_next {f : Failure} {s t : State} (h : fail f s = .next t) : t = s.setStatus (raiseFlag f s.status) := by
  rw [fail_eq] at h; exact (Host.Outcome.next.inj h).symm

theorem illegalWord_next {s t : State} (h : illegalWord s = .next t) : t = s.setStatus (raiseFlag .ill s.status) :=
  fail_next h

/-- `finishWrite` succeeds on the written state or fails on the old one. -/
theorem finishWrite_next {s t : State} {r : Except Failure State} (h : finishWrite s r = .next t) :
    (∃ u, r = .ok u ∧ t = u.setStatus (setOk u.status)) ∨ (∃ f, r = .error f ∧ t = s.setStatus (raiseFlag f s.status)) := by
  cases r with
  | ok u => exact .inl ⟨u, rfl, succeed_next h⟩
  | error f => exact .inr ⟨f, rfl, fail_next h⟩

/-- `noteInvalid` touches STATUS only. -/
theorem noteInvalid_cases (f : BlockFormat) (s : State) :
    (noteInvalid f s = s.setStatus (setInvblk s.status) ∧ f = .etc1 ∧ etc1Invalid (elemOf s.blk 0) = true) ∨
      (noteInvalid f s = s ∧ ¬ (f = .etc1 ∧ etc1Invalid (elemOf s.blk 0) = true)) := by
  unfold noteInvalid
  split
  · exact .inl ⟨rfl, ‹_›⟩
  · exact .inr ⟨rfl, ‹_›⟩

/-- A flip fails with CFGERR (no format), fails with GEOM (ETC1), or writes BLK (R243). -/
theorem flipBy_next {p : Fin 16 → Fin 16} {s t : State} (h : flipBy p s = .next t) :
    (formatOf s.fmt = none ∧ t = s.setStatus (raiseFlag .cfgerr s.status)) ∨
      (∃ f, formatOf s.fmt = some f ∧ flipBlock f p s.blk = none ∧ t = s.setStatus (raiseFlag .geom s.status)) ∨
      (∃ f b, formatOf s.fmt = some f ∧ flipBlock f p s.blk = some b ∧
        t = (s.setBlk b).setStatus (setOk s.status)) := by
  unfold flipBy at h
  cases hf : formatOf s.fmt with
  | none => rw [hf] at h; exact .inl ⟨rfl, fail_next h⟩
  | some f =>
    rw [hf] at h
    simp only at h
    cases hb : flipBlock f p s.blk with
    | none => rw [hb] at h; exact .inr (.inl ⟨f, rfl, hb, fail_next h⟩)
    | some b => rw [hb] at h; exact .inr (.inr ⟨f, b, rfl, hb, succeed_next h⟩)

/-- What a register write can leave (R111): one register changed, or a failure. -/
theorem writeCtrl_ok {cr : CtrlReg} {v : BitVec 16} {s u : State} (h : writeCtrl cr v s = .ok u) :
    (cr = .fmt ∧ v.toNat ≤ 6 ∧ u = s.setFmt (v.setWidth 3)) ∨
      (cr = .ctrl ∧ u = s.setCtrl (ctrlMasked v)) ∨
      (cr = .bptr ∧ u = s.setBptr (v.setWidth 32)) ∨
      (cr = .pptr ∧ u = s.setPptr (v.setWidth 32)) ∨
      (cr = .pkStride ∧ u = s.setPkStride v) ∨
      (∃ c, cr = .pkSize c ∧ v.toNat ≤ 32 ∧ u = s.setPkSize (s.pkSize.set c (v.setWidth 6))) ∨
      (∃ c, cr = .pkOfs c ∧ u = s.setPkOfs (s.pkOfs.set c v)) := by
  cases cr <;> simp only [writeCtrl] at h
  case fmt =>
    split at h
    · cases h
    · exact .inl ⟨rfl, by omega, (Except.ok.inj h).symm⟩
  case ctrl => exact .inr (.inl ⟨rfl, (Except.ok.inj h).symm⟩)
  case status => cases h
  case err => cases h
  case bptr => exact .inr (.inr (.inl ⟨rfl, (Except.ok.inj h).symm⟩))
  case pptr => exact .inr (.inr (.inr (.inl ⟨rfl, (Except.ok.inj h).symm⟩)))
  case pkStride => exact .inr (.inr (.inr (.inr (.inl ⟨rfl, (Except.ok.inj h).symm⟩))))
  case pkSize c =>
    split at h
    · cases h
    · exact .inr (.inr (.inr (.inr (.inr (.inl ⟨c, rfl, by omega, (Except.ok.inj h).symm⟩)))))
  case pkOfs c => exact .inr (.inr (.inr (.inr (.inr (.inr ⟨c, rfl, (Except.ok.inj h).symm⟩)))))

/-- What WRCRH can leave (R113). -/
theorem writeCtrlUpper_ok {cr : CtrlReg} {v : BitVec 16} {s u : State} (h : writeCtrlUpper cr v s = .ok u) :
    (cr = .bptr ∧ u = s.setBptr (withUpperHalf v s.bptr)) ∨ (cr = .pptr ∧ u = s.setPptr (withUpperHalf v s.pptr)) := by
  cases cr <;> simp only [writeCtrlUpper] at h
  case bptr => exact .inl ⟨rfl, (Except.ok.inj h).symm⟩
  case pptr => exact .inr ⟨rfl, (Except.ok.inj h).symm⟩
  all_goals cases h

/-- One step: idle, a host write, a reset, a decoded command, or an illegal word. -/
theorem step_cases {s t : State} (h : step s = .next t) :
    (s.host = [] ∧ t = s) ∨
      (∃ a b rest, s.host = .memWrite a b :: rest ∧ t = hostWrite a b (s.afterEvent rest)) ∨
      (∃ rest, s.host = .reset :: rest ∧ t = applyReset (s.afterEvent rest)) ∨
      (∃ w rest i, s.host = .command w :: rest ∧ decode w = .ok i ∧ exec i (s.afterEvent rest) = .next t) ∨
      (∃ w rest r, s.host = .command w :: rest ∧ decode w = .error r ∧
        t = (s.afterEvent rest).setStatus (raiseFlag .ill s.status)) := by
  unfold step at h
  match hh : s.host with
  | [] => rw [hh] at h; exact .inl ⟨rfl, (Host.Outcome.next.inj h).symm⟩
  | .memWrite a b :: rest =>
    rw [hh] at h; exact .inr (.inl ⟨a, b, rest, rfl, (Host.Outcome.next.inj h).symm⟩)
  | .reset :: rest => rw [hh] at h; exact .inr (.inr (.inl ⟨rest, rfl, (Host.Outcome.next.inj h).symm⟩))
  | .command w :: rest =>
    rw [hh] at h
    simp only [runWord] at h
    cases hd : decode w with
    | ok i => rw [hd] at h; exact .inr (.inr (.inr (.inl ⟨w, rest, i, rfl, hd, h⟩)))
    | error r => rw [hd] at h; exact .inr (.inr (.inr (.inr ⟨w, rest, r, rfl, hd, illegalWord_next h⟩)))

/-- The bits of STATUS one by one, for the four operations on it (R28, R115, R251). -/
theorem status_ops (st : BitVec 5) :
    (statusOk (setOk st) = true ∧ statusIll (setOk st) = statusIll st ∧ statusCfgerr (setOk st) = statusCfgerr st ∧
      statusInvblk (setOk st) = statusInvblk st ∧ statusGeom (setOk st) = statusGeom st) ∧
    (statusOk (setInvblk st) = statusOk st ∧ statusIll (setInvblk st) = statusIll st ∧
      statusCfgerr (setInvblk st) = statusCfgerr st ∧ statusInvblk (setInvblk st) = true ∧
      statusGeom (setInvblk st) = statusGeom st) := by
  revert st; decide

theorem status_raise (f : Failure) (st : BitVec 5) :
    statusOk (raiseFlag f st) = false ∧ statusIll (raiseFlag f st) = (statusIll st || decide (f = .ill)) ∧
      statusCfgerr (raiseFlag f st) = (statusCfgerr st || decide (f = .cfgerr)) ∧
      statusInvblk (raiseFlag f st) = statusInvblk st ∧
      statusGeom (raiseFlag f st) = (statusGeom st || decide (f = .geom)) := by
  cases f <;> revert st <;> decide

end Sys2Proof.Machine
end

