-- ==== Sys2Proof/Laws/Exec.lean ====
section
/-! SUPPORT. Every command in one form: a failure with its cause, or a success and the state it leaves before OK is set. -/

namespace Sys2Proof.Machine

/-- A command that needs a format: CFGERR without one. -/
def withFormat (s : State) (g : BlockFormat → Except Failure State) : Except Failure State :=
  match formatOf s.fmt with
  | none => .error .cfgerr
  | some f => g f

/-- A command on one element of the block: CFGERR where the format has none of that layout. -/
def withElement (s : State) (elem : BlockFormat → Option (Fin 2)) (g : Fin 2 → Elem → Elem) : Except Failure State :=
  match (formatOf s.fmt).bind elem with
  | none => .error .cfgerr
  | some k => .ok (s.setBlk (setElem s.blk k (g k (elemOf s.blk k))))

/-- UNPK and PACK: ILL on an illegal range. -/
def withRange (first : Fin 16) (cnt : Fin 32) (u : State) : Except Failure State :=
  if pixelRangeLegal first cnt then .ok u else .error .ill

/-- The flips: CFGERR, then GEOM. -/
def flipEffect (p : Fin 16 → Fin 16) (s : State) : Except Failure State :=
  withFormat s fun f =>
    match flipBlock f p s.blk with
    | none => .error .geom
    | some b => .ok (s.setBlk b)

/-- SELC by format. -/
def selcEffect (s : State) (f : BlockFormat) : Except Failure State :=
  match f with
  | .etc1 => .ok (encodeEtc1 s)
  | .dxt1 => .ok (encodeColour .dxt1 0 s)
  | .dxt1a => .ok (encodeColour .dxt1a 0 s)
  | .dxt3 => .ok (encodeColour .dxt3 1 s)
  | .dxt5 => .ok (encodeColour .dxt5 1 s)
  | .dxt5a => .error .cfgerr

/-- The failure a command raises, or the state it leaves before it sets OK. -/
def effectOf (i : Instr) (s : State) : Except Failure State :=
  match i with
  | .nop => .ok s
  | .wrcr cr v => writeCtrl cr v s
  | .wrcrh cr v => writeCtrlUpper cr v s
  | .rdcr cr => .ok (s.setResp (readCtrl cr s))
  | .clrst mask => .ok (s.setStatus (clearSticky mask s.status))
  | .ldblk => withFormat s fun f =>
      .ok ((s.setBlk (loadBlock s.mem s.bptr (blockBytes f) s.blk)).setBptr (addrPlus s.bptr (blockBytes f)))
  | .stblk => withFormat s fun f =>
      .ok ((s.setMem (Memory.writeBytes s.mem s.bptr (blockPrefix s.blk (blockBytes f)))).setBptr
        (addrPlus s.bptr (blockBytes f)))
  | .unpk first cnt => withRange first cnt ((s.setPix (unpackPixels s first.val cnt.val)).setPptr (packedAddr s cnt.val))
  | .pack first cnt => withRange first cnt ((s.setMem (packPixels s first.val cnt.val)).setPptr (packedAddr s cnt.val))
  | .dec => withFormat s fun f => .ok (noteInvalid f (s.setPix (decodeAll f s.blk)))
  | .decpx n => withFormat s fun f => .ok (noteInvalid f (s.setPix (s.pix.set n (decodePx f s.blk n))))
  | .qnt n e => withElement s colourElem fun _ el => setColourEndpoint e (quant565 s.pix[n]) el
  | .setea n e => withElement s alpha5Elem fun _ el => setAlphaEndpoint e s.pix[n].a el
  | .enca3 => withElement s alpha3Elem fun _ el => dxt3SetAll el fun i => quant4 s.pix[i].a
  | .selc => withFormat s (selcEffect s)
  | .sela =>
    match (formatOf s.fmt).bind alpha5Elem with
    | none => .error .cfgerr
    | some k => .ok (encodeAlpha k s)
  | .setpx n => withFormat s fun f => .ok ((s.setBlk (setPixelBlock f n s)).setErr (errWord (setPixelError f n s)))
  | .canon mode => withElement s colourElem fun _ el => canonColour mode el
  | .canona mode => withElement s alpha5Elem fun _ el => canonAlpha mode el
  | .flipx => flipEffect flipFx s
  | .flipy => flipEffect flipFy s

theorem finishWrite_flipEffect (p : Fin 16 → Fin 16) (s : State) : finishWrite s (flipEffect p s) = flipBy p s := by
  unfold flipEffect flipBy withFormat
  cases formatOf s.fmt with
  | none => rfl
  | some f =>
    simp only
    cases flipBlock f p s.blk <;> rfl

/-- Every command is its effect, finished (R251: a failure changes STATUS alone; a success sets OK). -/
theorem exec_eq (i : Instr) (s : State) : exec i s = finishWrite s (effectOf i s) := by
  cases i with
  | nop => rfl
  | wrcr cr v => rfl
  | wrcrh cr v => rfl
  | rdcr cr => rfl
  | clrst m => rfl
  | ldblk => simp only [exec, execLdblk, effectOf, withFormat]; cases formatOf s.fmt <;> rfl
  | stblk => simp only [exec, execStblk, effectOf, withFormat]; cases formatOf s.fmt <;> rfl
  | unpk first cnt => simp only [exec, execUnpk, effectOf, withRange]; split <;> rfl
  | pack first cnt => simp only [exec, execPack, effectOf, withRange]; split <;> rfl
  | dec => simp only [exec, execDec, effectOf, withFormat]; cases formatOf s.fmt <;> rfl
  | decpx n => simp only [exec, execDecpx, effectOf, withFormat]; cases formatOf s.fmt <;> rfl
  | qnt n e => simp only [exec, execQnt, effectOf, withElement]; cases (formatOf s.fmt).bind colourElem <;> rfl
  | setea n e => simp only [exec, execSetea, effectOf, withElement]; cases (formatOf s.fmt).bind alpha5Elem <;> rfl
  | enca3 => simp only [exec, execEnca3, effectOf, withElement]; cases (formatOf s.fmt).bind alpha3Elem <;> rfl
  | selc =>
    simp only [exec, execSelc, effectOf, withFormat]
    cases formatOf s.fmt with
    | none => rfl
    | some f => cases f <;> rfl
  | sela => simp only [exec, execSela, effectOf]; cases (formatOf s.fmt).bind alpha5Elem <;> rfl
  | setpx n => simp only [exec, execSetpx, effectOf, withFormat]; cases formatOf s.fmt <;> rfl
  | canon mode => simp only [exec, execCanon, effectOf, withElement]; cases (formatOf s.fmt).bind colourElem <;> rfl
  | canona mode => simp only [exec, execCanona, effectOf, withElement]; cases (formatOf s.fmt).bind alpha5Elem <;> rfl
  | flipx => simp only [exec, execFlipx, effectOf, finishWrite_flipEffect]
  | flipy => simp only [exec, execFlipy, effectOf, finishWrite_flipEffect]

/-- What a command can answer: success on its effect, or its failure. -/
theorem exec_cases {i : Instr} {s t : State} (h : exec i s = .next t) :
    (∃ u, effectOf i s = .ok u ∧ t = u.setStatus (setOk u.status)) ∨
      (∃ f, effectOf i s = .error f ∧ t = s.setStatus (raiseFlag f s.status)) := by
  rw [exec_eq] at h; exact finishWrite_next h

/-- A successful effect, answered. -/
theorem exec_of_ok {i : Instr} {s u : State} (h : effectOf i s = .ok u) : exec i s = .next (u.setStatus (setOk u.status)) := by
  rw [exec_eq, h]; rfl

/-- A failed effect, answered. -/
theorem exec_of_error {i : Instr} {s : State} {f : Failure} (h : effectOf i s = .error f) :
    exec i s = .next (s.setStatus (raiseFlag f s.status)) := by
  rw [exec_eq, h]; rfl

/-! ### Inversion of the shared forms -/

theorem withFormat_ok {s u : State} {g : BlockFormat → Except Failure State} (h : withFormat s g = .ok u) :
    ∃ f, formatOf s.fmt = some f ∧ g f = .ok u := by
  unfold withFormat at h
  cases hf : formatOf s.fmt with
  | none => rw [hf] at h; cases h
  | some f => rw [hf] at h; exact ⟨f, rfl, h⟩

theorem withElement_ok {s u : State} {elem : BlockFormat → Option (Fin 2)} {g : Fin 2 → Elem → Elem}
    (h : withElement s elem g = .ok u) :
    ∃ k, (formatOf s.fmt).bind elem = some k ∧ u = s.setBlk (setElem s.blk k (g k (elemOf s.blk k))) := by
  unfold withElement at h
  cases hf : (formatOf s.fmt).bind elem with
  | none => rw [hf] at h; cases h
  | some k => rw [hf] at h; exact ⟨k, rfl, (Except.ok.inj h).symm⟩

theorem withRange_ok {first : Fin 16} {cnt : Fin 32} {u v : State} (h : withRange first cnt u = .ok v) :
    pixelRangeLegal first cnt = true ∧ v = u := by
  unfold withRange at h
  split at h
  · exact ⟨‹_›, (Except.ok.inj h).symm⟩
  · cases h

theorem flipEffect_ok {p : Fin 16 → Fin 16} {s u : State} (h : flipEffect p s = .ok u) :
    ∃ f b, formatOf s.fmt = some f ∧ flipBlock f p s.blk = some b ∧ u = s.setBlk b := by
  obtain ⟨f, hf, h⟩ := withFormat_ok h
  cases hb : flipBlock f p s.blk with
  | none => rw [hb] at h; cases h
  | some b => rw [hb] at h; exact ⟨f, b, hf, hb, (Except.ok.inj h).symm⟩

theorem selcEffect_ok {s u : State} {f : BlockFormat} (h : selcEffect s f = .ok u) :
    (f = .etc1 ∧ u = encodeEtc1 s) ∨ (∃ k, colourElem f = some k ∧ u = encodeColour f k s) := by
  cases f <;> simp only [selcEffect] at h
  case etc1 => exact .inl ⟨rfl, (Except.ok.inj h).symm⟩
  case dxt5a => cases h
  all_goals exact .inr ⟨_, rfl, (Except.ok.inj h).symm⟩

end Sys2Proof.Machine
end

