-- ==== Sys2Proof/Laws/Fields.lean ====
section
/-! SUPPORT. The laws of the block fields: a field read after a field written, per element layout, and elements in the block buffer. -/

namespace Sys2Proof.Machine

/-! ### Bit fields -/

theorem getLsbD_replaceField {n len : Nat} (w : BitVec n) (lo : Nat) (v : BitVec len) (k : Nat) :
    (replaceField w lo v).getLsbD k =
      (decide (k < n) && if lo ≤ k ∧ k < lo + len then v.getLsbD (k - lo) else w.getLsbD k) := by
  simp only [replaceField, BitVec.getLsbD_or, BitVec.getLsbD_and, BitVec.getLsbD_not, BitVec.getLsbD_shiftLeft,
    BitVec.getLsbD_setWidth, BitVec.getLsbD_allOnes]
  by_cases hk : k < n
  · by_cases h1 : lo ≤ k
    · by_cases h2 : k < lo + len
      · simp [hk, h1, h2, show k - lo < n by omega, show k - lo < len by omega, show ¬ k < lo by omega]
      · simp [hk, h2, show ¬ k - lo < len by omega, show len ≤ k - lo by omega, show ¬ k < lo by omega,
          BitVec.getLsbD_of_ge]
    · simp [hk, h1, show k < lo by omega]
  · simp [hk, BitVec.getLsbD_of_ge w k (by omega)]

/-- The field written is the field read. -/
theorem extract_replaceField_same {n len : Nat} (w : BitVec n) (lo : Nat) (v : BitVec len) (h : lo + len ≤ n) :
    (replaceField w lo v).extractLsb' lo len = v := by
  apply BitVec.eq_of_getLsbD_eq
  intro i hi
  rw [BitVec.getLsbD_extractLsb', getLsbD_replaceField]
  simp only [hi, decide_true, Bool.true_and, show lo + i < n by omega]
  rw [if_pos (by omega), Nat.add_sub_cancel_left]

/-- A field apart from the one written is kept. -/
theorem extract_replaceField_other {n len : Nat} (w : BitVec n) (lo lo' len' : Nat) (v : BitVec len)
    (h : lo' + len' ≤ lo ∨ lo + len ≤ lo') : (replaceField w lo v).extractLsb' lo' len' = w.extractLsb' lo' len' := by
  apply BitVec.eq_of_getLsbD_eq
  intro i hi
  simp only [BitVec.getLsbD_extractLsb', getLsbD_replaceField, hi, decide_true, Bool.true_and]
  rw [if_neg (by omega)]
  by_cases hk : lo' + i < n
  · simp [hk]
  · simp [hk, BitVec.getLsbD_of_ge w (lo' + i) (by omega)]

theorem byteOf_append_succ {n : Nat} (a : BitVec n) (b : Byte) (k : Nat) : byteOf (a ++ b) (k + 1) = byteOf a k := by
  apply BitVec.eq_of_getLsbD_eq
  intro i hi
  simp only [byteOf, BitVec.getLsbD_extractLsb', BitVec.getLsbD_append]
  rw [if_neg (by omega), show 8 * (k + 1) + i - 8 = 8 * k + i by omega]

theorem byteOf_append_zero {n : Nat} (a : BitVec n) (b : Byte) : byteOf (a ++ b) 0 = b := by
  apply BitVec.eq_of_getLsbD_eq
  intro i hi
  simp [byteOf, BitVec.getLsbD_append, hi]

@[simp] theorem byteOf_self (b : Byte) : byteOf b 0 = b := by simp [byteOf]

/-- Two bytes of a 16-bit string, high byte first, are the string. -/
theorem byteOf_join16 (w : BitVec 16) : byteOf w 1 ++ byteOf w 0 = w := by
  simp only [byteOf]
  rw [BitVec.extractLsb'_append_extractLsb'_eq_extractLsb' (by omega)]
  exact BitVec.extractLsb'_eq_self

theorem byteOf_join32 (w : BitVec 32) : byteOf w 3 ++ byteOf w 2 ++ byteOf w 1 ++ byteOf w 0 = w := by
  simp only [byteOf]
  iterate 3 rw [BitVec.extractLsb'_append_extractLsb'_eq_extractLsb' (by omega)]
  exact BitVec.extractLsb'_eq_self

theorem byteOf_join48 (w : BitVec 48) :
    byteOf w 5 ++ byteOf w 4 ++ byteOf w 3 ++ byteOf w 2 ++ byteOf w 1 ++ byteOf w 0 = w := by
  simp only [byteOf]
  iterate 5 rw [BitVec.extractLsb'_append_extractLsb'_eq_extractLsb' (by omega)]
  exact BitVec.extractLsb'_eq_self

theorem byteOf_join64 (w : BitVec 64) :
    byteOf w 7 ++ byteOf w 6 ++ byteOf w 5 ++ byteOf w 4 ++ byteOf w 3 ++ byteOf w 2 ++ byteOf w 1 ++ byteOf w 0 = w := by
  simp only [byteOf]
  iterate 7 rw [BitVec.extractLsb'_append_extractLsb'_eq_extractLsb' (by omega)]
  exact BitVec.extractLsb'_eq_self

/-- An element is its eight bytes. -/
theorem elem_ext {e e' : Elem} (h : ∀ k : Fin 8, e[k] = e'[k]) : e = e' := by
  apply Vector.ext
  intro i hi
  exact h ⟨i, hi⟩

theorem elem_ext8 {e e' : Elem} (h0 : e[0] = e'[0]) (h1 : e[1] = e'[1]) (h2 : e[2] = e'[2]) (h3 : e[3] = e'[3])
    (h4 : e[4] = e'[4]) (h5 : e[5] = e'[5]) (h6 : e[6] = e'[6]) (h7 : e[7] = e'[7]) : e = e' := by
  apply Vector.ext
  intro i hi
  match i, hi with
  | 0, _ => exact h0
  | 1, _ => exact h1
  | 2, _ => exact h2
  | 3, _ => exact h3
  | 4, _ => exact h4
  | 5, _ => exact h5
  | 6, _ => exact h6
  | 7, _ => exact h7

/-- `pixelIndices` holds every pixel once. -/
theorem mem_pixelIndices (i : Fin 16) : i ∈ pixelIndices := List.mem_finRange i

theorem nodup_pixelIndices : pixelIndices.Nodup := List.nodup_finRange 16

/-- A loop over pixels that writes each pixel's own field once leaves in it what was written. -/
theorem foldl_set_get {β : Type} (set : Elem → Fin 16 → β → Elem) (get : Elem → Fin 16 → β)
    (hset : ∀ e i v j, get (set e i v) j = if j = i then v else get e j) (f : Fin 16 → β) (l : List (Fin 16)) (e : Elem)
    (j : Fin 16) : get (l.foldl (fun acc i => set acc i (f i)) e) j = if j ∈ l then f j else get e j := by
  induction l generalizing e with
  | nil => simp
  | cons i l ih =>
    rw [List.foldl_cons, ih, hset]
    by_cases h1 : j ∈ l
    · simp [h1]
    · by_cases h2 : j = i
      · subst h2; simp [h1]
      · simp [h1, h2]

/-- What every pass of a loop keeps, the loop keeps. -/
theorem foldl_keeps {α γ : Type} (g : Elem → α → Elem) (val : Elem → γ) (h : ∀ e x, val (g e x) = val e) (l : List α)
    (e : Elem) : val (l.foldl g e) = val e := by
  induction l generalizing e with
  | nil => rfl
  | cons x l ih => rw [List.foldl_cons, ih, h]

/-! ### DXT1 -/

@[simp] theorem dxt1Selectors_with (e : Elem) (s : BitVec 32) : dxt1Selectors (dxt1WithSelectors e s) = s :=
  byteOf_join32 s

@[simp] theorem dxt1Low_with (e : Elem) (s : BitVec 32) : dxt1Low (dxt1WithSelectors e s) = dxt1Low e := rfl

@[simp] theorem dxt1High_with (e : Elem) (s : BitVec 32) : dxt1High (dxt1WithSelectors e s) = dxt1High e := rfl

@[simp] theorem dxt1Low_setSel (e : Elem) (i : Fin 16) (v : BitVec 2) : dxt1Low (dxt1SetSel e i v) = dxt1Low e := rfl

@[simp] theorem dxt1High_setSel (e : Elem) (i : Fin 16) (v : BitVec 2) : dxt1High (dxt1SetSel e i v) = dxt1High e := rfl

theorem dxt1Sel_setSel (e : Elem) (i : Fin 16) (v : BitVec 2) (j : Fin 16) :
    dxt1Sel (dxt1SetSel e i v) j = if j = i then v else dxt1Sel e j := by
  simp only [dxt1Sel, dxt1SetSel, dxt1Selectors_with]
  by_cases h : j = i
  · subst h
    rw [if_pos rfl, extract_replaceField_same _ _ _ (by omega)]
  · rw [if_neg h, extract_replaceField_other]
    have : j.val ≠ i.val := fun hh => h (Fin.ext hh)
    omega

@[simp] theorem dxt1Sel_setAll (e : Elem) (f : Fin 16 → BitVec 2) (i : Fin 16) : dxt1Sel (dxt1SetAll e f) i = f i := by
  rw [dxt1SetAll, foldl_set_get dxt1SetSel dxt1Sel dxt1Sel_setSel, if_pos (mem_pixelIndices i)]

@[simp] theorem dxt1Low_setAll (e : Elem) (f : Fin 16 → BitVec 2) : dxt1Low (dxt1SetAll e f) = dxt1Low e := by
  unfold dxt1SetAll
  exact foldl_keeps (fun acc i => dxt1SetSel acc i (f i)) dxt1Low (fun e i => dxt1Low_setSel e i (f i)) pixelIndices e

@[simp] theorem dxt1High_setAll (e : Elem) (f : Fin 16 → BitVec 2) : dxt1High (dxt1SetAll e f) = dxt1High e := by
  unfold dxt1SetAll
  exact foldl_keeps (fun acc i => dxt1SetSel acc i (f i)) dxt1High (fun e i => dxt1High_setSel e i (f i)) pixelIndices e

@[simp] theorem dxt1Low_setLow (e : Elem) (c : BitVec 16) : dxt1Low (dxt1SetLow e c) = c := byteOf_join16 c

@[simp] theorem dxt1High_setLow (e : Elem) (c : BitVec 16) : dxt1High (dxt1SetLow e c) = dxt1High e := rfl

@[simp] theorem dxt1Sel_setLow (e : Elem) (c : BitVec 16) (i : Fin 16) : dxt1Sel (dxt1SetLow e c) i = dxt1Sel e i := rfl

@[simp] theorem dxt1Low_setHigh (e : Elem) (c : BitVec 16) : dxt1Low (dxt1SetHigh e c) = dxt1Low e := rfl

@[simp] theorem dxt1High_setHigh (e : Elem) (c : BitVec 16) : dxt1High (dxt1SetHigh e c) = c := byteOf_join16 c

@[simp] theorem dxt1Sel_setHigh (e : Elem) (c : BitVec 16) (i : Fin 16) : dxt1Sel (dxt1SetHigh e c) i = dxt1Sel e i := rfl

theorem byteOf_append2 (a b : Byte) : byteOf (a ++ b) 0 = b ∧ byteOf (a ++ b) 1 = a :=
  ⟨byteOf_append_zero a b, by rw [show (1 : Nat) = 0 + 1 from rfl, byteOf_append_succ, byteOf_self]⟩

theorem byteOf_append4 (a b c d : Byte) :
    byteOf (a ++ b ++ c ++ d) 0 = d ∧ byteOf (a ++ b ++ c ++ d) 1 = c ∧ byteOf (a ++ b ++ c ++ d) 2 = b ∧
      byteOf (a ++ b ++ c ++ d) 3 = a := by
  refine ⟨byteOf_append_zero _ d, ?_, ?_, ?_⟩
  · exact (byteOf_append_succ _ d 0).trans (byteOf_append_zero _ c)
  · exact (byteOf_append_succ _ d 1).trans ((byteOf_append_succ _ c 0).trans (byteOf_append_zero _ b))
  · exact (byteOf_append_succ _ d 2).trans ((byteOf_append_succ _ c 1).trans ((byteOf_append_succ _ b 0).trans (byteOf_self a)))

/-- A bit string is its fields of `len` bits. -/
theorem eq_of_fields {n len : Nat} (hlen : 0 < len) (w w' : BitVec n)
    (h : ∀ i, i * len < n → w.extractLsb' (i * len) len = w'.extractLsb' (i * len) len) : w = w' := by
  apply BitVec.eq_of_getLsbD_eq
  intro k hk
  have hle : k / len * len ≤ k := Nat.div_mul_le_self k len
  have hmod : k % len < len := Nat.mod_lt k hlen
  have hfield := congrArg (fun x => x.getLsbD (k % len)) (h (k / len) (by omega))
  have hsum : k / len * len + k % len = k := by rw [Nat.mul_comm]; exact Nat.div_add_mod k len
  simpa [hmod, hsum] using hfield

/-- A DXT1 element is its endpoints and its selectors. -/
theorem dxt1_ext {e e' : Elem} (hl : dxt1Low e = dxt1Low e') (hh : dxt1High e = dxt1High e')
    (hs : ∀ i, dxt1Sel e i = dxt1Sel e' i) : e = e' := by
  have hS : dxt1Selectors e = dxt1Selectors e' := by
    apply eq_of_fields (len := 2) (by decide)
    intro i hi
    have := hs ⟨i, by omega⟩
    simpa [dxt1Sel, Nat.mul_comm] using this
  have l2 := byteOf_append2 e[1] e[0]
  have l2' := byteOf_append2 e'[1] e'[0]
  have h2 := byteOf_append2 e[3] e[2]
  have h2' := byteOf_append2 e'[3] e'[2]
  have s4 := byteOf_append4 e[7] e[6] e[5] e[4]
  have s4' := byteOf_append4 e'[7] e'[6] e'[5] e'[4]
  simp only [dxt1Low, dxt1High, dxt1Selectors] at hl hh hS
  rw [hl] at l2; rw [hh] at h2; rw [hS] at s4
  exact elem_ext8 (l2.1.symm.trans l2'.1) (l2.2.symm.trans l2'.2) (h2.1.symm.trans h2'.1) (h2.2.symm.trans h2'.2)
    (s4.1.symm.trans s4'.1) (s4.2.1.symm.trans s4'.2.1) (s4.2.2.1.symm.trans s4'.2.2.1) (s4.2.2.2.symm.trans s4'.2.2.2)

/-! ### DXT3 -/

@[simp] theorem dxt3Word_ofWord (w : BitVec 64) : dxt3Word (dxt3OfWord w) = w := byteOf_join64 w

theorem dxt3A4_setA4 (e : Elem) (i : Fin 16) (v : BitVec 4) (j : Fin 16) :
    dxt3A4 (dxt3SetA4 e i v) j = if j = i then v else dxt3A4 e j := by
  simp only [dxt3A4, dxt3SetA4, dxt3Word_ofWord]
  by_cases h : j = i
  · subst h
    rw [if_pos rfl, extract_replaceField_same _ _ _ (by omega)]
  · rw [if_neg h, extract_replaceField_other]
    have : j.val ≠ i.val := fun hh => h (Fin.ext hh)
    omega

@[simp] theorem dxt3A4_setAll (e : Elem) (f : Fin 16 → BitVec 4) (i : Fin 16) : dxt3A4 (dxt3SetAll e f) i = f i := by
  rw [dxt3SetAll, foldl_set_get dxt3SetA4 dxt3A4 dxt3A4_setA4, if_pos (mem_pixelIndices i)]

theorem byteOf_append8 (a b c d p q r s : Byte) (k : Nat) (hk : k < 8) :
    byteOf (a ++ b ++ c ++ d ++ p ++ q ++ r ++ s) k = #v[s, r, q, p, d, c, b, a][k] := by
  match k, hk with
  | 0, _ => exact byteOf_append_zero _ s
  | 1, _ => rw [byteOf_append_succ _ s 0]; exact byteOf_append_zero _ r
  | 2, _ => rw [byteOf_append_succ _ s 1, byteOf_append_succ _ r 0]; exact byteOf_append_zero _ q
  | 3, _ => rw [byteOf_append_succ _ s 2, byteOf_append_succ _ r 1, byteOf_append_succ _ q 0]; exact byteOf_append_zero _ p
  | 4, _ =>
    rw [byteOf_append_succ _ s 3, byteOf_append_succ _ r 2, byteOf_append_succ _ q 1, byteOf_append_succ _ p 0]
    exact byteOf_append_zero _ d
  | 5, _ =>
    rw [byteOf_append_succ _ s 4, byteOf_append_succ _ r 3, byteOf_append_succ _ q 2, byteOf_append_succ _ p 1,
      byteOf_append_succ _ d 0]
    exact byteOf_append_zero _ c
  | 6, _ =>
    rw [byteOf_append_succ _ s 5, byteOf_append_succ _ r 4, byteOf_append_succ _ q 3, byteOf_append_succ _ p 2,
      byteOf_append_succ _ d 1, byteOf_append_succ _ c 0]
    exact byteOf_append_zero _ b
  | 7, _ =>
    rw [byteOf_append_succ _ s 6, byteOf_append_succ _ r 5, byteOf_append_succ _ q 4, byteOf_append_succ _ p 3,
      byteOf_append_succ _ d 2, byteOf_append_succ _ c 1, byteOf_append_succ _ b 0]
    exact byteOf_self a

/-- A little-endian element is its 64-bit integer. -/
theorem dxt3Word_inj {e e' : Elem} (h : dxt3Word e = dxt3Word e') : e = e' := by
  have hb : ∀ k : Nat, byteOf (dxt3Word e) k = byteOf (dxt3Word e') k := fun k => by rw [h]
  simp only [dxt3Word] at hb
  have := fun k hk => (byteOf_append8 e[7] e[6] e[5] e[4] e[3] e[2] e[1] e[0] k hk).symm.trans
    ((hb k).trans (byteOf_append8 e'[7] e'[6] e'[5] e'[4] e'[3] e'[2] e'[1] e'[0] k hk))
  exact elem_ext8 (this 0 (by decide)) (this 1 (by decide)) (this 2 (by decide)) (this 3 (by decide)) (this 4 (by decide))
    (this 5 (by decide)) (this 6 (by decide)) (this 7 (by decide))

/-- A DXT3 alpha element is its nibbles. -/
theorem dxt3_ext {e e' : Elem} (hs : ∀ i, dxt3A4 e i = dxt3A4 e' i) : e = e' := by
  apply dxt3Word_inj
  apply eq_of_fields (len := 4) (by decide)
  intro i hi
  have := hs ⟨i, by omega⟩
  simpa [dxt3A4, Nat.mul_comm] using this

/-! ### DXT5 -/

@[simp] theorem dxt5Selectors_with (e : Elem) (s : BitVec 48) : dxt5Selectors (dxt5WithSelectors e s) = s :=
  byteOf_join48 s

@[simp] theorem dxt5Low_setSel (e : Elem) (i : Fin 16) (v : BitVec 3) : dxt5Low (dxt5SetSel e i v) = dxt5Low e := rfl

@[simp] theorem dxt5High_setSel (e : Elem) (i : Fin 16) (v : BitVec 3) : dxt5High (dxt5SetSel e i v) = dxt5High e := rfl

theorem dxt5Sel_setSel (e : Elem) (i : Fin 16) (v : BitVec 3) (j : Fin 16) :
    dxt5Sel (dxt5SetSel e i v) j = if j = i then v else dxt5Sel e j := by
  simp only [dxt5Sel, dxt5SetSel, dxt5Selectors_with]
  by_cases h : j = i
  · subst h
    rw [if_pos rfl, extract_replaceField_same _ _ _ (by omega)]
  · rw [if_neg h, extract_replaceField_other]
    have : j.val ≠ i.val := fun hh => h (Fin.ext hh)
    omega

@[simp] theorem dxt5Sel_setAll (e : Elem) (f : Fin 16 → BitVec 3) (i : Fin 16) : dxt5Sel (dxt5SetAll e f) i = f i := by
  rw [dxt5SetAll, foldl_set_get dxt5SetSel dxt5Sel dxt5Sel_setSel, if_pos (mem_pixelIndices i)]

@[simp] theorem dxt5Low_setAll (e : Elem) (f : Fin 16 → BitVec 3) : dxt5Low (dxt5SetAll e f) = dxt5Low e := by
  unfold dxt5SetAll
  exact foldl_keeps (fun acc i => dxt5SetSel acc i (f i)) dxt5Low (fun e i => dxt5Low_setSel e i (f i)) pixelIndices e

@[simp] theorem dxt5High_setAll (e : Elem) (f : Fin 16 → BitVec 3) : dxt5High (dxt5SetAll e f) = dxt5High e := by
  unfold dxt5SetAll
  exact foldl_keeps (fun acc i => dxt5SetSel acc i (f i)) dxt5High (fun e i => dxt5High_setSel e i (f i)) pixelIndices e

@[simp] theorem dxt5Low_setLow (e : Elem) (v : Byte) : dxt5Low (dxt5SetLow e v) = v := by simp [dxt5Low, dxt5SetLow]

@[simp] theorem dxt5High_setLow (e : Elem) (v : Byte) : dxt5High (dxt5SetLow e v) = dxt5High e := by
  simp [dxt5High, dxt5SetLow]

@[simp] theorem dxt5Sel_setLow (e : Elem) (v : Byte) (i : Fin 16) : dxt5Sel (dxt5SetLow e v) i = dxt5Sel e i := by
  simp [dxt5Sel, dxt5Selectors, dxt5SetLow]

@[simp] theorem dxt5Low_setHigh (e : Elem) (v : Byte) : dxt5Low (dxt5SetHigh e v) = dxt5Low e := by
  simp [dxt5Low, dxt5SetHigh]

@[simp] theorem dxt5High_setHigh (e : Elem) (v : Byte) : dxt5High (dxt5SetHigh e v) = v := by
  simp [dxt5High, dxt5SetHigh]

@[simp] theorem dxt5Sel_setHigh (e : Elem) (v : Byte) (i : Fin 16) : dxt5Sel (dxt5SetHigh e v) i = dxt5Sel e i := by
  simp [dxt5Sel, dxt5Selectors, dxt5SetHigh]

/-- A DXT5 alpha element is its endpoints and its selectors. -/
theorem dxt5_ext {e e' : Elem} (hl : dxt5Low e = dxt5Low e') (hh : dxt5High e = dxt5High e')
    (hs : ∀ i, dxt5Sel e i = dxt5Sel e' i) : e = e' := by
  have hS : dxt5Selectors e = dxt5Selectors e' := by
    apply eq_of_fields (len := 3) (by decide)
    intro i hi
    have := hs ⟨i, by omega⟩
    simpa [dxt5Sel, Nat.mul_comm] using this
  apply dxt3Word_inj
  simp only [dxt5Low, dxt5High] at hl hh
  simp only [dxt5Selectors] at hS
  simp only [dxt3Word, hS, hl, hh]

/-! ### ETC1 -/

@[simp] theorem etc1Word_ofWord (w : BitVec 64) : etc1Word (etc1OfWord w) = w := byteOf_join64 w

theorem etc1Number_lt (i : Fin 16) : etc1Number i < 16 := by
  simp only [etc1Number, pixelX, pixelY]; omega

theorem etc1Number_inj {i j : Fin 16} : etc1Number i = etc1Number j ↔ i = j := by
  constructor
  · intro h
    simp only [etc1Number, pixelX, pixelY] at h
    ext
    omega
  · rintro rfl; rfl

theorem getLsbD_etc1SetSel (e : Elem) (i : Fin 16) (v : BitVec 2) (k : Nat) (hk : k < 64) :
    (etc1Word (etc1SetSel e i v)).getLsbD k =
      if k = etc1Number i then v.getLsbD 0 else if k = 16 + etc1Number i then v.getLsbD 1 else (etc1Word e).getLsbD k := by
  simp only [etc1SetSel, etc1Word_ofWord, getLsbD_replaceField, hk, decide_true, Bool.true_and]
  by_cases h1 : k = etc1Number i
  · subst h1; simp
  · rw [if_neg (by omega), if_neg h1]
    by_cases h2 : k = 16 + etc1Number i
    · subst h2; simp
    · rw [if_neg (by omega), if_neg h2]

theorem bits2 (v : BitVec 2) : BitVec.ofBool (v.getLsbD 1) ++ BitVec.ofBool (v.getLsbD 0) = v := by
  revert v; decide

theorem etc1Sel_setSel (e : Elem) (i : Fin 16) (v : BitVec 2) (j : Fin 16) :
    etc1Sel (etc1SetSel e i v) j = if j = i then v else etc1Sel e j := by
  have hi := etc1Number_lt i
  have hj := etc1Number_lt j
  simp only [etc1Sel]
  rw [getLsbD_etc1SetSel _ _ _ _ (by omega), getLsbD_etc1SetSel _ _ _ _ (by omega)]
  by_cases h : j = i
  · subst h
    rw [if_pos rfl, if_neg (by omega), if_pos rfl, if_pos rfl]
    exact bits2 v
  · have hne : etc1Number j ≠ etc1Number i := fun hh => h (etc1Number_inj.mp hh)
    rw [if_neg h, if_neg (by omega), if_neg (by omega), if_neg hne, if_neg (by omega)]

/-- Selector writes keep the header: W bits 63:32. -/
theorem etc1Header_setSel (e : Elem) (i : Fin 16) (v : BitVec 2) (k : Nat) (hk : 32 ≤ k) :
    (etc1Word (etc1SetSel e i v)).getLsbD k = (etc1Word e).getLsbD k := by
  have hi := etc1Number_lt i
  by_cases h : k < 64
  · rw [getLsbD_etc1SetSel _ _ _ _ h, if_neg (by omega), if_neg (by omega)]
  · rw [BitVec.getLsbD_of_ge _ _ (by omega), BitVec.getLsbD_of_ge _ _ (by omega)]

@[simp] theorem etc1Sel_setAll (e : Elem) (f : Fin 16 → BitVec 2) (i : Fin 16) : etc1Sel (etc1SetAll e f) i = f i := by
  rw [etc1SetAll, foldl_set_get etc1SetSel etc1Sel etc1Sel_setSel, if_pos (mem_pixelIndices i)]

theorem etc1Header_setAll (e : Elem) (f : Fin 16 → BitVec 2) (k : Nat) (hk : 32 ≤ k) :
    (etc1Word (etc1SetAll e f)).getLsbD k = (etc1Word e).getLsbD k := by
  unfold etc1SetAll
  exact foldl_keeps (fun acc i => etc1SetSel acc i (f i)) (fun x => (etc1Word x).getLsbD k)
    (fun e i => etc1Header_setSel e i (f i) k hk) pixelIndices e

/-- A field of the header is kept by any change that keeps the header bits. -/
theorem extract_of_header {w w' : BitVec 64} (h : ∀ k, 32 ≤ k → w.getLsbD k = w'.getLsbD k) (lo len : Nat) (hlo : 32 ≤ lo) :
    w.extractLsb' lo len = w'.extractLsb' lo len := by
  apply BitVec.eq_of_getLsbD_eq
  intro i hi
  simp only [BitVec.getLsbD_extractLsb', hi, decide_true, Bool.true_and]
  exact h _ (by omega)

/-- A big-endian element is its 64-bit integer. -/
theorem etc1Word_inj {e e' : Elem} (h : etc1Word e = etc1Word e') : e = e' := by
  have hb : ∀ k : Nat, byteOf (etc1Word e) k = byteOf (etc1Word e') k := fun k => by rw [h]
  simp only [etc1Word] at hb
  have := fun k hk => (byteOf_append8 e[0] e[1] e[2] e[3] e[4] e[5] e[6] e[7] k hk).symm.trans
    ((hb k).trans (byteOf_append8 e'[0] e'[1] e'[2] e'[3] e'[4] e'[5] e'[6] e'[7] k hk))
  exact elem_ext8 (this 7 (by decide)) (this 6 (by decide)) (this 5 (by decide)) (this 4 (by decide)) (this 3 (by decide))
    (this 2 (by decide)) (this 1 (by decide)) (this 0 (by decide))

/-! ### Elements of the block buffer -/

theorem elemOf_get (b : Block) (k : Fin 2) (j : Nat) (hj : j < 8) : (elemOf b k)[j] = b[8 * k.val + j] := by
  simp [elemOf]

theorem setElem_get (b : Block) (k : Fin 2) (e : Elem) (j : Nat) (hj : j < 16) :
    (setElem b k e)[j] = if h : 8 * k.val ≤ j ∧ j < 8 * k.val + 8 then e[j - 8 * k.val]'(by omega) else b[j] := by
  simp [setElem]

theorem elemOf_setElem (b : Block) (k : Fin 2) (e : Elem) (k' : Fin 2) :
    elemOf (setElem b k e) k' = if k' = k then e else elemOf b k' := by
  apply Vector.ext
  intro j hj
  rw [elemOf_get, setElem_get]
  by_cases h : k' = k
  · subst h
    rw [dif_pos (by omega), if_pos rfl]
    congr 1
    omega
  · have : k'.val ≠ k.val := fun hh => h (Fin.ext hh)
    rw [dif_neg (by omega), if_neg h, elemOf_get]

@[simp] theorem elemOf_setElem_same (b : Block) (k : Fin 2) (e : Elem) : elemOf (setElem b k e) k = e := by
  rw [elemOf_setElem, if_pos rfl]

/-- A block is its two elements. -/
theorem block_ext {b b' : Block} (h0 : elemOf b 0 = elemOf b' 0) (h1 : elemOf b 1 = elemOf b' 1) : b = b' := by
  apply Vector.ext
  intro i hi
  by_cases h : i < 8
  · have := congrArg (fun e : Elem => e[i]'h) h0
    simpa [elemOf_get] using this
  · have hi' : i - 8 < 8 := by omega
    have := congrArg (fun e : Elem => e[i - 8]'hi') h1
    simpa [elemOf_get, show 8 + (i - 8) = i by omega] using this

@[simp] theorem setElem_elemOf (b : Block) (k : Fin 2) : setElem b k (elemOf b k) = b := by
  apply block_ext <;> rw [elemOf_setElem] <;> split <;> simp_all

theorem setElem_setElem (b : Block) (k : Fin 2) (e e' : Elem) : setElem (setElem b k e) k e' = setElem b k e' := by
  apply block_ext <;> simp only [elemOf_setElem] <;> split <;> rfl

end Sys2Proof.Machine
end

