-- ==== Sys2Proof/Laws/Packer.lean ====
section
/-! SUPPORT. What the packer's reads and writes do, byte by byte and bit by bit, and that its writes keep memory canonical. -/

namespace Sys2Proof.Machine

/-! ### Bits of a merged byte -/

theorem getLsbD_mergeByte (old : Byte) (k o s n b : Nat) (hb : b < 8) :
    (mergeByte old k o s n).getLsbD b =
      if o ≤ 8 * k + b ∧ 8 * k + b < o + s then n.testBit (8 * k + b - o) else old.getLsbD b := by
  simp only [mergeByte]
  simp [hb]

/-- A byte the component does not touch is not changed. -/
theorem mergeByte_of_not_mem (old : Byte) {k o s : Nat} (n : Nat) (h : k ∉ componentBytes o s) : mergeByte old k o s n = old := by
  refine BitVec.eq_of_getLsbD_eq fun b hb => ?_
  rw [getLsbD_mergeByte _ _ _ _ _ _ hb, if_neg]
  rintro ⟨h1, h2⟩
  apply h
  have hs : s ≠ 0 := by rintro rfl; omega
  simp only [componentBytes, hs, if_false, List.mem_range'_1]
  omega

theorem componentBytes_nodup (o s : Nat) : (componentBytes o s).Nodup := by
  unfold componentBytes
  split
  · exact List.nodup_nil
  · exact List.nodup_range'

/-! ### Writes -/

theorem putByte_wf (p : Addr) (o s n : Nat) {m : Memory} (hm : Memory.wf m = true) (k : Nat) :
    Memory.wf (putByte p o s n m k) = true := Memory.write_wf hm _ _

theorem pkPut_wf {m : Memory} (hm : Memory.wf m = true) (p : Addr) (o s n : Nat) : Memory.wf (pkPut m p o s n) = true :=
  Memory.foldl_wf _ (fun _ k h => putByte_wf p o s n h k) hm _

theorem packSlot_wf (s : State) (p : Addr) (q : Pixel) {m : Memory} (hm : Memory.wf m = true) (c : Fin 4) :
    Memory.wf (packSlot s p q m c) = true := by
  unfold packSlot; split
  · exact hm
  · exact pkPut_wf hm _ _ _ _

theorem packPixel_wf (s : State) (p : Addr) (q : Pixel) {m : Memory} (hm : Memory.wf m = true) :
    Memory.wf (packPixel s p q m) = true := Memory.foldl_wf _ (fun _ c h => packSlot_wf s p q h c) hm _

theorem packPixels_wf (s : State) (hm : Memory.wf s.mem = true) (first cnt : Nat) : Memory.wf (packPixels s first cnt) = true :=
  Memory.foldl_wf _ (fun _ k h => packPixel_wf s (packedAddr s k) (pixelAt s (first + k)) h) hm _

/-- Every address is one number of bytes on from `p`. -/
theorem addrPlus_sub (p a : Addr) : addrPlus p (a - p).toNat = a := by
  rw [addrPlus, BitVec.ofNat_toNat, BitVec.setWidth_eq, BitVec.add_comm, BitVec.sub_add_cancel]

theorem sub_addrPlus (p : Addr) {k : Nat} (hk : k < 2 ^ 32) : (addrPlus p k - p).toNat = k := by
  rw [← addrPlus_inj (a := p) (BitVec.isLt _) hk, addrPlus_sub]

/-- A run of read-modify-writes of distinct bytes: each byte is merged once. -/
theorem read_foldl_putByte (p : Addr) (o s n : Nat) (ks : List Nat) (hks : ks.Nodup) (hlt : ∀ k ∈ ks, k < 2 ^ 32)
    {m : Memory} (hm : Memory.wf m = true) (a : Addr) :
    Memory.read (ks.foldl (putByte p o s n) m) a =
      if (a - p).toNat ∈ ks then mergeByte (Memory.read m a) (a - p).toNat o s n else Memory.read m a := by
  induction ks generalizing m with
  | nil => simp
  | cons k ks ih =>
    rw [List.nodup_cons] at hks
    have hk := hlt k (by simp)
    rw [List.foldl_cons, ih hks.2 (fun j hj => hlt j (by simp [hj])) (putByte_wf p o s n hm k)]
    simp only [putByte, Memory.read_write hm]
    by_cases ha : a = addrPlus p k
    · subst ha
      rw [sub_addrPlus p hk, if_neg hks.1]
      simp
    · have hne : (a - p).toNat ≠ k := by
        rintro rfl; exact ha (addrPlus_sub p a).symm
      simp only [if_neg ha, List.mem_cons, hne, false_or]

/-- `pk_put` byte by byte (R136): every byte of memory is merged with the component's bits that fall in it. -/
theorem read_pkPut {m : Memory} (hm : Memory.wf m = true) (p : Addr) (o s n : Nat) (h : o + s ≤ 2 ^ 32) (a : Addr) :
    Memory.read (pkPut m p o s n) a = mergeByte (Memory.read m a) (a - p).toNat o s n := by
  rw [pkPut, read_foldl_putByte p o s n _ (componentBytes_nodup o s) _ hm]
  · split
    · rfl
    · rw [mergeByte_of_not_mem _ _ ‹_›]
  · intro k hk
    unfold componentBytes at hk
    split at hk
    · simp at hk
    · simp only [List.mem_range'_1] at hk; omega

/-- `pk_put` bit by bit. -/
theorem getLsbD_read_pkPut {m : Memory} (hm : Memory.wf m = true) (p : Addr) (o s n : Nat) (h : o + s ≤ 2 ^ 32) (a : Addr)
    (b : Nat) (hb : b < 8) :
    (Memory.read (pkPut m p o s n) a).getLsbD b =
      if o ≤ 8 * (a - p).toNat + b ∧ 8 * (a - p).toNat + b < o + s then n.testBit (8 * (a - p).toNat + b - o)
      else (Memory.read m a).getLsbD b := by
  rw [read_pkPut hm p o s n h, getLsbD_mergeByte _ _ _ _ _ _ hb]

/-- One slot of PACK, bit by bit: an absent slot covers nothing. -/
theorem getLsbD_read_packSlot (s : State) (p : Addr) (q : Pixel) {m : Memory} (hm : Memory.wf m = true) (c : Fin 4) (a : Addr)
    (b : Nat) (hb : b < 8) :
    (Memory.read (packSlot s p q m c) a).getLsbD b =
      if slotOfs s c ≤ 8 * (a - p).toNat + b ∧ 8 * (a - p).toNat + b < slotOfs s c + slotSize s c then
        (pkFrom8 (ctrlRescale s.ctrl) (packValue s q c) (slotSize s c)).testBit (8 * (a - p).toNat + b - slotOfs s c)
      else (Memory.read m a).getLsbD b := by
  have hs := s.pkSize[c].isLt
  have ho := s.pkOfs[c].isLt
  unfold packSlot
  split
  · rw [if_neg (by omega)]
  · exact getLsbD_read_pkPut hm _ _ _ _ (by unfold slotSize slotOfs; omega) _ _ hb

/-- With YMODE slots 1 and 2 are ignored (R133). -/
theorem mem_packSlots (s : State) (c : Fin 4) : c ∈ packSlots s ↔ (ctrlYmode s.ctrl = true → c = 0 ∨ c = 3) := by
  unfold packSlots
  cases ctrlYmode s.ctrl <;> (revert c; decide)

/-- PACK as one sequence of slot writes: pixels ascending, slots in order inside a pixel (R139). -/
theorem packPixels_eq_foldl (s : State) (first cnt : Nat) :
    packPixels s first cnt =
      ((List.range cnt).flatMap fun k => (packSlots s).map fun c => (k, c)).foldl
        (fun m kc => packSlot s (packedAddr s kc.1) (pixelAt s (first + kc.1)) m kc.2) s.mem := by
  unfold packPixels
  generalize s.mem = m
  induction (List.range cnt) generalizing m with
  | nil => rfl
  | cons k l ih =>
    rw [List.flatMap_cons, List.foldl_append, List.foldl_cons, ih, List.foldl_map]
    rfl

/-! ### Reads -/

theorem pkGet_lt (m : Memory) (p : Addr) (o s : Nat) : pkGet m p o s < 2 ^ s := by
  induction s with
  | zero => simp [pkGet]
  | succ s ih =>
    rw [pkGet, Nat.pow_succ]
    cases packedBit m p (o + s) <;> simp <;> omega

/-- `pk_get` bit by bit (R131). -/
theorem testBit_pkGet (m : Memory) (p : Addr) (o s j : Nat) :
    (pkGet m p o s).testBit j = (decide (j < s) && packedBit m p (o + j)) := by
  induction s with
  | zero => simp [pkGet]
  | succ s ih =>
    have hlt := pkGet_lt m p o s
    rw [pkGet, Nat.mul_comm, Nat.add_comm, Nat.testBit_two_pow_mul_add _ hlt]
    by_cases hj : j < s
    · rw [if_pos hj, ih]; simp [hj, Nat.lt_succ_of_lt hj]
    · rw [if_neg hj]
      by_cases hjs : j = s
      · subst hjs; cases packedBit m p (o + j) <;> simp
      · have : ¬ j < s + 1 := by omega
        have h0 : j - s ≠ 0 := by omega
        cases packedBit m p (o + s)
        · simp [this]
        · rw [decide_eq_false this, Bool.toNat_true, Bool.false_and, ← Bool.not_eq_true,
            Nat.testBit_one_eq_true_iff_self_eq_zero]
          exact h0

end Sys2Proof.Machine
end

