-- ==== Sys2Proof/Laws/PerInstr.lean ====
section
/-! SUPPORT. Facts about every command, one lemma a constructor. -/

namespace Sys2Proof.Laws.EncodedFields

/-- The three fields of the encoded word are the command's opcode, f1 and imm (R70, R71). -/
def Statement (i : Instr) : Prop :=
  opField (encode i) = i.opcode ∧ f1Field (encode i) = i.f1Bits ∧ immField (encode i) = i.immBits

theorem all (i : Instr) : Statement i :=
  ⟨opField_packWord _ _ _, f1Field_packWord _ _ _, immField_packWord _ _ _⟩

theorem nop : Statement .nop := all _
theorem wrcr (cr : CtrlReg) (imm16 : BitVec 16) : Statement (.wrcr cr imm16) := all _
theorem wrcrh (cr : CtrlReg) (imm16 : BitVec 16) : Statement (.wrcrh cr imm16) := all _
theorem rdcr (cr : CtrlReg) : Statement (.rdcr cr) := all _
theorem clrst (mask : BitVec 4) : Statement (.clrst mask) := all _
theorem ldblk : Statement .ldblk := all _
theorem stblk : Statement .stblk := all _
theorem unpk (first : Fin 16) (cnt : Fin 32) : Statement (.unpk first cnt) := all _
theorem pack (first : Fin 16) (cnt : Fin 32) : Statement (.pack first cnt) := all _
theorem dec : Statement .dec := all _
theorem decpx (i : Fin 16) : Statement (.decpx i) := all _
theorem qnt (i : Fin 16) (e : Endpoint) : Statement (.qnt i e) := all _
theorem setea (i : Fin 16) (e : Endpoint) : Statement (.setea i e) := all _
theorem enca3 : Statement .enca3 := all _
theorem selc : Statement .selc := all _
theorem sela : Statement .sela := all _
theorem setpx (i : Fin 16) : Statement (.setpx i) := all _
theorem canon (mode : ColourScheme) : Statement (.canon mode) := all _
theorem canona (mode : AlphaScheme) : Statement (.canona mode) := all _
theorem flipx : Statement .flipx := all _
theorem flipy : Statement .flipy := all _

end Sys2Proof.Laws.EncodedFields
end

