-- ==== Sys2Proof/Laws/Quad.lean ====
section
/-! SUPPORT. Bounds on component arithmetic and on the error sums. -/

namespace Sys2Proof.Machine

theorem toNat_toByte {n : Nat} (h : n < 256) : (toByte n).toNat = n := by
  rw [toByte, BitVec.toNat_ofNat, Nat.mod_eq_of_lt h]

theorem sqDiff_le (a b : Byte) : sqDiff a b ≤ 65025 := by
  have := a.isLt
  have := b.isLt
  have h : ((a.toNat : Int) - b.toNat).natAbs ≤ 255 := by omega
  exact Nat.pow_le_pow_left h 2

/-- The squared difference is a square of integers. -/
theorem sqDiff_cast (a b : Byte) : ((sqDiff a b : Nat) : Int) = ((a.toNat : Int) - b.toNat) ^ 2 := by
  unfold sqDiff; push_cast; exact sq_abs _

@[simp] theorem sqDiff_self (a : Byte) : sqDiff a a = 0 := by simp [sqDiff]

/-- Sixteen errors of at most `bound` sum to at most sixteen times it. -/
theorem totalError_le (d : Fin 16 → Nat) (bound : Nat) (h : ∀ i, d i ≤ bound) : totalError d ≤ 16 * bound := by
  have := List.sum_le_card_nsmul ((List.finRange 16).map d) bound (by simpa using h)
  simpa [totalError, pixelIndices] using this

/-- An error below 2^32 is what ERR then reads as. -/
theorem toNat_errWord {n : Nat} (h : n < 2 ^ 32) : (errWord n).toNat = n := by
  rw [errWord, BitVec.toNat_ofNat, Nat.mod_eq_of_lt h]

/-- `rescale` stays in the target range (R11). -/
theorem rescale_le {n fromMax toMax : Nat} (h1 : 1 ≤ fromMax) (h : n ≤ fromMax) : rescale n fromMax toMax ≤ toMax := by
  have h2 : n * toMax ≤ fromMax * toMax := Nat.mul_le_mul_right _ h
  unfold rescale
  rw [Nat.le_iff_lt_add_one, Nat.div_lt_iff_lt_mul (by omega), Nat.add_mul, Nat.mul_comm toMax]
  omega

end Sys2Proof.Machine
end

