-- ==== Sys2Proof/Machine/Assembler.lean ====
section
/-! DEFINITION. The host's assembler: spec/30_encoding.md R75 (syntax), R76 (pseudo-instructions). Text in, command words out; none means
an assembly-time failure that issues no command. What R75 does not give of the text's form is log entry 9. -/

namespace Sys2Proof.Machine

/-! ### Text -/

/-- A blank. -/
def isBlank (c : Char) : Bool := c == ' ' || c == '\t' || c == '\r'

/-- Leading blanks dropped. -/
def dropBlanks : List Char → List Char
  | [] => []
  | c :: cs => if isBlank c then dropBlanks cs else c :: cs

/-- Blanks dropped at both ends. -/
def trimBlanks (cs : List Char) : List Char := (dropBlanks (dropBlanks cs).reverse).reverse

/-- The pieces between the separators. -/
def splitChars (sep : Char) : List Char → List (List Char)
  | [] => [[]]
  | c :: cs =>
    if c = sep then [] :: splitChars sep cs
    else
      match splitChars sep cs with
      | [] => [[c]]
      | w :: ws => (c :: w) :: ws

/-- The text before a comment: `;` starts one (R75). -/
def uncomment (cs : List Char) : List Char := cs.takeWhile fun c => c != ';'

/-- The mnemonic of a line. -/
def mnemonicOf (cs : List Char) : List Char := cs.takeWhile fun c => !isBlank c

/-- What follows the mnemonic. -/
def afterMnemonic (cs : List Char) : List Char := dropBlanks (cs.dropWhile fun c => !isBlank c)

/-- The operands of a line: separated by commas (R75). -/
def operandsOf (cs : List Char) : List (List Char) :=
  match dropBlanks cs with
  | [] => []
  | c :: rest => (splitChars ',' (c :: rest)).map trimBlanks

/-! ### Operands -/

/-- The value of a hexadecimal digit. -/
def hexDigit (c : Char) : Option Nat :=
  if '0' ≤ c ∧ c ≤ '9' then some (c.toNat - '0'.toNat)
  else if 'a' ≤ c ∧ c ≤ 'f' then some (c.toNat - 'a'.toNat + 10)
  else if 'A' ≤ c ∧ c ≤ 'F' then some (c.toNat - 'A'.toNat + 10)
  else none

/-- Digits in a base, most significant first, after a value already read. -/
def digitsFrom (digit : Char → Option Nat) (base : Nat) : Nat → List Char → Option Nat
  | acc, [] => some acc
  | acc, c :: cs =>
    match digit c with
    | some d => digitsFrom digit base (base * acc + d) cs
    | none => none

/-- A number: decimal or `0x` hexadecimal (R75). -/
def numberOf (cs : List Char) : Option Nat :=
  match cs with
  | [] => none
  | '0' :: 'x' :: d :: ds => digitsFrom hexDigit 16 0 (d :: ds)
  | d :: ds => digitsFrom decDigit 10 0 (d :: ds)

/-- A number below a bound. -/
def boundedNumber (bound : Nat) (cs : List Char) : Option Nat :=
  match numberOf cs with
  | some n => if n < bound then some n else none
  | none => none

/-- The names of the control registers (R75). -/
def ctrlRegNames : List (List Char × CtrlReg) :=
  [(['F', 'M', 'T'], .fmt), (['C', 'T', 'R', 'L'], .ctrl), (['S', 'T', 'A', 'T', 'U', 'S'], .status),
    (['E', 'R', 'R'], .err), (['B', 'P', 'T', 'R'], .bptr), (['P', 'P', 'T', 'R'], .pptr),
    (['P', 'K', '_', 'S', 'T', 'R', 'I', 'D', 'E'], .pkStride)]
  ++ [(['P', 'K', '_', 'S', 'I', 'Z', 'E', '0'], .pkSize 0), (['P', 'K', '_', 'S', 'I', 'Z', 'E', '1'], .pkSize 1),
    (['P', 'K', '_', 'S', 'I', 'Z', 'E', '2'], .pkSize 2), (['P', 'K', '_', 'S', 'I', 'Z', 'E', '3'], .pkSize 3)]
  ++ [(['P', 'K', '_', 'O', 'F', 'S', '0'], .pkOfs 0), (['P', 'K', '_', 'O', 'F', 'S', '1'], .pkOfs 1),
    (['P', 'K', '_', 'O', 'F', 'S', '2'], .pkOfs 2), (['P', 'K', '_', 'O', 'F', 'S', '3'], .pkOfs 3)]

/-- A control register, by name or by number 0..255 (R75): its number. A reserved number assembles to an illegal word. -/
def ctrlNumberOf (cs : List Char) : Option Nat :=
  match ctrlRegNames.lookup cs with
  | some cr => some cr.number.toNat
  | none => boundedNumber 256 cs

/-- A control register that exists, by name or by number. -/
def ctrlRegNamed (cs : List Char) : Option CtrlReg :=
  match ctrlNumberOf cs with
  | some n => ctrlRegOf (BitVec.ofNat 8 n)
  | none => none

/-- The format names of SETFMT (R76); NONE is code 0. -/
def formatNames : List (List Char × Option BlockFormat) :=
  [(['N', 'O', 'N', 'E'], none), (['D', 'X', 'T', '1'], some .dxt1), (['D', 'X', 'T', '1', 'A'], some .dxt1a),
    (['D', 'X', 'T', '3'], some .dxt3), (['D', 'X', 'T', '5'], some .dxt5), (['D', 'X', 'T', '5', 'A'], some .dxt5a),
    (['E', 'T', 'C', '1'], some .etc1)]

/-- A quoted text. -/
def quotedOf (cs : List Char) : Option (List Char) :=
  match cs with
  | '"' :: rest =>
    match rest.reverse with
    | '"' :: body => some body.reverse
    | _ => none
  | _ => none

/-! ### Command words -/

/-- A word from an opcode and the numbers of its fields. -/
def wordOf (op f1 imm : Nat) : Word := packWord (BitVec.ofNat 8 op) (BitVec.ofNat 8 f1) (BitVec.ofNat 16 imm)

/-- Format N: no operand. -/
def assembleN (op : Nat) (args : List (List Char)) : Option (List Word) :=
  match args with
  | [] => some [wordOf op 0 0]
  | _ => none

/-- Format C: `cr, imm16`. -/
def assembleC (op : Nat) (args : List (List Char)) : Option (List Word) :=
  match args with
  | [a, b] =>
    match ctrlNumberOf a, boundedNumber 65536 b with
    | some cr, some v => some [wordOf op cr v]
    | _, _ => none
  | _ => none

/-- Format R: `cr`. -/
def assembleR (op : Nat) (args : List (List Char)) : Option (List Word) :=
  match args with
  | [a] => (ctrlNumberOf a).map fun cr => [wordOf op cr 0]
  | _ => none

/-- Format K: CLRST's mask, written as the value of `imm` (R75). -/
def assembleK (op : Nat) (args : List (List Char)) : Option (List Word) :=
  match args with
  | [a] =>
    match boundedNumber 32 a with
    | some v => if v % 2 = 0 then some [wordOf op 0 v] else none
    | none => none
  | _ => none

/-- Format I: `i`. -/
def assembleI (op : Nat) (args : List (List Char)) : Option (List Word) :=
  match args with
  | [a] => (boundedNumber 16 a).map fun i => [wordOf op i 0]
  | _ => none

/-- Formats IE and U: a pixel index and a number below a bound (2 for `e`, 32 for `cnt`). -/
def assemblePair (op bound : Nat) (args : List (List Char)) : Option (List Word) :=
  match args with
  | [a, b] =>
    match boundedNumber 16 a, boundedNumber bound b with
    | some i, some v => some [wordOf op i v]
    | _, _ => none
  | _ => none

/-- Format M: `mode`. -/
def assembleM (op : Nat) (args : List (List Char)) : Option (List Word) :=
  match args with
  | [a] => (boundedNumber 2 a).map fun m => [wordOf op 0 m]
  | _ => none

/-- The words of an expansion. -/
def wordsOf (is : Option (List Instr)) : Option (List Word) := is.map fun l => l.map encode

/-- `LI cr, v32` (R76). DESIGN CHOICE (log entry 9): a `v32` of 2^32 or more is an assembly error. Safe. -/
def assembleLi (args : List (List Char)) : Option (List Word) :=
  match args with
  | [a, b] =>
    match ctrlRegNamed a, boundedNumber (2 ^ 32) b with
    | some cr, some v => wordsOf (expandLi cr (BitVec.ofNat 32 v))
    | _, _ => none
  | _ => none

/-- `SETFMT name` (R76). -/
def assembleSetfmt (args : List (List Char)) : Option (List Word) :=
  match args with
  | [a] =>
    match formatNames.lookup a with
    | some f => wordsOf (some (expandSetfmt f))
    | none => none
  | _ => none

/-- An optional `ctrl_base`, 0 if omitted (R76, R140). DESIGN CHOICE (log entry 9): a `ctrl_base` of 65536 or more is an assembly error;
R140 and R141 list no such error and only mask the value with 0xFF03. Safe. -/
def ctrlBaseOf (args : List (List Char)) : Option (BitVec 16) :=
  match args with
  | [] => some 0
  | [a] => (boundedNumber 65536 a).map fun v => BitVec.ofNat 16 v
  | _ => none

/-- `PKSPEC "text", ctrl_base` (R140). -/
def assemblePkspec (args : List (List Char)) : Option (List Word) :=
  match args with
  | a :: more =>
    match quotedOf a, ctrlBaseOf more with
    | some text, some base => wordsOf (expandPkspec text base)
    | _, _ => none
  | [] => none

/-- `PKINIT n, bits, stride, reversed, ctrl_base` (R141). -/
def assemblePkinit (args : List (List Char)) : Option (List Word) :=
  match args with
  | a :: b :: c :: d :: more =>
    match numberOf a, numberOf b, numberOf c, numberOf d, ctrlBaseOf more with
    | some n, some bits, some stride, some rev, some base => wordsOf (expandPkinit n bits stride rev base)
    | _, _, _, _, _ => none
  | _ => none

/-- What a mnemonic assembles to (R72, R75, R76). -/
def assemblers : List (List Char × (List (List Char) → Option (List Word))) :=
  [(['N', 'O', 'P'], assembleN 0x00), (['W', 'R', 'C', 'R'], assembleC 0x01), (['W', 'R', 'C', 'R', 'H'], assembleC 0x02),
    (['R', 'D', 'C', 'R'], assembleR 0x03), (['C', 'L', 'R', 'S', 'T'], assembleK 0x04),
    (['L', 'D', 'B', 'L', 'K'], assembleN 0x10), (['S', 'T', 'B', 'L', 'K'], assembleN 0x11)]
  ++ [(['U', 'N', 'P', 'K'], assemblePair 0x20 32), (['P', 'A', 'C', 'K'], assemblePair 0x21 32),
    (['D', 'E', 'C'], assembleN 0x30), (['D', 'E', 'C', 'P', 'X'], assembleI 0x31),
    (['Q', 'N', 'T'], assemblePair 0x40 2), (['S', 'E', 'T', 'E', 'A'], assemblePair 0x41 2),
    (['E', 'N', 'C', 'A', '3'], assembleN 0x42), (['S', 'E', 'L', 'C'], assembleN 0x43)]
  ++ [(['S', 'E', 'L', 'A'], assembleN 0x44), (['S', 'E', 'T', 'P', 'X'], assembleI 0x45),
    (['C', 'A', 'N', 'O', 'N'], assembleM 0x46), (['C', 'A', 'N', 'O', 'N', 'A'], assembleM 0x47),
    (['F', 'L', 'I', 'P', 'X'], assembleN 0x50), (['F', 'L', 'I', 'P', 'Y'], assembleN 0x51)]
  ++ [(['L', 'I'], assembleLi), (['S', 'E', 'T', 'F', 'M', 'T'], assembleSetfmt),
    (['P', 'K', 'S', 'P', 'E', 'C'], assemblePkspec), (['P', 'K', 'I', 'N', 'I', 'T'], assemblePkinit)]

/-- One line: blank, a comment, a command or a pseudo-instruction (R75, R76). -/
def assembleLine (line : List Char) : Option (List Word) :=
  match trimBlanks (uncomment line) with
  | [] => some []
  | c :: cs =>
    match assemblers.lookup (mnemonicOf (c :: cs)) with
    | some f => f (operandsOf (afterMnemonic (c :: cs)))
    | none => none

/-- The lines in order; one that fails fails the whole text, and no command is issued (R76). -/
def assembleLines : List (List Char) → Option (List Word)
  | [] => some []
  | l :: ls =>
    match assembleLine l, assembleLines ls with
    | some ws, some more => some (ws ++ more)
    | _, _ => none

/-- A text, one command per line (R75). -/
def assemble (text : List Char) : Option (List Word) := assembleLines (splitChars '\n' text)

/-- A host about to present the words of a program, in order (R33). -/
def hostProgram (ws : List Word) : List HostEvent := ws.map fun w => .command w

end Sys2Proof.Machine
end

