-- ==== Sys2Proof/Tests/Slice0.lean ====
section
/-! SUPPORT. Tests. Expected values are the spec's: worked examples of its rules, the encoding tables R71, R72, and the vectors of
95_test_vectors.md, whose ids stand in the comments. Then one witness for each statement that has hypotheses. -/

namespace Sys2Proof.Tests

open Sys2Proof.Machine Sys2Proof.Claims

/-! ### A small state -/

/-- Eight bytes of `77`, for an element a command must not touch. -/
def sevens : Elem := Vector.replicate 8 0x77

/-- A block of two elements. -/
def block (e0 e1 : Elem) : Block := setElem (setElem (Vector.replicate 16 0) 0 e0) 1 e1

/-- A state with a format code and a block, black opaque pixels. -/
def stateOf (f : BitVec 3) (b : Block) : State :=
  { State.reset with fmt := f, blk := b, pix := Vector.replicate 16 ⟨0, 0, 0, 255⟩ }

/-- What holds of the next state. -/
def nextSatisfies (r : Result) (p : State → Bool) : Bool :=
  match r with
  | .next t => p t
  | .fault _ => false
  | .refused _ => false

/-- The opaque red and blue element of T-DXT1-1. -/
def opaqueElem : Elem := #v[0x00, 0xF8, 0x1F, 0x00, 0xE4, 0xE4, 0x1B, 0xFF]

/-- The cutout element of T-DXT1-2. -/
def cutoutElem : Elem := #v[0x1F, 0x00, 0x00, 0xF8, 0xE4, 0xE4, 0x1B, 0xFF]

/-- The 8-level element of T-DXT5-1: the selector of pixel i is i mod 8. -/
def eightElem : Elem := #v[0xFF, 0x00, 0x88, 0xC6, 0xFA, 0x88, 0xC6, 0xFA]

/-- The element of T-ETC1-1. -/
def etc1Elem : Elem := #v[0x82, 0x84, 0x86, 0x04, 0xFF, 0x00, 0xF0, 0xF0]

/-- The invalid element of T-ETC1-3. -/
def etc1BadElem : Elem := #v[0xF3, 0x78, 0x0C, 0x02, 0x00, 0x00, 0x00, 0x00]

/-! ### WellFormed: each check refuses an ill-formed term -/

theorem test_wf_wrcr_status : (Instr.wrcr .status 0).wellFormed = false := by decide
theorem test_wf_wrcr_err : (Instr.wrcr .err 0).wellFormed = false := by decide
theorem test_wf_wrcrh_fmt : (Instr.wrcrh .fmt 1).wellFormed = false := by decide
theorem test_wf_unpk_zero : (Instr.unpk 0 0).wellFormed = false := by decide
theorem test_wf_unpk_seventeen : (Instr.unpk 0 17).wellFormed = false := by decide
theorem test_wf_pack_past_end : (Instr.pack 15 2).wellFormed = false := by decide
theorem test_wf_legal : ((Instr.pack 15 1).wellFormed && (Instr.unpk 0 16).wellFormed && (Instr.wrcr .fmt 7).wellFormed) = true := by
  decide

/-! ### Decoding: words written out from R70 to R72 -/

theorem test_decode_nop : decode 0b00000000_00000000_0000000000000000 = .ok .nop := by rfl
theorem test_decode_wrcr : decode 0b00000001_00001101_0000000000001010 = .ok (.wrcr (.pkOfs 1) 10) := by rfl
theorem test_decode_wrcrh : decode 0b00000010_00000101_1000000000000000 = .ok (.wrcrh .pptr 0x8000) := by rfl
theorem test_decode_rdcr : decode 0b00000011_00000010_0000000000000000 = .ok (.rdcr .status) := by rfl
theorem test_decode_clrst : decode 0b00000100_00000000_0000000000010100 = .ok (.clrst 0b1010) := by rfl
theorem test_decode_ldblk : decode 0b00010000_00000000_0000000000000000 = .ok .ldblk := by rfl
theorem test_decode_stblk : decode 0b00010001_00000000_0000000000000000 = .ok .stblk := by rfl
theorem test_decode_unpk : decode 0b00100000_00000010_0000000000001110 = .ok (.unpk 2 14) := by rfl
theorem test_decode_pack : decode 0b00100001_00001111_0000000000000001 = .ok (.pack 15 1) := by rfl
theorem test_decode_dec : decode 0b00110000_00000000_0000000000000000 = .ok .dec := by rfl
theorem test_decode_decpx : decode 0b00110001_00000101_0000000000000000 = .ok (.decpx 5) := by rfl
theorem test_decode_qnt : decode 0b01000000_00001110_0000000000000001 = .ok (.qnt 14 .high) := by rfl
theorem test_decode_setea : decode 0b01000001_00000011_0000000000000000 = .ok (.setea 3 .low) := by rfl
theorem test_decode_enca3 : decode 0b01000010_00000000_0000000000000000 = .ok .enca3 := by rfl
theorem test_decode_selc : decode 0b01000011_00000000_0000000000000000 = .ok .selc := by rfl
theorem test_decode_sela : decode 0b01000100_00000000_0000000000000000 = .ok .sela := by rfl
theorem test_decode_setpx : decode 0b01000101_00001010_0000000000000000 = .ok (.setpx 10) := by rfl
theorem test_decode_canon : decode 0b01000110_00000000_0000000000000001 = .ok (.canon .threeColour) := by rfl
theorem test_decode_canona : decode 0b01000111_00000000_0000000000000000 = .ok (.canona .eightLevel) := by rfl
theorem test_decode_flipx : decode 0b01010000_00000000_0000000000000000 = .ok .flipx := by rfl
theorem test_decode_flipy : decode 0b01010001_00000000_0000000000000000 = .ok .flipy := by rfl

/-- T-CTL-2, 3, 6 to 11, 17 to 19: the illegal words, each rejected by name. -/
theorem test_decode_rejects :
    decode 0x00000001 = .error .mustBeZero ∧ decode 0xFF000000 = .error (.reservedOpcode 0xFF)
      ∧ decode 0x01070000 = .error (.controlRegister 7) ∧ decode 0x01020000 = .error (.controlRegister 2)
      ∧ decode 0x02000001 = .error (.controlRegister 0) ∧ decode 0x03100000 = .error (.controlRegister 16)
      ∧ decode 0x03020001 = .error .mustBeZero ∧ decode 0x04000001 = .error .mustBeZero
      ∧ decode 0x04000020 = .error .mustBeZero ∧ decode 0x20000000 = .error .pixelRange
      ∧ decode 0x20000011 = .error .pixelRange ∧ decode 0x200F0002 = .error .pixelRange
      ∧ decode 0x20100001 = .error .mustBeZero ∧ decode 0x31100000 = .error .mustBeZero
      ∧ decode 0x40000002 = .error .mustBeZero ∧ decode 0x46000002 = .error .mustBeZero := by
  refine ⟨rfl, rfl, rfl, rfl, rfl, rfl, rfl, rfl, rfl, rfl, rfl, rfl, rfl, rfl, rfl, rfl⟩

/-- The host's reading of a table row: the same word, and none for an illegal one. -/
theorem test_decodeTableWord : decodeTableWord 32 0x45050000 = some (.setpx 5) ∧ decodeTableWord 32 0xFF000000 = none := by
  decide

/-- `withFetchWord` presents the word that the next step executes (T-CTL-4). -/
theorem test_step_runs_word : nextSatisfies (step (State.reset.withFetchWord 32 0x01000004))
    (fun t => t.fmt == 4 && t.status == 1 && t.host.isEmpty) = true := by decide

/-- T-CTL-3: an illegal word from reset leaves STATUS 0x02 and nothing else. -/
theorem test_step_illegal_word : nextSatisfies
    (step (State.reset.withFetchWord 32 0x05000000))
    (fun t => t == { State.reset with status := 2 }) = true := by decide

/-! ### One step of each command -/

/-- T-CTL-1. -/
theorem test_nop : nextSatisfies
    (exec .nop State.reset)
    (fun t => t == { State.reset with status := 1 }) = true := by decide

/-- T-CTL-12, the write: CTRL keeps 0xFF07 of 0xFFFF. -/
theorem test_wrcr_ctrl : nextSatisfies
    (exec (.wrcr .ctrl 0xFFFF) State.reset)
    (fun t => t == { State.reset with ctrl := 0xFF07, status := 1 }) = true := by decide

/-- T-CTL-13: PK_SIZE0 refuses 33. -/
theorem test_wrcr_size : nextSatisfies
    (exec (.wrcr (.pkSize 0) 33) State.reset)
    (fun t => t == { State.reset with status := 4 }) = true := by decide

/-- T-CTL-15, its second command. -/
theorem test_wrcrh : nextSatisfies
    (exec (.wrcrh .bptr 0x8000) { State.reset with bptr := 0x2000 })
    (fun t => t == { State.reset with bptr := 0x80002000, status := 1 }) = true := by decide

/-- T-CTL-20: RDCR STATUS reads the value before its own update of OK. -/
theorem test_rdcr_status : nextSatisfies
    (exec (.rdcr .status) { State.reset with status := 4 })
    (fun t => t == { State.reset with resp := 4, status := 5 }) = true := by decide

/-- T-CTL-20: CLRST 0x04 clears CFGERR only. -/
theorem test_clrst : nextSatisfies
    (exec (.clrst 0b0010) { State.reset with status := 0b10101 })
    (fun t => t == { State.reset with status := 0b10001 }) = true := by decide

/-- T-XF-5: a block across the top of memory. -/
theorem test_ldblk_wraps : nextSatisfies
    (exec .ldblk { stateOf 1 (block sevens sevens) with
      bptr := 0xFFFFFFFC
      mem := [(0, 5), (1, 6), (2, 7), (3, 8), (0xFFFFFFFC, 1), (0xFFFFFFFD, 2), (0xFFFFFFFE, 3), (0xFFFFFFFF, 4)] })
    (fun t => t.blk == block #v[1, 2, 3, 4, 5, 6, 7, 8] sevens && t.bptr == 4) = true := by decide

/-- T-XF-4: one element stored, the pointer advanced by 8. -/
theorem test_stblk : nextSatisfies
    (exec .stblk { stateOf 5 (block #v[0x18, 0x19, 0x1A, 0x1B, 0x1C, 0x1D, 0x1E, 0x1F] sevens) with bptr := 0x200 })
    (fun t => Memory.read t.mem 0x200 == 0x18 && Memory.read t.mem 0x207 == 0x1F && t.mem.length == 8 && t.bptr == 0x208) = true := by
  decide

/-- R137's example: B5G6R5 with RESCALE. -/
theorem test_unpk : nextSatisfies
    (exec (.unpk 0 2) { stateOf 0 (block sevens sevens) with
      ctrl := 2, pkStride := 2, pkSize := #v[5, 6, 5, 0], pkOfs := #v[11, 5, 0, 0], pptr := 0x40
      mem := [(0x41, 0xF8), (0x42, 0x1F)] })
    (fun t => t.pix[0] == ⟨255, 0, 0, 255⟩ && t.pix[1] == ⟨0, 0, 255, 255⟩ && t.pptr == 0x44) = true := by decide

/-- T-PK-9: a 32-bit field at an odd bit offset; T-PK-4's luma is `test_pack_luma`. -/
theorem test_pack_wide : nextSatisfies
    (exec (.pack 0 1) { stateOf 0 (block sevens sevens) with
      ctrl := 2, pkStride := 5, pkSize := #v[32, 0, 0, 0], pkOfs := #v[4, 0, 0, 0], pptr := 0x40
      pix := Vector.replicate 16 ⟨128, 0, 0, 0⟩ })
    (fun t => t.mem == [(0x41, 8), (0x42, 8), (0x43, 8), (0x44, 8)] && t.pptr == 0x45) = true := by decide

theorem test_pack_luma : nextSatisfies
    (exec (.pack 0 1) { stateOf 0 (block sevens sevens) with
      ctrl := 4, pkStride := 2, pkSize := #v[8, 0, 0, 8], pkOfs := #v[0, 0, 0, 8], pptr := 0x50
      pix := Vector.replicate 16 ⟨0, 255, 0, 10⟩ })
    (fun t => t.mem == [(0x50, 0x96), (0x51, 0x0A)]) = true := by decide

/-- T-DXT1-1 and T-DXT1-2: opaque entry 3 as corrected by 90_conflicts.md C1, and the DXT1A transparent entry. -/
theorem test_dec_opaque : nextSatisfies (exec .dec (stateOf 1 (block opaqueElem sevens)))
    (fun t => t.pix[3] == ⟨85, 0, 170, 255⟩ && t.pix[8] == ⟨85, 0, 170, 255⟩ && t.pix[2] == ⟨170, 0, 85, 255⟩) = true := by decide

/-- T-ETC1-3: an invalid block clamps, sets INVBLK, and succeeds. -/
theorem test_dec_invalid : nextSatisfies (exec .dec (stateOf 6 (block etc1BadElem sevens)))
    (fun t => t.status == 9 && t.pix[0] == ⟨249, 125, 10, 255⟩ && t.pix[3] == ⟨255, 125, 2, 255⟩) = true := by decide

/-- T-DXT5-3, pixel 9: colour 127, 0, 127 and alpha 36. -/
theorem test_decpx_dxt5 : nextSatisfies
    (exec (.decpx 9) (stateOf 4 (block #v[0xFF, 0x00, 0x88, 0x46, 0x11, 0xFA, 0xC6, 0x5E] cutoutElem)))
    (fun t => t.pix[9] == ⟨127, 0, 127, 36⟩ && t.pix[8] == ⟨0, 0, 0, 255⟩) = true := by decide

/-- T-ETC1-1, pixel 2: raw index x, sub-block 2. -/
theorem test_decpx_etc1 : nextSatisfies (exec (.decpx 2) (stateOf 6 (block etc1Elem sevens)))
    (fun t => t.pix[2] == ⟨29, 63, 97, 255⟩ && t.status == 1) = true := by decide

/-- T-QNT-1: DXT3's colour endpoints are in element 1. -/
theorem test_qnt : nextSatisfies
    (exec (.qnt 0 .high) { stateOf 3 (block sevens sevens) with pix := Vector.replicate 16 ⟨255, 0, 0, 7⟩ })
    (fun t => t.blk == block sevens #v[0x77, 0x77, 0x00, 0xF8, 0x77, 0x77, 0x77, 0x77]) = true := by decide

/-- T-QNT-2. -/
theorem test_setea : nextSatisfies
    (exec (.setea 0 .low) { stateOf 4 (block sevens sevens) with pix := Vector.replicate 16 ⟨0, 0, 0, 200⟩ })
    (fun t => t.blk == block #v[0xC8, 0x77, 0x77, 0x77, 0x77, 0x77, 0x77, 0x77] sevens) = true := by decide

/-- T-QNT-3. -/
theorem test_enca3 : nextSatisfies
    (exec .enca3 { stateOf 3 (block sevens sevens) with
      pix := #v[⟨0, 0, 0, 0⟩, ⟨0, 0, 0, 8⟩, ⟨0, 0, 0, 9⟩, ⟨0, 0, 0, 25⟩, ⟨0, 0, 0, 26⟩, ⟨0, 0, 0, 127⟩, ⟨0, 0, 0, 128⟩,
        ⟨0, 0, 0, 136⟩, ⟨0, 0, 0, 144⟩, ⟨0, 0, 0, 145⟩, ⟨0, 0, 0, 200⟩, ⟨0, 0, 0, 246⟩, ⟨0, 0, 0, 247⟩, ⟨0, 0, 0, 255⟩,
        ⟨0, 0, 0, 17⟩, ⟨0, 0, 0, 34⟩] })
    (fun t => t.blk == block #v[0x00, 0x11, 0x72, 0x88, 0x98, 0xEC, 0xFF, 0x21] sevens) = true := by decide +kernel

/-- T-SEL-3 and T-SEL-2 in small: black opaque pixels of a cutout DXT1A element get entry 2; transparent ones entry 3 with error 0. -/
theorem test_selc_cutout : nextSatisfies
    (exec .selc { stateOf 2 (block cutoutElem sevens) with ctrl := 0x8000, pix := (Vector.replicate 16 ⟨0, 0, 0, 255⟩).set 5 ⟨0, 0, 0, 127⟩ })
    (fun t => t.blk == block #v[0x1F, 0x00, 0x00, 0xF8, 0xAA, 0xAE, 0xAA, 0xAA] sevens && t.err == 15 * 32258) = true := by decide +kernel

/-- T-SEL-2, one pixel: the perceptual weights change the choice. -/
theorem test_selc_weights :
    (selDxt1 .dxt1 0 #v[0x00, 0xF8, 0xE0, 0x07, 0, 0, 0, 0] ⟨130, 130, 0, 255⟩ = (2, 3625)) ∧
      (selDxt1 .dxt1 1 #v[0x00, 0xF8, 0xE0, 0x07, 0, 0, 0, 0] ⟨130, 130, 0, 255⟩ = (3, 56200)) := by decide

/-- T-SELA-2, one pixel: 50 ties between entries 0 (100) and 6 (the constant 0), the lower index wins; and a whole command. -/
theorem test_sela_tie : selDxt5 #v[0x64, 0xC8, 0, 0, 0, 0, 0, 0] 50 = (0, 2500) := by decide

theorem test_sela : nextSatisfies
    (exec .sela { stateOf 4 (block #v[0x64, 0xC8, 0, 0, 0, 0, 0, 0] sevens) with pix := Vector.replicate 16 ⟨9, 9, 9, 255⟩ })
    (fun t => t.blk == block #v[0x64, 0xC8, 0xFF, 0xFF, 0xFF, 0xFF, 0xFF, 0xFF] sevens && t.err == 0) = true := by decide +kernel

/-- T-SETPX-2, DXT5: two selectors, and ERR is the sum. -/
theorem test_setpx : nextSatisfies
    (exec (.setpx 2) { stateOf 4 (block #v[0xFF, 0, 0, 0, 0, 0, 0, 0] #v[0x00, 0xF8, 0x1F, 0x00, 0, 0, 0, 0]) with
      pix := Vector.replicate 16 ⟨90, 0, 160, 100⟩ })
    (fun t => t.blk == block #v[0xFF, 0, 0x40, 0x01, 0, 0, 0, 0] #v[0x00, 0xF8, 0x1F, 0x00, 0x30, 0, 0, 0] && t.err == 206) = true := by
  decide

/-- T-CAN-1, first row, and its equal-endpoints row. -/
theorem test_canon_swap : nextSatisfies
    (exec (.canon .fourColour) (stateOf 1 (block #v[0x1F, 0x00, 0x00, 0xF8, 0xE4, 0x1B, 0x00, 0xFF] sevens)))
    (fun t => t.blk == block #v[0x00, 0xF8, 0x1F, 0x00, 0xB1, 0x4E, 0x55, 0xAA] sevens) = true := by decide +kernel

theorem test_canon_equal : nextSatisfies
    (exec (.canon .fourColour) (stateOf 1 (block #v[0x10, 0x84, 0x10, 0x84, 0xE4, 0x1B, 0x00, 0xFF] sevens)))
    (fun t => t.blk == block #v[0x10, 0x84, 0x10, 0x84, 0, 0, 0, 0] sevens) = true := by decide +kernel

/-- T-CAN-2, first and third rows. -/
theorem test_canona_eight : nextSatisfies
    (exec (.canona .eightLevel) (stateOf 5 (block #v[0x00, 0xFF, 0x88, 0xC6, 0xFA, 0x88, 0xC6, 0xFA] sevens)))
    (fun t => t.blk == block #v[0xFF, 0x00, 0xC1, 0x5D, 0x4E, 0xC1, 0x5D, 0x4E] sevens) = true := by decide +kernel

theorem test_canona_six : nextSatisfies (exec (.canona .sixLevel) (stateOf 5 (block eightElem sevens)))
    (fun t => t.blk == block #v[0x00, 0xFF, 0x41, 0x39, 0xF9, 0x41, 0x39, 0xF9] sevens) = true := by decide +kernel

/-- T-FLIP-3. -/
theorem test_flipx : nextSatisfies (exec .flipx (stateOf 4 (block eightElem #v[0x00, 0xF8, 0x1F, 0x00, 0x1B, 0x1B, 0xE4, 0xFF])))
    (fun t => t.blk == block #v[0xFF, 0x00, 0x53, 0x70, 0x97, 0x53, 0x70, 0x97] #v[0x00, 0xF8, 0x1F, 0x00, 0xE4, 0xE4, 0x1B, 0xFF]) = true := by
  decide +kernel

/-- T-FLIP-2. -/
theorem test_flipy : nextSatisfies
    (exec .flipy (stateOf 3 (block #v[0x10, 0x32, 0x54, 0x76, 0x98, 0xBA, 0xDC, 0xFE] #v[0x00, 0xF8, 0x1F, 0x00, 0x1B, 0x1B, 0xE4, 0xFF])))
    (fun t => t.blk == block #v[0xDC, 0xFE, 0x98, 0xBA, 0x54, 0x76, 0x10, 0x32] #v[0x00, 0xF8, 0x1F, 0x00, 0xFF, 0xE4, 0x1B, 0x1B]) = true := by
  decide +kernel

/-! ### Helpers and assembler text -/

/-- 95_test_vectors.md S7 and 2.7: the exact-half luma, and the rescale and expansion values. -/
theorem test_helpers :
    luma ⟨0, 52, 184, 0⟩ = 52 ∧ luma ⟨255, 255, 0, 0⟩ = 226 ∧ rescale 3 31 255 = 25 ∧ rescale 513 1023 255 = 128
      ∧ expand5 3 = 24 ∧ expand6 32 = 130 ∧ expand4 8 = 136 := by decide

/-- T-PK-3 and T-PK-12: layouts, and strings that are assembly errors. -/
theorem test_specs :
    specLayout ['R', '1', '0', 'G', '1', '0', 'B', '1', '0', 'A', '2'] = some ⟨#v[10, 10, 10, 2], #v[0, 10, 20, 30], 4, false⟩ ∧
      specLayout ['Y', '8', 'A', '8'] = some ⟨#v[8, 0, 0, 8], #v[0, 0, 0, 8], 2, true⟩ ∧
      specLayout ['R', '8', 'X', '8'] = none ∧ specLayout ['R', '0'] = none ∧ specLayout ['R', '3', '3'] = none ∧
      specLayout ['R', '8', 'R', '8'] = none ∧ specLayout ['Y', '8', 'G', '8'] = none ∧ specLayout [] = none ∧
      initLayout 4 8 4 true = ⟨#v[8, 8, 8, 8], #v[24, 16, 8, 0], 4, false⟩ := by decide

/-- R75's own example: `CLRST 0x1E` clears all four sticky flags; and a comment line assembles to nothing. -/
theorem test_assemble : assembleLine ['C', 'L', 'R', 'S', 'T', ' ', '0', 'x', '1', 'E'] = some [0x0400001E] ∧
    assembleLine [' ', ';', 'N', 'O', 'P'] = some [] := by decide

/-! ### Witnesses: a concrete input that meets all hypotheses of a statement (of each of its clauses) -/

/-- A state with a host list. -/
def hosted (h : List HostEvent) : State := { State.reset with host := h }

/-- A packer state: two components that cross bytes and overlap, one absent, stride 0 allowed by `stride`. -/
def packerState (stride : BitVec 16) (ctrl : BitVec 16) : State :=
  { stateOf 0 (block sevens sevens) with pkStride := stride, ctrl := ctrl, pkSize := #v[5, 32, 0, 8], pkOfs := #v[0, 3, 0, 40] }

theorem witness_DecodeOfEncode : (Instr.unpk 0 16).wellFormed = true ∧ (Instr.pack 15 1).wellFormed = true
    ∧ (Instr.wrcr (.pkOfs 3) 0xFFFF).wellFormed = true := by decide

theorem witness_DecodesOnlyEncodings : decode 0x20000010 = .ok (.unpk 0 16) := rfl

theorem witness_OpcodeMapIsTheTable :
    (∃ i, decode 0x210F0001 = .ok i ∧ i.tableMatch = (Instr.pack 0 1).tableMatch) ∧
      (0x210F0001 &&& (Instr.pack 0 1).tableMask = (Instr.pack 0 1).tableMatch ∧ Claims.furtherLegality 0x210F0001 (.pack 0 1)) :=
  ⟨⟨_, rfl, rfl⟩, by decide, by show _ ∧ _; decide⟩

theorem witness_StepRunsTheDecodedCommand :
    (hosted [.command 0x31050000, .reset]).host = .command 0x31050000 :: [.reset] ∧ decode 0x31050000 = .ok (.decpx 5) := ⟨rfl, rfl⟩

theorem witness_IllegalWordRaisesIll :
    (hosted [.command 0xFF000000]).host = .command 0xFF000000 :: [] ∧
      ∀ i : Instr, i.wellFormed = true → encode i ≠ 0xFF000000 := by
  refine ⟨rfl, fun i _ h => ?_⟩
  have h := congrArg opField h
  rw [encode, opField_packWord] at h
  cases i <;> exact absurd h (by simp only [Instr.opcode]; decide)

theorem witness_HostActsBetweenCommands :
    (hosted []).host = [] ∧ (hosted [.memWrite 0xFFFFFFFF 1]).host = .memWrite 0xFFFFFFFF 1 :: []
      ∧ Memory.wf (hosted [.memWrite 0xFFFFFFFF 1]).mem = true := ⟨rfl, rfl, rfl⟩

theorem witness_ResetClearsControlRegisters : (hosted [.reset, .command 0]).host = .reset :: [.command 0] := rfl

theorem witness_ResetStateIsLegal : State.reset.Inv := ⟨by decide, by decide, by decide, by decide, rfl⟩

theorem witness_EveryStepKeepsLegalState :
    ∃ t, (hosted [.command 0x010B0020]).Inv ∧ step (hosted [.command 0x010B0020]) = .next t ∧ t.pkSize[3] = 32 :=
  ⟨_, ⟨by decide, by decide, by decide, by decide, rfl⟩, rfl, by decide⟩

theorem witness_FailedCommandChangesOnlyStatus : ∃ t, exec .flipx (stateOf 6 (block etc1Elem sevens)) = .next t ∧ statusOk t.status = false :=
  ⟨_, rfl, by decide⟩

theorem witness_FlagsAreSetByTheirCauses :
    decode 0x01070000 = .error (.controlRegister 7) ∧
    (∃ t, (Instr.dec).wellFormed = true ∧ (∀ m, Instr.dec ≠ .clrst m) ∧ exec .dec (stateOf 6 (block etc1BadElem sevens)) = .next t
      ∧ Claims.invblkCause .dec (stateOf 6 (block etc1BadElem sevens))) ∧
    (∃ t, (Instr.wrcr .fmt 7).wellFormed = true ∧ (∀ m, Instr.wrcr .fmt 7 ≠ .clrst m) ∧ exec (.wrcr .fmt 7) State.reset = .next t
      ∧ Claims.cfgerrCause (.wrcr .fmt 7) State.reset) ∧
    (∃ t, exec .flipy (stateOf 6 (block etc1Elem sevens)) = .next t ∧ Claims.geomCause .flipy (stateOf 6 (block etc1Elem sevens))) ∧
    ∃ t, exec (.clrst 0b0001) { State.reset with status := 0b00110 } = .next t ∧ t.status.getLsbD 2 = true := by
  refine ⟨rfl, ⟨_, rfl, (by intro m; nofun), rfl, ⟨.inl rfl, rfl, by decide +kernel⟩⟩, ⟨_, rfl, (by intro m; nofun), rfl, .inr (.inl ⟨7, rfl, by decide⟩)⟩,
    ⟨_, rfl, ⟨.inr rfl, rfl⟩⟩, _, rfl, by decide⟩

theorem witness_FailurePriority :
    decode 0x03020001 = .error .mustBeZero ∧ (stateOf 0 (block sevens sevens)).fmt = 0 ∧
      (∃ l, Claims.acceptedFormats .selc = some l ∧ (stateOf 5 (block eightElem sevens)).fmt.toNat ∉ l) ∧
      (stateOf 6 (block etc1BadElem sevens)).fmt = 6 ∧ etc1Invalid (elemOf (stateOf 6 (block etc1BadElem sevens)).blk 0) = true :=
  ⟨rfl, rfl, ⟨_, rfl, by decide⟩, rfl, by decide +kernel⟩

theorem witness_StatusNeverSteersACommand :
    Instr.dec ≠ .rdcr .status ∧ (∃ t, exec .dec (stateOf 6 (block etc1BadElem sevens)) = .next t) ∧
      ∃ t', exec .dec { stateOf 6 (block etc1BadElem sevens) with status := 0b11110 } = .next t' := ⟨nofun, ⟨_, rfl⟩, _, rfl⟩

theorem witness_PixelsAreWrittenByUnpkDecDecpx :
    ∃ t, exec .dec (stateOf 1 (block opaqueElem sevens)) = .next t ∧ t.pix ≠ (stateOf 1 (block opaqueElem sevens)).pix :=
  ⟨_, rfl, by decide +kernel⟩

theorem witness_BlockBufferWriters :
    ∃ t, exec (.setea 0 .high) (stateOf 5 (block sevens sevens)) = .next t ∧ t.blk ≠ (stateOf 5 (block sevens sevens)).blk :=
  ⟨_, rfl, by decide +kernel⟩

theorem witness_RegisterAndMemoryWriters :
    (∃ t, exec (.rdcr .fmt) (stateOf 5 (block sevens sevens)) = .next t ∧ t.resp ≠ (stateOf 5 (block sevens sevens)).resp) ∧
    (∃ t, exec (.wrcr .fmt 6) State.reset = .next t ∧ ¬ KeepsConfig State.reset t) ∧
    (∃ t, exec (.wrcrh .bptr 1) State.reset = .next t ∧ t.bptr ≠ State.reset.bptr) ∧
    (∃ t, exec (.unpk 0 1) (packerState 2 0) = .next t ∧ t.pptr ≠ (packerState 2 0).pptr) ∧
    (∃ t, exec (.setpx 0) (stateOf 1 (block opaqueElem sevens)) = .next t ∧ t.err ≠ (stateOf 1 (block opaqueElem sevens)).err) ∧
    (Instr.ldblk ≠ .stblk ∧ ∀ first cnt, Instr.ldblk ≠ .pack first cnt) := by
  refine ⟨⟨_, rfl, by decide⟩, ⟨_, rfl, fun h => absurd h.1 (by decide)⟩, ⟨_, rfl, by decide⟩, ⟨_, rfl, by decide⟩,
    ⟨_, rfl, by decide +kernel⟩, nofun, by intro a b; nofun⟩

theorem witness_NopAndClrst : 1 ≤ 1 ∧ 1 ≤ 4 ∧ 4 ≤ 4 := by decide

theorem witness_WrcrWritesRegisters : (6 : BitVec 16).toNat ≤ 6 ∧ ¬ (7 : BitVec 16).toNat ≤ 6 ∧ (32 : BitVec 16).toNat ≤ 32
    ∧ ¬ (33 : BitVec 16).toNat ≤ 32 ∧ (7 : BitVec 8).toNat = 7 ∧ 16 ≤ (16 : BitVec 8).toNat := by decide

theorem witness_WrcrhWritesUpperHalf : CtrlReg.fmt ≠ .bptr ∧ CtrlReg.fmt ≠ .pptr ∧ (6 : BitVec 8).toNat ≠ 4 ∧ (6 : BitVec 8).toNat ≠ 5 := by
  decide

theorem witness_RdcrReadsRegisters : (7 : BitVec 8).toNat = 7 ∧ 16 ≤ (255 : BitVec 8).toNat := by decide

/-- Format codes 1 and 6 bound the valid ones; 0 and 7 are not valid. -/
theorem witness_LdblkLoadsTheBlock :
    Claims.validFormat (stateOf 1 (block sevens sevens)) ∧ Claims.validFormat (stateOf 6 (block sevens sevens)) ∧
      ¬ Claims.validFormat (stateOf 0 (block sevens sevens)) ∧ ¬ Claims.validFormat (stateOf 7 (block sevens sevens)) := by
  unfold Claims.validFormat; decide

/-- Beside the formats of `witness_LdblkLoadsTheBlock`: canonical memory, the boundary byte numbers 7, 8, 15 of a transfer and an address outside it. -/
theorem witness_StblkStoresTheBlock :
    Memory.wf (stateOf 4 (block sevens sevens)).mem = true ∧ Claims.transferBytes 4 = 16 ∧ Claims.transferBytes 1 = 8 ∧
      (15 : Fin 16).val < Claims.transferBytes 4 ∧ (7 : Fin 16).val < Claims.transferBytes 1 ∧
      ∀ k : Nat, k < Claims.transferBytes 1 → (8 : Addr) ≠ (stateOf 1 (block sevens sevens)).bptr + BitVec.ofNat 32 k := by decide

theorem witness_StoreThenLoadGivesTheBlock :
    Claims.validFormat (stateOf 6 (block sevens sevens)) ∧ Memory.wf (stateOf 6 (block sevens sevens)).mem = true ∧
      ∃ t, exec .stblk (stateOf 6 (block sevens sevens)) = .next t := ⟨witness_LdblkLoadsTheBlock.2.1, rfl, _, rfl⟩

theorem witness_CanonicalMemoryIsItsReads : Memory.wf [(3, 1), (0xFFFFFFFF, 2)] = true ∧
    (∀ a : Addr, Memory.read [(3, 1), (0xFFFFFFFF, 2)] a = Memory.read [(3, 1), (0xFFFFFFFF, 2)] a) := ⟨by decide, fun _ => rfl⟩

theorem witness_PkGetReadsTheBits : (31 : Nat) < 32 := by decide

/-- The widest component at the largest offset, and a bit outside it. -/
theorem witness_PkPutWritesOnlyItsBits :
    Memory.wf [(3, 1)] = true ∧ 1 ≤ 32 ∧ 32 ≤ 32 ∧ 65535 ≤ 65535 ∧ 2 ^ 32 - 1 < 2 ^ 32 ∧
      (∀ j : Nat, j < 32 → (0 : Addr) = 0 + BitVec.ofNat 32 ((65535 + j) / 8) → 0 ≠ (65535 + j) % 8) := by
  refine ⟨rfl, by decide, by decide, by decide, by decide, by decide⟩

theorem witness_UnpackConversion : 1 ≤ 32 ∧ 32 ≤ 32 ∧ 2 ^ 32 - 1 < 2 ^ 32 ∧ 1 ≤ 8 ∧ 8 ≤ 32 ∧ 255 < 2 ^ 8 := by decide

theorem witness_PackConversion : 1 ≤ 32 ∧ 32 ≤ 32 ∧ 1 ≤ 8 ∧ 8 ≤ 32 ∧ 8 ≤ 8 ∧ 255 < 2 ^ 8 := by decide

/-- Ranges at their bounds: cnt 0, cnt 17 and first + cnt = 17 are illegal; 0..15 whole and the last pixel alone are legal. -/
theorem witness_pixelRanges :
    ¬ (1 ≤ (0 : Fin 32).val ∧ (0 : Fin 32).val ≤ 16 ∧ (0 : Fin 16).val + (0 : Fin 32).val ≤ 16) ∧
    ¬ (1 ≤ (17 : Fin 32).val ∧ (17 : Fin 32).val ≤ 16 ∧ (0 : Fin 16).val + (17 : Fin 32).val ≤ 16) ∧
    ¬ (1 ≤ (2 : Fin 32).val ∧ (2 : Fin 32).val ≤ 16 ∧ (15 : Fin 16).val + (2 : Fin 32).val ≤ 16) ∧
    (1 ≤ (16 : Fin 32).val ∧ (16 : Fin 32).val ≤ 16 ∧ (0 : Fin 16).val + (16 : Fin 32).val ≤ 16) ∧
    (1 ≤ (1 : Fin 32).val ∧ (1 : Fin 32).val ≤ 16 ∧ (15 : Fin 16).val + (1 : Fin 32).val ≤ 16) := by decide

theorem witness_UnpkUnpacksPixels :
    (1 : Nat) < (2 : Fin 32).val ∧ (15 : Fin 16).val = (14 : Fin 16).val + 1 ∧ ((13 : Fin 16).val < (14 : Fin 16).val) ∧
      (2 : Addr) = (packerState 2 0).pptr + BitVec.ofNat 32 (1 * (packerState 2 0).pkStride.toNat) := by decide

/-- Slot 0, bit 4 of pixel 0 is overlapped by slot 1; slot 3 of pixel 0 covers bit 0 of byte 5 last; byte 6 is outside; with YMODE
slot 1 covers nothing. -/
theorem witness_PackPacksPixels :
    (packerState 0 0).Inv ∧ Claims.packCovers (packerState 0 0) 0 3 0 5 0 ∧ (0 : Nat) < (1 : Fin 32).val ∧
      (∀ (k' : Nat) (c' : Fin 4) (j' : Nat), k' < (1 : Fin 32).val → 0 < k' ∨ (0 = k' ∧ (3 : Fin 4) < c') →
        ¬ Claims.packCovers (packerState 0 0) k' c' j' 5 0) ∧
      (∀ (k : Nat) (c : Fin 4) (j : Nat), k < (1 : Fin 32).val → ¬ Claims.packCovers (packerState 0 4) k c j 2 0) ∧
      (6 : Addr) ∉ packAddrs (packerState 0 0) 1 := by
  refine ⟨⟨by decide, by decide, by decide, by decide, rfl⟩, ⟨by decide, by decide, by decide, by decide⟩, by decide, ?_, ?_, by decide⟩
  · intro k' c' j' hk h
    have h1 : k' < 1 := hk
    rcases h with h | ⟨_, h⟩
    · omega
    · have := c'.isLt
      rw [Fin.lt_def] at h
      simp at h; omega
  · rintro k c j hk ⟨hy, hj, ha, _⟩
    have hk : k = 0 := by have : k < 1 := hk; omega
    subst hk
    rcases hy (by decide) with rfl | rfl
    · have h5 : j < 5 := hj
      interval_cases j <;> exact absurd ha (by decide)
    · have h8 : j < 8 := hj
      interval_cases j <;> exact absurd ha (by decide)

/-- Both orders of the endpoints, and equality, which is the cutout table. -/
theorem witness_Dxt1TableFormulas :
    (0xF800 : BitVec 16) = opaqueElem[1] ++ opaqueElem[0] ∧ (0x001F : BitVec 16) = opaqueElem[3] ++ opaqueElem[2] ∧
      (0x001F : BitVec 16).toNat < (0xF800 : BitVec 16).toNat ∧ (0x001F : BitVec 16) = cutoutElem[1] ++ cutoutElem[0] ∧
      (0xF800 : BitVec 16) = cutoutElem[3] ++ cutoutElem[2] ∧ (0x7777 : BitVec 16) = sevens[1] ++ sevens[0] ∧
      (0x7777 : BitVec 16) = sevens[3] ++ sevens[2] := by decide

theorem witness_Dxt5TableFormulas :
    255 = eightElem[0].toNat ∧ 0 = eightElem[1].toNat ∧ 0 < 255 ∧ 1 ≤ 6 ∧ (7 : Fin 8).val = 6 + 1 ∧
      119 = sevens[0].toNat ∧ 119 = sevens[1].toNat ∧ 119 ≤ 119 ∧ (5 : Fin 8).val = 4 + 1 := by decide

theorem witness_DecodeByFormat : elemOf (block opaqueElem sevens) 0 = elemOf (block sevens opaqueElem) 1 := by decide

theorem witness_DecAndDecpxDecode : (stateOf 6 (block etc1BadElem sevens)).fmt = formatCode .etc1
    ∧ (stateOf 1 (block opaqueElem sevens)).fmt = formatCode .dxt1 ∧ (3 : Fin 16) ≠ 4 := by decide

theorem witness_DecpxInAnyOrderIsDec :
    Claims.validFormat (stateOf 1 (block opaqueElem sevens)) ∧ (List.finRange 16).reverse.Perm (List.finRange 16) ∧
      ∃ t, exec .dec (stateOf 1 (block opaqueElem sevens)) = .next t :=
  ⟨by unfold Claims.validFormat; decide, List.reverse_perm _, _, rfl⟩

theorem witness_QuantiserIsExact : 31 < 32 ∧ 63 < 64 := by decide

theorem witness_QuantiserCommands :
    (stateOf 5 (block sevens sevens)).fmt.toNat ∉ [1, 2, 3, 4] ∧ (stateOf 3 (block sevens sevens)).fmt.toNat ∈ [1, 2, 3, 4] ∧
      (10 = (if (stateOf 3 (block sevens sevens)).fmt.toNat ≤ 2 then 0 else 8) + (if Endpoint.high = .low then 0 else 2)) ∧
      (stateOf 1 (block sevens sevens)).fmt.toNat ∉ [4, 5] ∧ (stateOf 5 (block sevens sevens)).fmt.toNat ∈ [4, 5] ∧
      (stateOf 4 (block sevens sevens)).fmt.toNat ≠ 3 ∧ (stateOf 3 (block sevens sevens)).fmt.toNat = 3 := by decide

theorem witness_NearestIsTheLowestMinimum :
    ((0 : BitVec 2) :: [1, 2, 3]).Pairwise (fun x y => x.toNat < y.toNat) ∧ (2 : BitVec 2) ∈ (0 : BitVec 2) :: [1, 2, 3] := by decide

/-- A transparent pixel, and an opaque one of the same cutout element. -/
theorem witness_ColourSelectorChoice :
    selDxt1 .dxt1a 0x8000 cutoutElem ⟨0, 0, 0, 127⟩ = (3, 0) ∧ (dxt1Low cutoutElem).toNat ≤ (dxt1High cutoutElem).toNat ∧
      (127 : Byte).toNat < ((0x8000 : BitVec 16).extractLsb' 8 8).toNat ∧
      selDxt1 .dxt1a 0x8000 cutoutElem ⟨0, 0, 0, 128⟩ = (2, 32258) ∧
      ¬ (128 : Byte).toNat < ((0x8000 : BitVec 16).extractLsb' 8 8).toNat := by decide +kernel

theorem witness_SelcEncodesColour :
    (stateOf 5 (block sevens sevens)).fmt.toNat ∉ [1, 2, 3, 4, 6] ∧ (stateOf 3 (block sevens cutoutElem)).fmt = formatCode .dxt3 ∧
      BlockFormat.dxt3 ∈ [BlockFormat.dxt1, .dxt1a, .dxt3, .dxt5] ∧
      (1 : Fin 2) = (if BlockFormat.dxt3 = .dxt1 ∨ BlockFormat.dxt3 = .dxt1a then 0 else 1) := by decide

theorem witness_SelcEncodesEtc1 : (stateOf 6 (block etc1Elem sevens)).fmt = 6 := rfl

theorem witness_SelaEncodesAlpha : (stateOf 3 (block sevens sevens)).fmt.toNat ∉ [4, 5] ∧ (stateOf 5 (block eightElem sevens)).fmt.toNat ∈ [4, 5] := by
  decide

theorem witness_SetpxSetsOneSelector :
    Claims.validFormat (stateOf 2 (block cutoutElem sevens)) ∧ (stateOf 2 (block cutoutElem sevens)).fmt = formatCode .dxt1a ∧
      (stateOf 3 (block sevens cutoutElem)).fmt.toNat = 3 ∧ (stateOf 4 (block eightElem cutoutElem)).fmt.toNat = 4 ∧
      (stateOf 5 (block eightElem sevens)).fmt.toNat = 5 ∧ (stateOf 6 (block etc1Elem sevens)).fmt.toNat = 6 ∧
      ¬ Claims.validFormat (stateOf 0 (block sevens sevens)) := by
  unfold Claims.validFormat; decide

theorem witness_SetpxInAnyOrderIsWholeBlockEncoding :
    (stateOf 4 (block eightElem opaqueElem)).fmt = formatCode .dxt5 ∧ (List.finRange 16).reverse.Perm (List.finRange 16) :=
  ⟨rfl, List.reverse_perm _⟩

theorem witness_SolidBlockEncodesExactly :
    (stateOf 1 (block sevens sevens)).fmt = 1 ∧ ∀ i : Fin 16, (stateOf 1 (block sevens sevens)).pix[i] = ⟨0, 0, 0, 255⟩ := by decide

/-- Each case of CANON: swap in either mode, equal endpoints, unchanged. -/
theorem witness_CanonOrdersEndpoints :
    (stateOf 5 (block sevens sevens)).fmt.toNat ∉ [1, 2, 3, 4] ∧ (stateOf 4 (block sevens cutoutElem)).fmt.toNat ∈ [1, 2, 3, 4] ∧
      (1 : Fin 2) = (if (stateOf 4 (block sevens cutoutElem)).fmt.toNat ≤ 2 then 0 else 1) ∧
      (dxt1Low (elemOf (block sevens cutoutElem) 1)).toNat < (dxt1High (elemOf (block sevens cutoutElem) 1)).toNat ∧
      (dxt1High (elemOf (block opaqueElem sevens) 0)).toNat < (dxt1Low (elemOf (block opaqueElem sevens) 0)).toNat ∧
      dxt1Low (elemOf (block sevens sevens) 0) = dxt1High (elemOf (block sevens sevens) 0) := by decide

theorem witness_CanonaOrdersEndpoints :
    (stateOf 3 (block sevens sevens)).fmt.toNat ∉ [4, 5] ∧ (stateOf 5 (block eightElem sevens)).fmt.toNat ∈ [4, 5] ∧
      (block eightElem sevens)[1].toNat < (block eightElem sevens)[0].toNat ∧ (block sevens sevens)[0] = (block sevens sevens)[1] ∧
      (block #v[1, 2, 0, 0, 0, 0, 0, 0] sevens)[0].toNat < (block #v[1, 2, 0, 0, 0, 0, 0, 0] sevens)[1].toNat := by decide

theorem witness_CanonKeepsIntendedColours :
    ∃ t u, (stateOf 1 (block cutoutElem sevens)).fmt = 1 ∧
      dxt1Low (elemOf (stateOf 1 (block cutoutElem sevens)).blk 0) ≠ dxt1High (elemOf (stateOf 1 (block cutoutElem sevens)).blk 0) ∧
      exec (.canon .fourColour) (stateOf 1 (block cutoutElem sevens)) = .next t ∧ exec .dec t = .next u :=
  ⟨_, _, rfl, by decide, rfl, rfl⟩

theorem witness_FlipsPermuteSelectors :
    ¬ Claims.validFormat (stateOf 0 (block sevens sevens)) ∧ (stateOf 6 (block etc1Elem sevens)).fmt.toNat = 6 ∧
      1 ≤ (stateOf 5 (block eightElem sevens)).fmt.toNat ∧ (stateOf 5 (block eightElem sevens)).fmt.toNat ≤ 5 ∧
      ((stateOf 1 (block opaqueElem sevens)).fmt.toNat ∈ [1, 2] ∧ (0 : Fin 2) = 0) ∧
      ((stateOf 4 (block eightElem opaqueElem)).fmt.toNat ∈ [3, 4] ∧ (1 : Fin 2) = 1) := by
  unfold Claims.validFormat; decide

theorem witness_FlipsAreLossless :
    ∃ t u v, 1 ≤ (stateOf 3 (block sevens opaqueElem)).fmt.toNat ∧ (stateOf 3 (block sevens opaqueElem)).fmt.toNat ≤ 5 ∧
      exec (Claims.flipCommand true) (stateOf 3 (block sevens opaqueElem)) = .next t ∧ exec .dec t = .next u ∧
      exec .dec (stateOf 3 (block sevens opaqueElem)) = .next v := ⟨_, _, _, by decide, by decide, rfl, rfl, rfl⟩

theorem witness_FlipsAreInvolutionsAndCommute :
    (1 ≤ (stateOf 1 (block opaqueElem sevens)).fmt.toNat ∧ (stateOf 1 (block opaqueElem sevens)).fmt.toNat ≤ 5) ∧
      1 ≤ (stateOf 5 (block eightElem sevens)).fmt.toNat ∧ (stateOf 5 (block eightElem sevens)).fmt.toNat ≤ 5 := by decide

theorem witness_PackerPseudosConfigure :
    (∃ is, expandPkspec ['Y', '8', 'A', '3', '2'] 0xFFFF = some is) ∧ (∃ is, expandPkinit 4 32 65535 1 0x0002 = some is) :=
  ⟨⟨_, rfl⟩, _, rfl⟩

/-- The first and the last pixel, in their bytes. -/
theorem witness_ElementFieldsFromBytes :
    (15 : Fin 16).val = 8 * (1 : Fin 2).val + (7 : Fin 8).val ∧ (7 : Fin 8).val = 4 + (15 : Fin 16).val / 4 ∧
      (0 : Fin 8).val = (0 : Fin 16).val / 2 ∧ 2 < 3 ∧ (7 : Fin 8).val = 2 + (3 * (15 : Fin 16).val + 2) / 8 := by decide

theorem witness_LumaAndRescale : 1 ≤ 1 ∧ 1 ≤ 1 ∧ 31 ≤ 31 := by decide

end Sys2Proof.Tests
end

section
/-! Family 00_scope.md: the arithmetic of R10 (luma), R11 (rescale) and R13 (weighted distance). -/

namespace Sys2Proof.Machine

/-! ### The weighted distance (R13) -/

/-- PERC = 1: the weights of R13 are (8, 25, 1). -/
theorem wdist_perceptual (p q : Pixel) :
    wdist true p q = 8 * sqDiff p.r q.r + 25 * sqDiff p.g q.g + sqDiff p.b q.b := rfl

/-- PERC = 0: every weight of R13 is 1. -/
theorem wdist_uniform (p q : Pixel) :
    wdist false p q = sqDiff p.r q.r + sqDiff p.g q.g + sqDiff p.b q.b := rfl

/-- Either metric is at most 34 * 255^2: the weights sum to at most 34, and each squared difference is at most 255^2. -/
theorem wdist_le (perc : Bool) (p q : Pixel) : wdist perc p q ≤ 2210850 := by
  have hr := sqDiff_le p.r q.r
  have hg := sqDiff_le p.g q.g
  have hb := sqDiff_le p.b q.b
  cases perc with
  | true => rw [wdist_perceptual]; omega
  | false => rw [wdist_uniform]; omega

/-- Settles O42: each metric is its weighted sum of `sqDiff`s, which `sqDiff_cast` reads as integer squares. -/
theorem weightedDistance : Obligations.WeightedDistance := by
  intro p q
  refine ⟨?_, ?_, fun perc => wdist_le perc p q⟩
  · simp only [wdist_perceptual, Nat.cast_add, Nat.cast_mul, sqDiff_cast, Nat.cast_ofNat]
  · simp only [wdist_uniform, Nat.cast_add, sqDiff_cast]

/-! ### Luma (R10) and rescale (R11) -/

/-- The luma as a number: the weights sum to 65536, so the rounded sum fits a byte and the narrowing loses nothing. -/
theorem toNat_luma (q : Pixel) :
    (luma q).toNat = (19595 * q.r.toNat + 38470 * q.g.toNat + 7471 * q.b.toNat + 32768) / 65536 := by
  have hr := q.r.isLt
  have hg := q.g.isLt
  have hb := q.b.isLt
  exact toNat_toByte (by omega)

/-- A grey is its own luma: its weighted sum is 65536 * v, and the half added for rounding falls in the quotient's remainder. -/
theorem luma_grey (v a : Byte) : luma ⟨v, v, v, a⟩ = v := by
  apply BitVec.eq_of_toNat_eq
  rw [toNat_luma]
  dsimp only
  omega

@[simp] theorem rescale_zero {fromMax : Nat} (h : 1 ≤ fromMax) (toMax : Nat) : rescale 0 fromMax toMax = 0 := by
  rw [rescale, Nat.zero_mul, Nat.zero_add]
  exact Nat.div_eq_of_lt (by omega)

@[simp] theorem rescale_self {fromMax : Nat} (h : 1 ≤ fromMax) (toMax : Nat) : rescale fromMax fromMax toMax = toMax := by
  rw [rescale, Nat.mul_add_div h, Nat.div_eq_of_lt (by omega : fromMax / 2 < fromMax), Nat.add_zero]

/-- Settles O59, from the luma as a number, its value on greys, and rescale's formula, end points and range. -/
theorem lumaAndRescale : Obligations.LumaAndRescale :=
  ⟨toNat_luma, luma_grey, fun _ _ toMax h1 h =>
    ⟨rfl, rescale_zero h1 toMax, rescale_self h1 toMax, rescale_le h1 h⟩⟩

end Sys2Proof.Machine
end

section
/-! Family 10_state.md: which command writes what (R21, R22, R25, R29, R30, R32, R50), one step by its event (R20, R33, R272), and the
legal states every step keeps (R26, R27, R29, R31). -/

namespace Sys2Proof.Machine

open Sys2Proof.Claims

/-! ### What a command writes -/

/-- `Writes s i u`: apart from STATUS, command `i` on `s` may leave `u`. One constructor a kind of write, each with what bounds it. -/
inductive Writes (s : State) : Instr → State → Prop
  /-- NOP, CLRST and every failed command (R110, R115, R251). -/
  | nothing (i : Instr) : Writes s i s
  | fmt {v : BitVec 16} (hv : v.toNat ≤ 6) : Writes s (.wrcr .fmt v) (s.setFmt (v.setWidth 3))
  | ctrl (v : BitVec 16) : Writes s (.wrcr .ctrl v) (s.setCtrl (ctrlMasked v))
  | bptr (v : BitVec 16) : Writes s (.wrcr .bptr v) (s.setBptr (v.setWidth 32))
  | pptr (v : BitVec 16) : Writes s (.wrcr .pptr v) (s.setPptr (v.setWidth 32))
  | pkStride (v : BitVec 16) : Writes s (.wrcr .pkStride v) (s.setPkStride v)
  | pkSize (c : Fin 4) {v : BitVec 16} (hv : v.toNat ≤ 32) :
      Writes s (.wrcr (.pkSize c) v) (s.setPkSize (s.pkSize.set c (v.setWidth 6)))
  | pkOfs (c : Fin 4) (v : BitVec 16) : Writes s (.wrcr (.pkOfs c) v) (s.setPkOfs (s.pkOfs.set c v))
  | bptrUpper (v : BitVec 16) : Writes s (.wrcrh .bptr v) (s.setBptr (withUpperHalf v s.bptr))
  | pptrUpper (v : BitVec 16) : Writes s (.wrcrh .pptr v) (s.setPptr (withUpperHalf v s.pptr))
  | resp (cr : CtrlReg) : Writes s (.rdcr cr) (s.setResp (readCtrl cr s))
  | load (b : Block) (p : Addr) : Writes s .ldblk ((s.setBlk b).setBptr p)
  | store (bs : List Byte) (p : Addr) : Writes s .stblk ((s.setMem (Memory.writeBytes s.mem s.bptr bs)).setBptr p)
  | unpack (first : Fin 16) (cnt : Fin 32) (v : Pixels) (p : Addr) : Writes s (.unpk first cnt) ((s.setPix v).setPptr p)
  | pack (first : Fin 16) (cnt : Fin 32) (p : Addr) :
      Writes s (.pack first cnt) ((s.setMem (packPixels s first cnt)).setPptr p)
  /-- The decode commands (R180, R181). -/
  | pixels {i : Instr} (hi : i = .dec ∨ ∃ n, i = .decpx n) (v : Pixels) : Writes s i (s.setPix v)
  /-- The commands that write BLK alone (R203 to R205, R217, R219, R243, R244). -/
  | block {i : Instr} (hi : (∃ n e, i = .qnt n e) ∨ (∃ n e, i = .setea n e) ∨ i = .enca3 ∨ (∃ m, i = .canon m) ∨
      (∃ m, i = .canona m) ∨ i = .flipx ∨ i = .flipy) (b : Block) : Writes s i (s.setBlk b)
  /-- The selector encoders, which also report their error (R208, R212, R214). -/
  | select {i : Instr} (hi : i = .selc ∨ i = .sela ∨ ∃ n, i = .setpx n) (b : Block) {n : Nat} (hn : n ≤ 35373600) :
      Writes s i ((s.setBlk b).setErr (errWord n))

/-! ### The errors the selector encoders report (R29) -/

/-- The error `nearest` reports is the distance of one of its candidates. -/
theorem nearest_snd_le {n bound : Nat} (c : BitVec n) (cs : List (BitVec n)) {d : BitVec n → Nat} (h : ∀ x, d x ≤ bound) :
    (nearest c cs d).2 ≤ bound := by
  refine List.foldlRecOn cs _ (motive := fun best : BitVec n × Nat => best.2 ≤ bound) (h c) fun best hbest x _ => ?_
  split
  · exact h x
  · exact hbest

theorem colourChoice_snd_le (f : BlockFormat) (s : State) (e : Elem) (i : Fin 16) : (colourChoice f s e i).2 ≤ 2210850 := by
  unfold colourChoice selDxt1
  split
  · split
    · exact Nat.zero_le _
    · exact nearest_snd_le _ _ fun _ => wdist_le _ _ _
  · exact nearest_snd_le _ _ fun _ => wdist_le _ _ _

theorem etc1Choice_snd_le (s : State) (e : Elem) (i : Fin 16) : (etc1Choice s e i).2 ≤ 2210850 :=
  nearest_snd_le _ _ fun _ => wdist_le _ _ _

theorem alphaChoice_snd_le (s : State) (e : Elem) (i : Fin 16) : (alphaChoice s e i).2 ≤ 65025 :=
  nearest_snd_le _ _ fun _ => sqDiff_le _ _

theorem encAlpha3_snd_le (a : Byte) : (encAlpha3 a).2 ≤ 65025 := sqDiff_le _ _

/-- One pixel's error is at most its colour error and its alpha error, far below ERR's bound. -/
theorem setPixelError_le (f : BlockFormat) (i : Fin 16) (s : State) : setPixelError f i s ≤ 35373600 := by
  have hn := encAlpha3_snd_le s.pix[i].a
  have hc0 := fun f => colourChoice_snd_le f s (elemOf s.blk 0) i
  have hc1 := fun f => colourChoice_snd_le f s (elemOf s.blk 1) i
  have ha := alphaChoice_snd_le s (elemOf s.blk 0) i
  have he := etc1Choice_snd_le s (elemOf s.blk 0) i
  cases f with
  | dxt1 => have := hc0 .dxt1; rw [setPixelError]; omega
  | dxt1a => have := hc0 .dxt1a; rw [setPixelError]; omega
  | dxt3 => have := hc1 .dxt3; rw [setPixelError]; omega
  | dxt5 => have := hc1 .dxt5; rw [setPixelError]; omega
  | dxt5a => rw [setPixelError]; omega
  | etc1 => rw [setPixelError]; omega

/-- The whole-block error of sixteen pixels keeps ERR's bound. -/
theorem totalError_le_errBound {d : Fin 16 → Nat} (h : ∀ i, d i ≤ 2210850) : totalError d ≤ 35373600 := by
  have := totalError_le d 2210850 h
  omega

/-! ### Every command makes one of these writes -/

/-- `Writes` leaves STATUS as it was, so putting it back changes nothing. -/
theorem Writes.restoreStatus {i : Instr} {s u : State} (h : Writes s i u) : Writes s i (u.setStatus s.status) := by
  have hu : u.setStatus s.status = u := by cases h <;> rfl
  rw [hu]
  exact h

theorem writes_of_writeCtrl {cr : CtrlReg} {v : BitVec 16} {s u : State} (h : writeCtrl cr v s = .ok u) :
    Writes s (.wrcr cr v) u := by
  obtain ⟨rfl, hv, rfl⟩ | ⟨rfl, rfl⟩ | ⟨rfl, rfl⟩ | ⟨rfl, rfl⟩ | ⟨rfl, rfl⟩ | ⟨c, rfl, hv, rfl⟩ | ⟨c, rfl, rfl⟩ := writeCtrl_ok h
  · exact .fmt hv
  · exact .ctrl v
  · exact .bptr v
  · exact .pptr v
  · exact .pkStride v
  · exact .pkSize c hv
  · exact .pkOfs c v

theorem writes_of_writeCtrlUpper {cr : CtrlReg} {v : BitVec 16} {s u : State} (h : writeCtrlUpper cr v s = .ok u) :
    Writes s (.wrcrh cr v) u := by
  obtain ⟨rfl, rfl⟩ | ⟨rfl, rfl⟩ := writeCtrlUpper_ok h
  · exact .bptrUpper v
  · exact .pptrUpper v

theorem writes_of_selcEffect {s u : State} {f : BlockFormat} (h : selcEffect s f = .ok u) : Writes s .selc u := by
  obtain ⟨-, rfl⟩ | ⟨k, -, rfl⟩ := selcEffect_ok h
  · exact .select (.inl rfl) _ (totalError_le_errBound fun i => etc1Choice_snd_le s (elemOf s.blk 0) i)
  · exact .select (.inl rfl) _ (totalError_le_errBound fun i => colourChoice_snd_le f s (elemOf s.blk k) i)

theorem writes_encodeAlpha (s : State) (k : Fin 2) : Writes s .sela (encodeAlpha k s) :=
  .select (.inr (.inl rfl)) _
    (totalError_le_errBound fun i => (alphaChoice_snd_le s (elemOf s.blk k) i).trans (by norm_num))

theorem noteInvalid_setStatus (f : BlockFormat) (s : State) (st : BitVec 5) :
    (noteInvalid f s).setStatus st = s.setStatus st := by
  obtain ⟨h, -⟩ | ⟨h, -⟩ := noteInvalid_cases f s
  · rw [h]; rfl
  · rw [h]

/-- A command that succeeds leaves, STATUS aside, a state `Writes` allows. -/
theorem writes_of_effectOf {i : Instr} {s u : State} (h : effectOf i s = .ok u) : Writes s i (u.setStatus s.status) := by
  cases i with
  | nop => cases h; exact .nothing _
  | wrcr cr v => exact (writes_of_writeCtrl h).restoreStatus
  | wrcrh cr v => exact (writes_of_writeCtrlUpper h).restoreStatus
  | rdcr cr => cases h; exact (Writes.resp cr).restoreStatus
  | clrst m => cases h; exact .nothing _
  | ldblk => obtain ⟨f, -, h⟩ := withFormat_ok h; cases h; exact (Writes.load _ _).restoreStatus
  | stblk => obtain ⟨f, -, h⟩ := withFormat_ok h; cases h; exact (Writes.store _ _).restoreStatus
  | unpk first cnt => obtain ⟨-, rfl⟩ := withRange_ok h; exact (Writes.unpack first cnt _ _).restoreStatus
  | pack first cnt => obtain ⟨-, rfl⟩ := withRange_ok h; exact (Writes.pack first cnt _).restoreStatus
  | dec =>
    obtain ⟨f, -, h⟩ := withFormat_ok h; cases h
    rw [noteInvalid_setStatus]; exact (Writes.pixels (.inl rfl) _).restoreStatus
  | decpx n =>
    obtain ⟨f, -, h⟩ := withFormat_ok h; cases h
    rw [noteInvalid_setStatus]; exact (Writes.pixels (.inr ⟨n, rfl⟩) _).restoreStatus
  | qnt n e => obtain ⟨k, -, rfl⟩ := withElement_ok h; exact (Writes.block (by simp) _).restoreStatus
  | setea n e => obtain ⟨k, -, rfl⟩ := withElement_ok h; exact (Writes.block (by simp) _).restoreStatus
  | enca3 =>
    rw [effectOf] at h
    obtain ⟨k, -, rfl⟩ := withElement_ok h; exact (Writes.block (by simp) _).restoreStatus
  | selc => obtain ⟨f, -, h⟩ := withFormat_ok h; exact (writes_of_selcEffect h).restoreStatus
  | sela =>
    simp only [effectOf] at h
    split at h <;> cases h
    exact (writes_encodeAlpha s _).restoreStatus
  | setpx n =>
    obtain ⟨f, -, h⟩ := withFormat_ok h; cases h
    exact (Writes.select (.inr (.inr ⟨n, rfl⟩)) _ (setPixelError_le f n s)).restoreStatus
  | canon m => obtain ⟨k, -, rfl⟩ := withElement_ok h; exact (Writes.block (by simp) _).restoreStatus
  | canona m => obtain ⟨k, -, rfl⟩ := withElement_ok h; exact (Writes.block (by simp) _).restoreStatus
  | flipx => obtain ⟨f, b, -, -, rfl⟩ := flipEffect_ok h; exact (Writes.block (by simp) b).restoreStatus
  | flipy => obtain ⟨f, b, -, -, rfl⟩ := flipEffect_ok h; exact (Writes.block (by simp) b).restoreStatus

/-- What a command answers is one of the writes of `Writes`, and a STATUS. -/
theorem exec_writes {i : Instr} {s t : State} (h : exec i s = .next t) : Writes s i (t.setStatus s.status) := by
  obtain ⟨u, hu, rfl⟩ | ⟨f, -, rfl⟩ := exec_cases h
  · have hw : Writes s i (u.setStatus s.status) := writes_of_effectOf hu
    exact hw
  · exact .nothing i

/-! ### Which command writes which register (R21, R22, R25, R29, R30, R32, R50) -/

section
variable {i : Instr} {s u : State}

theorem Writes.pix_writer (h : Writes s i u) (hne : u.pix ≠ s.pix) :
    (∃ first cnt, i = .unpk first cnt) ∨ i = .dec ∨ ∃ n, i = .decpx n := by
  cases h with
  | unpack first cnt => exact .inl ⟨first, cnt, rfl⟩
  | pixels hi => exact .inr hi
  | _ => exact absurd rfl hne

theorem Writes.blk_writer (h : Writes s i u) (hne : u.blk ≠ s.blk) :
    i = .ldblk ∨ (∃ n e, i = .qnt n e) ∨ (∃ n e, i = .setea n e) ∨ i = .enca3 ∨ i = .selc ∨ i = .sela
      ∨ (∃ n, i = .setpx n) ∨ (∃ m, i = .canon m) ∨ (∃ m, i = .canona m) ∨ i = .flipx ∨ i = .flipy := by
  cases h with
  | load => exact .inl rfl
  | block hi => rcases hi with h | h | h | h | h | h | h <;> simp [h]
  | select hi => rcases hi with h | h | h <;> simp [h]
  | _ => exact absurd rfl hne

theorem Writes.resp_writer (h : Writes s i u) (hne : u.resp ≠ s.resp) : ∃ cr, i = .rdcr cr := by
  cases h with
  | resp cr => exact ⟨cr, rfl⟩
  | _ => exact absurd rfl hne

theorem Writes.err_writer (h : Writes s i u) (hne : u.err ≠ s.err) : i = .selc ∨ i = .sela ∨ ∃ n, i = .setpx n := by
  cases h with
  | select hi => exact hi
  | _ => exact absurd rfl hne

theorem Writes.config_writer (h : Writes s i u) (hne : ¬ KeepsConfig s u) : ∃ cr v, i = .wrcr cr v := by
  cases h with
  | fmt | ctrl | pkStride | pkSize | pkOfs => exact ⟨_, _, rfl⟩
  | _ => exact absurd ⟨rfl, rfl, rfl, rfl, rfl⟩ hne

theorem Writes.bptr_writer (h : Writes s i u) (hne : u.bptr ≠ s.bptr) :
    i = .ldblk ∨ i = .stblk ∨ (∃ v, i = .wrcr .bptr v) ∨ ∃ v, i = .wrcrh .bptr v := by
  cases h with
  | load => exact .inl rfl
  | store => exact .inr (.inl rfl)
  | bptr v => exact .inr (.inr (.inl ⟨v, rfl⟩))
  | bptrUpper v => exact .inr (.inr (.inr ⟨v, rfl⟩))
  | _ => exact absurd rfl hne

theorem Writes.pptr_writer (h : Writes s i u) (hne : u.pptr ≠ s.pptr) :
    (∃ first cnt, i = .unpk first cnt) ∨ (∃ first cnt, i = .pack first cnt)
      ∨ (∃ v, i = .wrcr .pptr v) ∨ ∃ v, i = .wrcrh .pptr v := by
  cases h with
  | unpack first cnt => exact .inl ⟨first, cnt, rfl⟩
  | pack first cnt => exact .inr (.inl ⟨first, cnt, rfl⟩)
  | pptr v => exact .inr (.inr (.inl ⟨v, rfl⟩))
  | pptrUpper v => exact .inr (.inr (.inr ⟨v, rfl⟩))
  | _ => exact absurd rfl hne

theorem Writes.mem_eq (h : Writes s i u) (hs : i ≠ .stblk) (hp : ∀ first cnt, i ≠ .pack first cnt) : u.mem = s.mem := by
  cases h with
  | store => exact absurd rfl hs
  | pack first cnt => exact absurd rfl (hp first cnt)
  | _ => rfl

theorem Writes.keepsModelFields (h : Writes s i u) : KeepsModelFields s u := by
  cases h <;> exact ⟨rfl, rfl⟩

end

/-- Settles O16: of the writes a command can make, only those of UNPK, DEC and DECPX change P. -/
theorem pixelsAreWrittenByUnpkDecDecpx : Obligations.PixelsAreWrittenByUnpkDecDecpx :=
  fun _ _ _ h hne => (exec_writes h).pix_writer hne

/-- Settles O17: of the writes a command can make, only those of the commands R22 lists change BLK. -/
theorem blockBufferWriters : Obligations.BlockBufferWriters :=
  fun _ _ _ h hne => (exec_writes h).blk_writer hne

/-- Settles O18, register by register. -/
theorem registerAndMemoryWriters : Obligations.RegisterAndMemoryWriters := by
  intro i s t h
  have hw := exec_writes h
  refine ⟨hw.resp_writer, hw.err_writer, hw.config_writer, hw.bptr_writer, hw.pptr_writer, fun hs hp => ?_,
    hw.keepsModelFields⟩
  have hm : t.mem = s.mem := hw.mem_eq hs hp
  exact ⟨fun a => by rw [hm], hm⟩

/-! ### One step, by the host's event (R20, R33, R272) -/

theorem step_idle {s : State} (h : s.host = []) : step s = .next s := by
  rw [step, h]

theorem step_memWrite {s : State} {a : Addr} {b : Byte} {rest : List HostEvent} (h : s.host = .memWrite a b :: rest) :
    step s = .next (hostWrite a b (s.afterEvent rest)) := by
  rw [step, h]

theorem step_command {s : State} {w : Word} {rest : List HostEvent} {i : Instr} (h : s.host = .command w :: rest)
    (hd : decode w = .ok i) : step s = exec i (s.afterEvent rest) := by
  rw [step, h]
  simp only [runWord, hd]

/-- Presenting a word and taking it off again leaves the state. -/
theorem afterEvent_present (s : State) (w : Word) : (s.present w).afterEvent s.host = s := rfl

/-- A word presented as a number of 32 bits is that word. -/
theorem withFetchWord_toNat (s : State) (w : Word) : s.withFetchWord 32 w.toNat = s.present w := by
  rw [State.withFetchWord, wordOfBits, Nat.mod_eq_of_lt w.isLt, BitVec.ofNat_toNat, BitVec.setWidth_eq]

/-- Settles O7: the idle step, and the host's write by the law of a read after a write. -/
theorem hostActsBetweenCommands : Obligations.HostActsBetweenCommands :=
  ⟨fun _ => step_idle, fun _ a b _ h hm => ⟨_, step_memWrite h, fun x => Memory.read_write hm a x b, rfl⟩⟩

/-- Settles O5: the step on a presented command, and on the word `withFetchWord` presents. -/
theorem stepRunsTheDecodedCommand : Obligations.StepRunsTheDecodedCommand := by
  refine ⟨fun s w rest i h hd => step_command h hd, fun s w i hd => ?_⟩
  rw [withFetchWord_toNat, step_command rfl hd, afterEvent_present]

/-! ### The legal states (R26, R27, R29, R31) -/

/-- A write to CTRL drops the reserved bits 7:3 (R27). -/
theorem ctrlMasked_reserved (v : BitVec 16) : ctrlMasked v &&& 0x00F8 = 0 := by
  rw [ctrlMasked, BitVec.and_assoc]
  exact BitVec.and_zero

/-- Legality looks at FMT, CTRL, PK_SIZE, ERR and memory alone. -/
theorem State.Inv.congr {s t : State} (hs : s.Inv) (hf : t.fmt = s.fmt) (hc : t.ctrl = s.ctrl) (hz : t.pkSize = s.pkSize)
    (he : t.err = s.err) (hm : t.mem = s.mem) : t.Inv :=
  ⟨hf ▸ hs.fmt_legal, hc ▸ hs.ctrl_reserved, hz ▸ hs.size_legal, he ▸ hs.err_bound, hm ▸ hs.mem_canonical⟩

theorem State.Inv.setFmt {s : State} (hs : s.Inv) {v : BitVec 16} (hv : v.toNat ≤ 6) : (s.setFmt (v.setWidth 3)).Inv :=
  { hs with fmt_legal := (Nat.mod_le _ _).trans hv }

theorem State.Inv.setCtrl {s : State} (hs : s.Inv) (v : BitVec 16) : (s.setCtrl (ctrlMasked v)).Inv :=
  { hs with ctrl_reserved := ctrlMasked_reserved v }

theorem State.Inv.setPkSize {s : State} (hs : s.Inv) (c : Fin 4) {v : BitVec 16} (hv : v.toNat ≤ 32) :
    (s.setPkSize (s.pkSize.set c (v.setWidth 6))).Inv := by
  refine { hs with size_legal := fun d => ?_ }
  have hd := hs.size_legal d
  by_cases h : c = d
  · subst h
    simpa using (Nat.mod_le _ _).trans hv
  · simpa [Vector.getElem_set, Fin.val_ne_of_ne h] using hd

theorem State.Inv.setErr {s : State} (hs : s.Inv) {n : Nat} (hn : n ≤ 35373600) : (s.setErr (errWord n)).Inv :=
  { hs with err_bound := (Nat.mod_le _ _).trans hn }

theorem State.Inv.setMem {s : State} (hs : s.Inv) {m : Memory} (hm : Memory.wf m = true) : (s.setMem m).Inv :=
  { hs with mem_canonical := hm }

/-- Each write keeps the legal states: the five that touch what legality looks at by their bounds, the others untouched. -/
theorem Writes.inv {i : Instr} {s u : State} (h : Writes s i u) (hs : s.Inv) : u.Inv := by
  cases h with
  | fmt hv => exact hs.setFmt hv
  | ctrl v => exact hs.setCtrl v
  | pkSize c hv => exact hs.setPkSize c hv
  | store bs p => exact (hs.setMem (Memory.writeBytes_wf hs.mem_canonical _ bs)).congr rfl rfl rfl rfl rfl
  | pack first cnt p => exact (hs.setMem (packPixels_wf s hs.mem_canonical first cnt)).congr rfl rfl rfl rfl rfl
  | select _ b hn => exact (hs.setErr hn).congr rfl rfl rfl rfl rfl
  | _ => exact hs.congr rfl rfl rfl rfl rfl

theorem State.Inv.setStatus {s : State} (hs : s.Inv) (st : BitVec 5) : (s.setStatus st).Inv :=
  hs.congr rfl rfl rfl rfl rfl

theorem State.Inv.afterEvent {s : State} (hs : s.Inv) (rest : List HostEvent) : (s.afterEvent rest).Inv :=
  hs.congr rfl rfl rfl rfl rfl

theorem exec_keeps_inv {i : Instr} {s t : State} (h : exec i s = .next t) (hs : s.Inv) : t.Inv :=
  ((exec_writes h).inv hs).congr rfl rfl rfl rfl rfl

theorem hostWrite_keeps_inv {s : State} (hs : s.Inv) (a : Addr) (b : Byte) : (hostWrite a b s).Inv :=
  hs.setMem (Memory.write_wf hs.mem_canonical a b)

/-- A reset clears the registers legality looks at and keeps memory (R270, R271). -/
theorem applyReset_keeps_inv {s : State} (hs : s.Inv) : (applyReset s).Inv where
  fmt_legal := Nat.zero_le _
  ctrl_reserved := BitVec.zero_and
  size_legal c := by fin_cases c <;> exact Nat.zero_le _
  err_bound := Nat.zero_le _
  mem_canonical := hs.mem_canonical

/-- Settles O10: the five outcomes of a step, each by the lemma that it keeps the legal states. -/
theorem everyStepKeepsLegalState : Obligations.EveryStepKeepsLegalState := by
  intro s t hs h
  obtain ⟨-, rfl⟩ | ⟨a, b, rest, -, rfl⟩ | ⟨rest, -, rfl⟩ | ⟨w, rest, i, -, -, hx⟩ | ⟨w, rest, r, -, -, rfl⟩ := step_cases h
  · exact hs
  · exact hostWrite_keeps_inv (hs.afterEvent rest) a b
  · exact applyReset_keeps_inv (hs.afterEvent rest)
  · exact exec_keeps_inv hx (hs.afterEvent rest)
  · exact (hs.afterEvent rest).setStatus _

end Sys2Proof.Machine
end

section
/-! Family 20_memory.md: a block stored and loaded back (R56, R59, R120, R121), and the packed pixel's bits read and written one by one
(R54, R131, R136). -/

namespace Sys2Proof.Machine

open Sys2Proof.Claims

/-! ### Formats and their codes (R23, R24) -/

theorem formatOf_eq_some_iff {c : BitVec 3} {f : BlockFormat} : formatOf c = some f ↔ c = formatCode f := by
  cases f <;> (revert c; decide)

@[simp] theorem formatOf_formatCode (f : BlockFormat) : formatOf (formatCode f) = some f :=
  formatOf_eq_some_iff.mpr rfl

/-- FMT is valid exactly when it is the code of a format. -/
theorem validFormat_iff {s : State} : validFormat s ↔ ∃ f, s.fmt = formatCode f := by
  unfold validFormat
  constructor
  · rintro ⟨h1, h6⟩
    have hcode : ∀ c : BitVec 3, 1 ≤ c.toNat → c.toNat ≤ 6 → (formatOf c).isSome := by decide
    obtain ⟨f, hf⟩ := Option.isSome_iff_exists.mp (hcode s.fmt h1 h6)
    exact ⟨f, formatOf_eq_some_iff.mp hf⟩
  · rintro ⟨f, hf⟩
    rw [hf]
    cases f <;> decide

/-- A transfer moves `8 * epb` bytes (R58). -/
@[simp] theorem transferBytes_formatCode (f : BlockFormat) : transferBytes (formatCode f) = blockBytes f := by
  cases f <;> rfl

/-! ### LDBLK and STBLK with a format in FMT (R120, R121) -/

theorem withFormat_formatCode {s : State} {f : BlockFormat} (hf : s.fmt = formatCode f)
    (g : BlockFormat → Except Failure State) : withFormat s g = g f := by
  rw [withFormat, hf, formatOf_formatCode]

theorem exec_ldblk_of_format {s : State} {f : BlockFormat} (hf : s.fmt = formatCode f) :
    exec .ldblk s = .next
      (((s.setBlk (loadBlock s.mem s.bptr (blockBytes f) s.blk)).setBptr (addrPlus s.bptr (blockBytes f))).setStatus
        (setOk s.status)) :=
  exec_of_ok (withFormat_formatCode hf _)

theorem exec_stblk_of_format {s : State} {f : BlockFormat} (hf : s.fmt = formatCode f) :
    exec .stblk s = .next
      (((s.setMem (Memory.writeBytes s.mem s.bptr (blockPrefix s.blk (blockBytes f)))).setBptr
        (addrPlus s.bptr (blockBytes f))).setStatus (setOk s.status)) :=
  exec_of_ok (withFormat_formatCode hf _)

theorem loadBlock_get (m : Memory) (a : Addr) (n : Nat) (b : Block) (k : Fin 16) :
    (loadBlock m a n b)[k] = if k.val < n then Memory.read m (addrPlus a k.val) else b[k] := by
  simp [loadBlock]

theorem length_blockPrefix (b : Block) (n : Nat) : (blockPrefix b n).length = min n 16 := by
  simp [blockPrefix]

/-- A byte of the block, read where the block was stored: addresses wrap, and 16 bytes never meet themselves. -/
theorem read_writeBytes_blockPrefix {m : Memory} (hm : Memory.wf m = true) (a : Addr) (b : Block) {n : Nat} (k : Fin 16)
    (hk : k.val < n) : Memory.read (Memory.writeBytes m a (blockPrefix b n)) (addrPlus a k.val) = b[k] := by
  have hlen := length_blockPrefix b n
  obtain ⟨hread, -⟩ := Memory.read_writeBytes hm a (addrPlus a k.val) (blockPrefix b n) (by omega)
  rw [hread k.val (by omega) rfl]
  simp [blockPrefix]

/-- Settles O25: LDBLK reads, at the addresses STBLK wrote, the bytes it wrote there. -/
theorem storeThenLoadGivesTheBlock : Obligations.StoreThenLoadGivesTheBlock := by
  intro s t b hv hm h
  obtain ⟨f, hf⟩ := validFormat_iff.mp hv
  rw [exec_stblk_of_format hf] at h
  obtain rfl := Host.Outcome.next.inj h
  refine ⟨_, exec_ldblk_of_format hf, fun k => ?_⟩
  rw [hf, transferBytes_formatCode]
  refine (loadBlock_get _ s.bptr (blockBytes f) b k).trans ?_
  split
  · exact read_writeBytes_blockPrefix hm s.bptr s.blk k ‹_›
  · rfl

/-! ### The bits of a packed pixel (R54) -/

/-- Settles O27: the bound, and each bit as the packed-pixel bit R54 numbers. -/
theorem pkGetReadsTheBits : Obligations.PkGetReadsTheBits := by
  intro m p o s
  refine ⟨pkGet_lt m p o s, fun j hj => ?_⟩
  rw [testBit_pkGet, decide_eq_true hj, Bool.true_and]
  rfl

/-- Bit `i` of the packed pixel at `p` after `pk_put`, the pixel's bits numbered as in R54. -/
theorem packedBit_pkPut {m : Memory} (hm : Memory.wf m = true) (p : Addr) {o s : Nat} (n : Nat) (h : o + s ≤ 2 ^ 32) {i : Nat}
    (hi : i < 2 ^ 32) :
    packedBit (pkPut m p o s n) p i = if o ≤ i ∧ i < o + s then n.testBit (i - o) else packedBit m p i := by
  rw [packedBit, getLsbD_read_pkPut hm p o s n h _ _ (Nat.mod_lt i (by decide)), sub_addrPlus p (by omega), Nat.div_add_mod]
  rfl

/-- Settles O28: inside the component by the packed-pixel bits, outside it because bit `b` of the byte `d` on from `p` is the
component's only when it is its bit `8 * d + b - o`. -/
theorem pkPutWritesOnlyItsBits : Obligations.PkPutWritesOnlyItsBits := by
  intro m p o s n hm _ hs ho _
  have hspan : o + s ≤ 2 ^ 32 := by omega
  constructor
  · intro j hj
    have hbit := packedBit_pkPut hm p n hspan (i := o + j) (by omega)
    rw [if_pos (by omega), Nat.add_sub_cancel_left] at hbit
    exact hbit
  · intro a b hout
    by_cases hb : b < 8
    · rw [getLsbD_read_pkPut hm p o s n hspan a b hb, if_neg]
      rintro ⟨hlo, hhi⟩
      obtain ⟨j, hj⟩ := Nat.exists_eq_add_of_le hlo
      refine hout j (by omega) ?_ (by omega)
      rw [← hj, Nat.mul_add_div (by decide), Nat.div_eq_of_lt hb, Nat.add_zero]
      exact (addrPlus_sub p a).symm
    · rw [BitVec.getLsbD_of_ge _ _ (by omega), BitVec.getLsbD_of_ge _ _ (by omega)]

end Sys2Proof.Machine
end

section
/-! Family 30_encoding.md, Part A: the decoder and the encoder of command words are inverse (R70, R71, R74), and the opcode map (R72). -/

namespace Sys2Proof

/-! ### The operand fields: exactly the encodings of the operands (R71) -/

theorem ctrlRegOf_eq_some_iff {n : BitVec 8} {cr : CtrlReg} : ctrlRegOf n = some cr ↔ n = cr.number := by
  constructor
  · exact fun h => (number_of_ctrlRegOf h).symm
  · rintro rfl; exact ctrlRegOf_number cr

theorem indexOfField_eq_some_iff {f1 : BitVec 8} {i : Fin 16} : indexOfField f1 = some i ↔ f1 = BitVec.ofNat 8 i.val := by
  constructor
  · exact fun h => (field_of_indexOfField h).symm
  · rintro rfl; exact indexOfField_ofNat i

theorem countOfField_eq_some_iff {imm : BitVec 16} {n : Fin 32} : countOfField imm = some n ↔ imm = BitVec.ofNat 16 n.val := by
  constructor
  · exact fun h => (field_of_countOfField h).symm
  · rintro rfl; exact countOfField_ofNat n

theorem maskOfField_eq_some_iff {imm : BitVec 16} {m : BitVec 4} :
    maskOfField imm = some m ↔ imm = BitVec.ofNat 16 (2 * m.toNat) := by
  constructor
  · exact fun h => (field_of_maskOfField h).symm
  · rintro rfl; exact maskOfField_ofNat m

theorem endpointOfField_eq_some_iff {imm : BitVec 16} {e : Endpoint} : endpointOfField imm = some e ↔ imm = e.bits := by
  constructor
  · exact fun h => (field_of_endpoint h).symm
  · rintro rfl; cases e <;> rfl

theorem colourSchemeOfField_eq_some_iff {imm : BitVec 16} {m : ColourScheme} :
    colourSchemeOfField imm = some m ↔ imm = m.bits := by
  constructor
  · exact fun h => (field_of_colourScheme h).symm
  · rintro rfl; cases m <;> rfl

theorem alphaSchemeOfField_eq_some_iff {imm : BitVec 16} {m : AlphaScheme} :
    alphaSchemeOfField imm = some m ↔ imm = m.bits := by
  constructor
  · exact fun h => (field_of_alphaScheme h).symm
  · rintro rfl; cases m <;> rfl

/-! ### The formats: what each decodes (R71) -/

/-- A check that rejects by name accepts exactly one command, when it holds. -/
theorem ite_eq_ok_iff {p : Prop} [Decidable p] {c i : Instr} {r : Reject} :
    (if p then Except.ok c else .error r) = .ok i ↔ i = c ∧ p := by
  split <;> simp [*, eq_comm]

section Formats

variable {f1 : BitVec 8} {imm : BitVec 16} {i : Instr}

theorem decodeN_eq_ok_iff {c : Instr} : decodeN c f1 imm = .ok i ↔ i = c ∧ f1 = 0 ∧ imm = 0 :=
  ite_eq_ok_iff

theorem decodeC_eq_ok_iff {mk : CtrlReg → BitVec 16 → Instr} {legal : CtrlReg → Bool} :
    decodeC mk legal f1 imm = .ok i ↔ ∃ cr, i = mk cr imm ∧ legal cr = true ∧ f1 = cr.number := by
  unfold decodeC
  simp only [← ctrlRegOf_eq_some_iff]
  cases ctrlRegOf f1 with
  | none => simp
  | some cr => simp [ite_eq_ok_iff]

theorem decodeR_eq_ok_iff : decodeR f1 imm = .ok i ↔ ∃ cr, i = .rdcr cr ∧ f1 = cr.number ∧ imm = 0 := by
  unfold decodeR
  simp only [← ctrlRegOf_eq_some_iff]
  split
  · cases ctrlRegOf f1 <;> simp [*, eq_comm]
  · simp_all

theorem decodeK_eq_ok_iff :
    decodeK f1 imm = .ok i ↔ ∃ m : BitVec 4, i = .clrst m ∧ f1 = 0 ∧ imm = BitVec.ofNat 16 (2 * m.toNat) := by
  unfold decodeK
  simp only [← maskOfField_eq_some_iff]
  split
  · cases maskOfField imm <;> simp [*, eq_comm]
  · simp_all

theorem decodeI_eq_ok_iff {mk : Fin 16 → Instr} :
    decodeI mk f1 imm = .ok i ↔ ∃ n, i = mk n ∧ f1 = BitVec.ofNat 8 n.val ∧ imm = 0 := by
  unfold decodeI
  simp only [← indexOfField_eq_some_iff]
  split
  · cases indexOfField f1 <;> simp [*, eq_comm]
  · simp_all

theorem decodeIE_eq_ok_iff {mk : Fin 16 → Endpoint → Instr} :
    decodeIE mk f1 imm = .ok i ↔ ∃ n e, i = mk n e ∧ f1 = BitVec.ofNat 8 n.val ∧ imm = e.bits := by
  unfold decodeIE
  simp only [← indexOfField_eq_some_iff, ← endpointOfField_eq_some_iff]
  cases indexOfField f1 <;> cases endpointOfField imm <;> simp [eq_comm]

theorem decodeU_eq_ok_iff {mk : Fin 16 → Fin 32 → Instr} :
    decodeU mk f1 imm = .ok i ↔
      ∃ n c, i = mk n c ∧ pixelRangeLegal n c = true ∧ f1 = BitVec.ofNat 8 n.val ∧ imm = BitVec.ofNat 16 c.val := by
  unfold decodeU
  simp only [← indexOfField_eq_some_iff, ← countOfField_eq_some_iff]
  cases indexOfField f1 with
  | none => simp
  | some n =>
    cases countOfField imm with
    | none => simp
    | some c => simp [ite_eq_ok_iff]

theorem decodeM_eq_ok_iff : decodeM f1 imm = .ok i ↔ ∃ m, i = .canon m ∧ f1 = 0 ∧ imm = m.bits := by
  unfold decodeM
  simp only [← colourSchemeOfField_eq_some_iff]
  split
  · cases colourSchemeOfField imm <;> simp [*, eq_comm]
  · simp_all

theorem decodeMA_eq_ok_iff : decodeMA f1 imm = .ok i ↔ ∃ m, i = .canona m ∧ f1 = 0 ∧ imm = m.bits := by
  unfold decodeMA
  simp only [← alphaSchemeOfField_eq_some_iff]
  split
  · cases alphaSchemeOfField imm <;> simp [*, eq_comm]
  · simp_all

end Formats

/-! ### The decoder and the encoder are inverse (R74) -/

/-- A command decoded from three fields is legal, and the fields are its own. -/
theorem fields_of_decodeFields {op f1 : BitVec 8} {imm : BitVec 16} {i : Instr} (h : decodeFields op f1 imm = .ok i) :
    i.wellFormed = true ∧ i.opcode = op ∧ i.f1Bits = f1 ∧ i.immBits = imm := by
  have hop : ∀ {n : Nat}, op.toNat = n → BitVec.ofNat 8 n = op := by rintro n rfl; exact BitVec.ofNat_toNat _ _
  unfold decodeFields at h
  split at h
  case h_1 hn => obtain ⟨rfl, rfl, rfl⟩ := decodeN_eq_ok_iff.mp h; exact ⟨rfl, hop hn, rfl, rfl⟩
  case h_2 hn => obtain ⟨cr, rfl, hcr, rfl⟩ := decodeC_eq_ok_iff.mp h; exact ⟨hcr, hop hn, rfl, rfl⟩
  case h_3 hn => obtain ⟨cr, rfl, hcr, rfl⟩ := decodeC_eq_ok_iff.mp h; exact ⟨hcr, hop hn, rfl, rfl⟩
  case h_4 hn => obtain ⟨cr, rfl, rfl, rfl⟩ := decodeR_eq_ok_iff.mp h; exact ⟨rfl, hop hn, rfl, rfl⟩
  case h_5 hn => obtain ⟨m, rfl, rfl, rfl⟩ := decodeK_eq_ok_iff.mp h; exact ⟨rfl, hop hn, rfl, rfl⟩
  case h_6 hn => obtain ⟨rfl, rfl, rfl⟩ := decodeN_eq_ok_iff.mp h; exact ⟨rfl, hop hn, rfl, rfl⟩
  case h_7 hn => obtain ⟨rfl, rfl, rfl⟩ := decodeN_eq_ok_iff.mp h; exact ⟨rfl, hop hn, rfl, rfl⟩
  case h_8 hn => obtain ⟨n, c, rfl, hr, rfl, rfl⟩ := decodeU_eq_ok_iff.mp h; exact ⟨hr, hop hn, rfl, rfl⟩
  case h_9 hn => obtain ⟨n, c, rfl, hr, rfl, rfl⟩ := decodeU_eq_ok_iff.mp h; exact ⟨hr, hop hn, rfl, rfl⟩
  case h_10 hn => obtain ⟨rfl, rfl, rfl⟩ := decodeN_eq_ok_iff.mp h; exact ⟨rfl, hop hn, rfl, rfl⟩
  case h_11 hn => obtain ⟨n, rfl, rfl, rfl⟩ := decodeI_eq_ok_iff.mp h; exact ⟨rfl, hop hn, rfl, rfl⟩
  case h_12 hn => obtain ⟨n, e, rfl, rfl, rfl⟩ := decodeIE_eq_ok_iff.mp h; exact ⟨rfl, hop hn, rfl, rfl⟩
  case h_13 hn => obtain ⟨n, e, rfl, rfl, rfl⟩ := decodeIE_eq_ok_iff.mp h; exact ⟨rfl, hop hn, rfl, rfl⟩
  case h_14 hn => obtain ⟨rfl, rfl, rfl⟩ := decodeN_eq_ok_iff.mp h; exact ⟨rfl, hop hn, rfl, rfl⟩
  case h_15 hn => obtain ⟨rfl, rfl, rfl⟩ := decodeN_eq_ok_iff.mp h; exact ⟨rfl, hop hn, rfl, rfl⟩
  case h_16 hn => obtain ⟨rfl, rfl, rfl⟩ := decodeN_eq_ok_iff.mp h; exact ⟨rfl, hop hn, rfl, rfl⟩
  case h_17 hn => obtain ⟨n, rfl, rfl, rfl⟩ := decodeI_eq_ok_iff.mp h; exact ⟨rfl, hop hn, rfl, rfl⟩
  case h_18 hn => obtain ⟨m, rfl, rfl, rfl⟩ := decodeM_eq_ok_iff.mp h; exact ⟨rfl, hop hn, rfl, rfl⟩
  case h_19 hn => obtain ⟨m, rfl, rfl, rfl⟩ := decodeMA_eq_ok_iff.mp h; exact ⟨rfl, hop hn, rfl, rfl⟩
  case h_20 hn => obtain ⟨rfl, rfl, rfl⟩ := decodeN_eq_ok_iff.mp h; exact ⟨rfl, hop hn, rfl, rfl⟩
  case h_21 hn => obtain ⟨rfl, rfl, rfl⟩ := decodeN_eq_ok_iff.mp h; exact ⟨rfl, hop hn, rfl, rfl⟩
  case h_22 => cases h

/-- A legal command's own fields decode to it. -/
theorem decodeFields_of_wellFormed {i : Instr} (h : i.wellFormed = true) :
    decodeFields i.opcode i.f1Bits i.immBits = .ok i := by
  cases i with
  | nop => exact decodeN_eq_ok_iff.mpr ⟨rfl, rfl, rfl⟩
  | wrcr cr v => exact decodeC_eq_ok_iff.mpr ⟨cr, rfl, h, rfl⟩
  | wrcrh cr v => exact decodeC_eq_ok_iff.mpr ⟨cr, rfl, h, rfl⟩
  | rdcr cr => exact decodeR_eq_ok_iff.mpr ⟨cr, rfl, rfl, rfl⟩
  | clrst m => exact decodeK_eq_ok_iff.mpr ⟨m, rfl, rfl, rfl⟩
  | ldblk => exact decodeN_eq_ok_iff.mpr ⟨rfl, rfl, rfl⟩
  | stblk => exact decodeN_eq_ok_iff.mpr ⟨rfl, rfl, rfl⟩
  | unpk first cnt => exact decodeU_eq_ok_iff.mpr ⟨first, cnt, rfl, h, rfl, rfl⟩
  | pack first cnt => exact decodeU_eq_ok_iff.mpr ⟨first, cnt, rfl, h, rfl, rfl⟩
  | dec => exact decodeN_eq_ok_iff.mpr ⟨rfl, rfl, rfl⟩
  | decpx n => exact decodeI_eq_ok_iff.mpr ⟨n, rfl, rfl, rfl⟩
  | qnt n e => exact decodeIE_eq_ok_iff.mpr ⟨n, e, rfl, rfl, rfl⟩
  | setea n e => exact decodeIE_eq_ok_iff.mpr ⟨n, e, rfl, rfl, rfl⟩
  | enca3 => exact decodeN_eq_ok_iff.mpr ⟨rfl, rfl, rfl⟩
  | selc => exact decodeN_eq_ok_iff.mpr ⟨rfl, rfl, rfl⟩
  | sela => exact decodeN_eq_ok_iff.mpr ⟨rfl, rfl, rfl⟩
  | setpx n => exact decodeI_eq_ok_iff.mpr ⟨n, rfl, rfl, rfl⟩
  | canon m => exact decodeM_eq_ok_iff.mpr ⟨m, rfl, rfl, rfl⟩
  | canona m => exact decodeMA_eq_ok_iff.mpr ⟨m, rfl, rfl, rfl⟩
  | flipx => exact decodeN_eq_ok_iff.mpr ⟨rfl, rfl, rfl⟩
  | flipy => exact decodeN_eq_ok_iff.mpr ⟨rfl, rfl, rfl⟩

theorem decode_packWord (op f1 : BitVec 8) (imm : BitVec 16) : decode (packWord op f1 imm) = decodeFields op f1 imm := by
  rw [decode, opField_packWord, f1Field_packWord, immField_packWord]

/-- A word decodes to a command exactly when the command is legal and the word is its encoding. -/
theorem decode_eq_ok_iff {w : Word} {i : Instr} : decode w = .ok i ↔ i.wellFormed = true ∧ encode i = w := by
  constructor
  · intro h
    obtain ⟨hwf, hop, hf1, himm⟩ := fields_of_decodeFields h
    exact ⟨hwf, by rw [encode, hop, hf1, himm, packWord_fields]⟩
  · rintro ⟨hwf, rfl⟩
    rw [encode, decode_packWord, decodeFields_of_wellFormed hwf]

/-- Settles O1: the encoding of a legal command holds its own fields, which decode to it. -/
theorem decodeOfEncode : Obligations.DecodeOfEncode :=
  fun _ hwf => decode_eq_ok_iff.mpr ⟨hwf, rfl⟩

/-- Settles O2: each format accepts only the fields of a legal command, and a word is its three fields. -/
theorem decodesOnlyEncodings : Obligations.DecodesOnlyEncodings :=
  fun _ _ h => decode_eq_ok_iff.mp h

/-- Settles O4: each word is the encoding of a legal command. -/
theorem writtenOutWordsDecode : Obligations.WrittenOutWordsDecode := by
  refine ⟨?_, ?_, ?_, ?_, ?_, ?_, ?_, ?_, ?_⟩ <;> exact decode_eq_ok_iff.mpr ⟨rfl, rfl⟩

/-! ### The opcode map by mask and match (R72) -/

theorem packWord_inj {op op' f1 f1' : BitVec 8} {imm imm' : BitVec 16} :
    packWord op f1 imm = packWord op' f1' imm' ↔ op = op' ∧ f1 = f1' ∧ imm = imm' := by
  constructor
  · intro h
    have hop := congrArg opField h
    have hf1 := congrArg f1Field h
    have himm := congrArg immField h
    simp only [opField_packWord, f1Field_packWord, immField_packWord] at hop hf1 himm
    exact ⟨hop, hf1, himm⟩
  · rintro ⟨rfl, rfl, rfl⟩; rfl

theorem packWord_and (op op' f1 f1' : BitVec 8) (imm imm' : BitVec 16) :
    packWord op f1 imm &&& packWord op' f1' imm' = packWord (op &&& op') (f1 &&& f1') (imm &&& imm') :=
  BitVec.and_append.trans (congrArg (· ++ (imm &&& imm')) BitVec.and_append)

/-- A row's mask compares the whole opcode and the must-be-zero bits of `f1` and `imm`. -/
theorem and_packWord_eq_iff {w : Word} {op m1 : BitVec 8} {m2 : BitVec 16} :
    w &&& packWord 0xFF m1 m2 = packWord op 0 0 ↔ opField w = op ∧ f1Field w &&& m1 = 0 ∧ immField w &&& m2 = 0 := by
  have hall : opField w &&& 0xFF = opField w := BitVec.and_allOnes
  conv_lhs => rw [← packWord_fields w, packWord_and, packWord_inj, hall]

/-- Bits `k` and up are zero exactly when the value is below `2 ^ k`. -/
theorem and_highBits_eq_zero_iff {n : Nat} (x : BitVec n) (k : Nat) :
    x &&& (BitVec.allOnes n <<< k) = 0 ↔ x.toNat < 2 ^ k := by
  constructor
  · intro h
    refine Nat.lt_pow_two_of_testBit _ fun j hj => ?_
    by_cases hjn : j < n
    · have hbit := congrArg (fun y => y.getLsbD j) h
      simpa [hjn, Nat.not_lt.mpr hj, show j - k < n by omega, BitVec.testBit_toNat] using hbit
    · exact BitVec.getLsbD_of_ge x j (by omega)
  · intro h
    refine BitVec.eq_of_getLsbD_eq fun j _ => ?_
    by_cases hj : k ≤ j
    · have hbit : x.getLsbD j = false := Nat.testBit_lt_two_pow (Nat.lt_of_lt_of_le h (Nat.pow_le_pow_right (by decide) hj))
      simp [hbit]
    · simp [show j < k by omega]

/-! ### Which fields hold an operand, by their must-be-zero bits (R71) -/

/-- The operands of `k` bits are the fields whose bits from `k` on are zero. -/
theorem exists_ofNat_eq_iff {n k : Nat} (x : BitVec n) (hk : k ≤ n) :
    (∃ v : Fin (2 ^ k), x = BitVec.ofNat n v.val) ↔ x &&& (BitVec.allOnes n <<< k) = 0 := by
  rw [and_highBits_eq_zero_iff]
  constructor
  · rintro ⟨v, rfl⟩
    rw [BitVec.toNat_ofNat, Nat.mod_eq_of_lt (Nat.lt_of_lt_of_le v.isLt (Nat.pow_le_pow_right (by decide) hk))]
    exact v.isLt
  · exact fun h => ⟨⟨x.toNat, h⟩, ((BitVec.ofNat_toNat n x).trans (BitVec.setWidth_eq x)).symm⟩

theorem exists_index_iff {f1 : BitVec 8} : (∃ n : Fin 16, f1 = BitVec.ofNat 8 n.val) ↔ f1 &&& 0xF0 = 0 :=
  exists_ofNat_eq_iff (k := 4) f1 (by decide)

theorem exists_count_iff {imm : BitVec 16} : (∃ c : Fin 32, imm = BitVec.ofNat 16 c.val) ↔ imm &&& 0xFFE0 = 0 :=
  exists_ofNat_eq_iff (k := 5) imm (by decide)

/-- The two values of a one-bit operand. -/
theorem oneBit_iff {imm : BitVec 16} : imm = 0 ∨ imm = 1 ↔ imm &&& 0xFFFE = 0 := by
  refine Iff.trans ?_ (exists_ofNat_eq_iff (k := 1) imm (by decide))
  exact (Fin.exists_fin_two (p := fun v => imm = BitVec.ofNat 16 v.val)).symm

theorem exists_oneBit_iff {α : Type} {bits : α → BitVec 16} {a b : α} (hall : ∀ x, x = a ∨ x = b) (ha : bits a = 0)
    (hb : bits b = 1) {imm : BitVec 16} : (∃ x, imm = bits x) ↔ imm &&& 0xFFFE = 0 := by
  rw [← oneBit_iff]
  constructor
  · rintro ⟨x, rfl⟩
    rcases hall x with rfl | rfl
    · exact .inl ha
    · exact .inr hb
  · rintro (rfl | rfl)
    · exact ⟨a, ha.symm⟩
    · exact ⟨b, hb.symm⟩

theorem exists_endpoint_iff {imm : BitVec 16} : (∃ e : Endpoint, imm = e.bits) ↔ imm &&& 0xFFFE = 0 :=
  exists_oneBit_iff (a := .low) (b := .high) (fun e => by cases e <;> simp) rfl rfl

theorem exists_colourScheme_iff {imm : BitVec 16} : (∃ m : ColourScheme, imm = m.bits) ↔ imm &&& 0xFFFE = 0 :=
  exists_oneBit_iff (a := .fourColour) (b := .threeColour) (fun m => by cases m <;> simp) rfl rfl

theorem exists_alphaScheme_iff {imm : BitVec 16} : (∃ m : AlphaScheme, imm = m.bits) ↔ imm &&& 0xFFFE = 0 :=
  exists_oneBit_iff (a := .eightLevel) (b := .sixLevel) (fun m => by cases m <;> simp) rfl rfl

/-- CLRST's mask stands in `imm[4:1]`: bit 0 and bits 15:5 are zero. -/
theorem exists_mask_iff {imm : BitVec 16} : (∃ m : BitVec 4, imm = BitVec.ofNat 16 (2 * m.toNat)) ↔ imm &&& 0xFFE1 = 0 := by
  have hsplit : imm &&& 0xFFE1 = 0 ↔ imm &&& 1 = 0 ∧ imm &&& 0xFFE0 = 0 := by
    rw [show (0xFFE1 : BitVec 16) = 1 ||| 0xFFE0 from rfl, BitVec.and_or_distrib_left]
    exact BitVec.or_eq_zero_iff
  rw [hsplit, ← exists_count_iff]
  constructor
  · rintro ⟨m, rfl⟩
    revert m; decide
  · rintro ⟨heven, c, rfl⟩
    revert c; decide

/-- The registers a column of R72 allows, through the number's own register. -/
theorem exists_ctrlReg_iff {f1 : BitVec 8} (legal : CtrlReg → Bool) :
    (∃ cr, legal cr = true ∧ f1 = cr.number) ↔ (ctrlRegOf f1).any legal = true := by
  simp only [Option.any_eq_true, ctrlRegOf_eq_some_iff, and_comm]

theorem exists_writable_iff {f1 : BitVec 8} :
    (∃ cr : CtrlReg, cr.writable = true ∧ f1 = cr.number) ↔ f1.toNat ∈ [0, 1, 4, 5, 6, 8, 9, 10, 11, 12, 13, 14, 15] := by
  rw [exists_ctrlReg_iff]
  revert f1; decide

theorem exists_hasUpperHalf_iff {f1 : BitVec 8} :
    (∃ cr : CtrlReg, cr.hasUpperHalf = true ∧ f1 = cr.number) ↔ f1.toNat ∈ [4, 5] := by
  rw [exists_ctrlReg_iff]
  revert f1; decide

theorem exists_number_iff {f1 : BitVec 8} :
    (∃ cr : CtrlReg, f1 = cr.number) ↔ f1.toNat ∈ [0, 1, 2, 3, 4, 5, 6, 8, 9, 10, 11, 12, 13, 14, 15] := by
  have hall := exists_ctrlReg_iff (f1 := f1) fun _ => true
  simp only [true_and] at hall
  rw [hall]
  clear hall
  revert f1; decide

/-! ### Which fields each format accepts -/

section Accepts

variable {f1 : BitVec 8} {imm : BitVec 16}

theorem and_0xFF_eq_self (f1 : BitVec 8) : f1 &&& 0xFF = f1 := BitVec.and_allOnes

theorem and_0xFFFF_eq_self (imm : BitVec 16) : imm &&& 0xFFFF = imm := BitVec.and_allOnes

theorem and_zero_eq_zero {n : Nat} (x : BitVec n) : (x &&& 0 = 0) = True := eq_true BitVec.and_zero

theorem decodeN_accepts {c : Instr} : (∃ i, decodeN c f1 imm = .ok i) ↔ f1 &&& 0xFF = 0 ∧ imm &&& 0xFFFF = 0 := by
  simp only [decodeN_eq_ok_iff, exists_eq_left, and_0xFF_eq_self, and_0xFFFF_eq_self]

theorem decodeC_accepts {mk : CtrlReg → BitVec 16 → Instr} {legal : CtrlReg → Bool} :
    (∃ i, decodeC mk legal f1 imm = .ok i) ↔ ∃ cr, legal cr = true ∧ f1 = cr.number := by
  simp only [decodeC_eq_ok_iff]
  rw [exists_comm]
  simp only [exists_eq_left]

theorem decodeR_accepts : (∃ i, decodeR f1 imm = .ok i) ↔ imm &&& 0xFFFF = 0 ∧ ∃ cr : CtrlReg, f1 = cr.number := by
  simp only [decodeR_eq_ok_iff, and_0xFFFF_eq_self]
  rw [exists_comm]
  simp only [exists_eq_left, exists_and_right, and_comm (a := imm = 0)]

theorem decodeK_accepts : (∃ i, decodeK f1 imm = .ok i) ↔ f1 &&& 0xFF = 0 ∧ imm &&& 0xFFE1 = 0 := by
  simp only [decodeK_eq_ok_iff, ← exists_mask_iff, and_0xFF_eq_self]
  rw [exists_comm]
  simp only [exists_eq_left, exists_and_left]

theorem decodeI_accepts {mk : Fin 16 → Instr} :
    (∃ i, decodeI mk f1 imm = .ok i) ↔ f1 &&& 0xF0 = 0 ∧ imm &&& 0xFFFF = 0 := by
  simp only [decodeI_eq_ok_iff, ← exists_index_iff, and_0xFFFF_eq_self]
  rw [exists_comm]
  simp only [exists_eq_left, exists_and_right]

theorem decodeIE_accepts {mk : Fin 16 → Endpoint → Instr} :
    (∃ i, decodeIE mk f1 imm = .ok i) ↔ f1 &&& 0xF0 = 0 ∧ imm &&& 0xFFFE = 0 := by
  simp only [decodeIE_eq_ok_iff, ← exists_index_iff, ← exists_endpoint_iff]
  constructor
  · rintro ⟨_, n, e, -, hn, he⟩; exact ⟨⟨n, hn⟩, e, he⟩
  · rintro ⟨⟨n, hn⟩, e, he⟩; exact ⟨_, n, e, rfl, hn, he⟩

theorem decodeM_accepts : (∃ i, decodeM f1 imm = .ok i) ↔ f1 &&& 0xFF = 0 ∧ imm &&& 0xFFFE = 0 := by
  simp only [decodeM_eq_ok_iff, ← exists_colourScheme_iff, and_0xFF_eq_self]
  rw [exists_comm]
  simp only [exists_eq_left, exists_and_left]

theorem decodeMA_accepts : (∃ i, decodeMA f1 imm = .ok i) ↔ f1 &&& 0xFF = 0 ∧ imm &&& 0xFFFE = 0 := by
  simp only [decodeMA_eq_ok_iff, ← exists_alphaScheme_iff, and_0xFF_eq_self]
  rw [exists_comm]
  simp only [exists_eq_left, exists_and_left]

theorem pixelRangeLegal_iff {n : Fin 16} {c : Fin 32} :
    pixelRangeLegal n c = true ↔ 1 ≤ c.val ∧ c.val ≤ 16 ∧ n.val + c.val ≤ 16 := by
  simp only [pixelRangeLegal, Bool.and_eq_true, decide_eq_true_eq, and_assoc]

theorem decodeU_accepts {mk : Fin 16 → Fin 32 → Instr} :
    (∃ i, decodeU mk f1 imm = .ok i) ↔
      f1 &&& 0xF0 = 0 ∧ imm &&& 0xFFE0 = 0 ∧ 1 ≤ imm.toNat ∧ imm.toNat ≤ 16 ∧ f1.toNat + imm.toNat ≤ 16 := by
  simp only [decodeU_eq_ok_iff, ← exists_index_iff, ← exists_count_iff, pixelRangeLegal_iff]
  have hval : ∀ (n : Fin 16) (c : Fin 32), (BitVec.ofNat 8 n.val).toNat = n.val ∧ (BitVec.ofNat 16 c.val).toNat = c.val :=
    fun n c => ⟨Nat.mod_eq_of_lt (by omega), Nat.mod_eq_of_lt (by omega)⟩
  constructor
  · rintro ⟨_, n, c, -, hr, rfl, rfl⟩
    obtain ⟨hn, hc⟩ := hval n c
    exact ⟨⟨n, rfl⟩, ⟨c, rfl⟩, by rwa [hn, hc]⟩
  · rintro ⟨⟨n, rfl⟩, ⟨c, rfl⟩, hr⟩
    obtain ⟨hn, hc⟩ := hval n c
    rw [hn, hc] at hr
    exact ⟨_, n, c, rfl, hr, rfl, rfl⟩

end Accepts

/-! ### The rows (R72) -/

open Claims

/-- The match column is the opcode with zero fields, so rows differ in their opcodes. -/
theorem tableMatch_eq (i : Instr) : i.tableMatch = packWord i.opcode 0 0 := by
  cases i <;> (simp only [Instr.tableMatch, Instr.opcode]; decide)

/-- A row of the map, from its mask's two fields and what its format accepts. -/
theorem decodes_to_row_iff {w : Word} {row : Instr} (m1 : BitVec 8) (m2 : BitVec 16)
    (hmask : row.tableMask = packWord 0xFF m1 m2)
    (haccepts : (∃ i, decodeFields row.opcode (f1Field w) (immField w) = .ok i) ↔
      f1Field w &&& m1 = 0 ∧ immField w &&& m2 = 0 ∧ furtherLegality w row) :
    (∃ i, decode w = .ok i ∧ i.tableMatch = row.tableMatch) ↔
      (w &&& row.tableMask = row.tableMatch ∧ furtherLegality w row) := by
  rw [hmask, tableMatch_eq row, and_packWord_eq_iff, and_assoc, and_assoc, ← haccepts]
  simp only [tableMatch_eq, packWord_inj, and_true]
  constructor
  · rintro ⟨i, hi, hrow⟩
    obtain ⟨-, hop, -⟩ := fields_of_decodeFields hi
    have hop : opField w = row.opcode := hop.symm.trans hrow
    exact ⟨hop, i, hop ▸ hi⟩
  · rintro ⟨hop, i, hi⟩
    obtain ⟨-, hrow, -⟩ := fields_of_decodeFields hi
    rw [← hop] at hi
    exact ⟨i, hi, hrow⟩

/-- UNPK's and PACK's legality read off the word is that of its fields, once the must-be-zero bits are zero. -/
theorem pixelRange_of_word {w : Word} (hf1 : f1Field w &&& 0xF0 = 0) (himm : immField w &&& 0xFFE0 = 0) :
    (f1Field w).toNat = (w.extractLsb' 16 4).toNat ∧ (immField w).toNat = (w.extractLsb' 0 5).toNat := by
  have hf1 : (f1Field w).toNat < 2 ^ 4 := (and_highBits_eq_zero_iff (f1Field w) 4).mp hf1
  have himm : (immField w).toNat < 2 ^ 5 := (and_highBits_eq_zero_iff (immField w) 5).mp himm
  simp only [f1Field, immField, BitVec.extractLsb'_toNat, Nat.shiftRight_eq_div_pow] at hf1 himm ⊢
  omega

/-- A row without further legality is its mask alone. -/
theorem unconstrained_row_iff {w : Word} {row : Instr} (m1 : BitVec 8) (m2 : BitVec 16)
    (hlegal : furtherLegality w row = True) (hmask : row.tableMask = packWord 0xFF m1 m2)
    (haccepts : (∃ i, decodeFields row.opcode (f1Field w) (immField w) = .ok i) ↔ f1Field w &&& m1 = 0 ∧ immField w &&& m2 = 0) :
    (∃ i, decode w = .ok i ∧ i.tableMatch = row.tableMatch) ↔
      (w &&& row.tableMask = row.tableMatch ∧ furtherLegality w row) :=
  decodes_to_row_iff m1 m2 hmask (by rw [hlegal, and_true]; exact haccepts)

/-- A format C row: WRCR and WRCRH compare the opcode alone. -/
theorem registerRow_iff {w : Word} {row : Instr} {mk : CtrlReg → BitVec 16 → Instr} {legal : CtrlReg → Bool}
    (hmask : row.tableMask = packWord 0xFF 0 0)
    (hformat : decodeFields row.opcode (f1Field w) (immField w) = decodeC mk legal (f1Field w) (immField w))
    (hlegal : (∃ cr, legal cr = true ∧ f1Field w = cr.number) ↔ furtherLegality w row) :
    (∃ i, decode w = .ok i ∧ i.tableMatch = row.tableMatch) ↔
      (w &&& row.tableMask = row.tableMatch ∧ furtherLegality w row) := by
  refine decodes_to_row_iff 0 0 hmask ?_
  rw [hformat, decodeC_accepts, hlegal, and_zero_eq_zero, and_zero_eq_zero, true_and, true_and]

/-- A format U row: UNPK and PACK. -/
theorem pixelRangeRow_iff {w : Word} {row : Instr} {mk : Fin 16 → Fin 32 → Instr}
    (hmask : row.tableMask = packWord 0xFF 0xF0 0xFFE0)
    (hformat : decodeFields row.opcode (f1Field w) (immField w) = decodeU mk (f1Field w) (immField w))
    (hlegal : furtherLegality w row = (1 ≤ (w.extractLsb' 0 5).toNat ∧ (w.extractLsb' 0 5).toNat ≤ 16
      ∧ (w.extractLsb' 16 4).toNat + (w.extractLsb' 0 5).toNat ≤ 16)) :
    (∃ i, decode w = .ok i ∧ i.tableMatch = row.tableMatch) ↔
      (w &&& row.tableMask = row.tableMatch ∧ furtherLegality w row) := by
  refine decodes_to_row_iff 0xF0 0xFFE0 hmask ?_
  rw [hformat, decodeU_accepts, hlegal]
  refine and_congr_right fun hf1 => and_congr_right fun himm => ?_
  obtain ⟨hfirst, hcnt⟩ := pixelRange_of_word hf1 himm
  rw [hfirst, hcnt]

/-- Settles O3: each row by its mask's fields and what its format accepts. -/
theorem opcodeMapIsTheTable : Obligations.OpcodeMapIsTheTable := by
  intro w row
  cases row with
  | nop => exact unconstrained_row_iff 0xFF 0xFFFF rfl rfl decodeN_accepts
  | wrcr cr v => exact registerRow_iff rfl rfl exists_writable_iff
  | wrcrh cr v => exact registerRow_iff rfl rfl exists_hasUpperHalf_iff
  | rdcr cr =>
    refine decodes_to_row_iff 0 0xFFFF rfl (decodeR_accepts.trans ?_)
    rw [exists_number_iff, and_zero_eq_zero, true_and]
    rfl
  | clrst m => exact unconstrained_row_iff 0xFF 0xFFE1 rfl rfl decodeK_accepts
  | ldblk => exact unconstrained_row_iff 0xFF 0xFFFF rfl rfl decodeN_accepts
  | stblk => exact unconstrained_row_iff 0xFF 0xFFFF rfl rfl decodeN_accepts
  | unpk first cnt => exact pixelRangeRow_iff rfl rfl rfl
  | pack first cnt => exact pixelRangeRow_iff rfl rfl rfl
  | dec => exact unconstrained_row_iff 0xFF 0xFFFF rfl rfl decodeN_accepts
  | decpx n => exact unconstrained_row_iff 0xF0 0xFFFF rfl rfl decodeI_accepts
  | qnt n e => exact unconstrained_row_iff 0xF0 0xFFFE rfl rfl decodeIE_accepts
  | setea n e => exact unconstrained_row_iff 0xF0 0xFFFE rfl rfl decodeIE_accepts
  | enca3 => exact unconstrained_row_iff 0xFF 0xFFFF rfl rfl decodeN_accepts
  | selc => exact unconstrained_row_iff 0xFF 0xFFFF rfl rfl decodeN_accepts
  | sela => exact unconstrained_row_iff 0xFF 0xFFFF rfl rfl decodeN_accepts
  | setpx n => exact unconstrained_row_iff 0xF0 0xFFFF rfl rfl decodeI_accepts
  | canon m => exact unconstrained_row_iff 0xFF 0xFFFE rfl rfl decodeM_accepts
  | canona m => exact unconstrained_row_iff 0xFF 0xFFFE rfl rfl decodeMA_accepts
  | flipx => exact unconstrained_row_iff 0xFF 0xFFFF rfl rfl decodeN_accepts
  | flipy => exact unconstrained_row_iff 0xFF 0xFFFF rfl rfl decodeN_accepts

end Sys2Proof
end

section
/-! Family 30_encoding.md, Parts A and B: LI (R76), and the fields of the elements and ETC1's colours from the element's bytes (R80, R84,
R85, R87 to R89, R170 to R174). -/

namespace Sys2Proof.Machine

open Claims

/-! ### LI: the two halves of a pointer register (R76, R111, R113) -/

/-- A command whose effect is a state leaves that state, OK set, to the commands after it. -/
theorem runCommands_cons_of_ok {i : Instr} {is : List Instr} {s u : State} (h : effectOf i s = .ok u) :
    runCommands (i :: is) s = runCommands is (u.setStatus (setOk u.status)) := by
  rw [runCommands, exec_of_ok h]

theorem setOk_setOk (st : BitVec 5) : setOk (setOk st) = setOk st := by
  revert st; decide

/-- WRCR writes the lower half and clears the upper; WRCRH then writes the upper and keeps the lower. -/
theorem withUpperHalf_lowerHalf (v : Word) : withUpperHalf (v.extractLsb' 16 16) ((v.extractLsb' 0 16).setWidth 32) = v := by
  have hlow : ((v.extractLsb' 0 16).setWidth 32).extractLsb' 0 16 = v.extractLsb' 0 16 := by
    rw [BitVec.extractLsb'_setWidth_of_le (by decide)]
    exact BitVec.extractLsb'_eq_self
  rw [withUpperHalf, hlow, BitVec.extractLsb'_append_extractLsb'_eq_extractLsb' (by decide)]
  exact BitVec.extractLsb'_eq_self

theorem runCommands_li_bptr (v : Word) (s : State) :
    runCommands [.wrcr .bptr (v.extractLsb' 0 16), .wrcrh .bptr (v.extractLsb' 16 16)] s =
      some { s with bptr := v, status := okStatus s } := by
  rw [runCommands_cons_of_ok (u := s.setBptr ((v.extractLsb' 0 16).setWidth 32)) rfl, runCommands_cons_of_ok rfl]
  exact congrArg₂ (fun p st => some { s with bptr := p, status := st }) (withUpperHalf_lowerHalf v) (setOk_setOk s.status)

theorem runCommands_li_pptr (v : Word) (s : State) :
    runCommands [.wrcr .pptr (v.extractLsb' 0 16), .wrcrh .pptr (v.extractLsb' 16 16)] s =
      some { s with pptr := v, status := okStatus s } := by
  rw [runCommands_cons_of_ok (u := s.setPptr ((v.extractLsb' 0 16).setWidth 32)) rfl, runCommands_cons_of_ok rfl]
  exact congrArg₂ (fun p st => some { s with pptr := p, status := st }) (withUpperHalf_lowerHalf v) (setOk_setOk s.status)

/-- Settles O57: both commands of the expansion are legal, and together they write both halves of the pointer. -/
theorem liLoadsThePointer : Obligations.LiLoadsThePointer := by
  intro v s
  exact ⟨⟨_, rfl, rfl, by simp [Instr.wellFormed, CtrlReg.writable, CtrlReg.hasUpperHalf], runCommands_li_bptr v s⟩,
    ⟨_, rfl, rfl, by simp [Instr.wellFormed, CtrlReg.writable, CtrlReg.hasUpperHalf], runCommands_li_pptr v s⟩⟩

/-! ### The bytes of an element's bit strings (R80, R84, R85, R87) -/

theorem getLsbD_byteOf {n : Nat} (w : BitVec n) (k : Nat) : w.getLsbD k = (byteOf w (k / 8)).getLsbD (k % 8) := by
  simp only [byteOf, BitVec.getLsbD_extractLsb', Nat.mod_lt k (by decide : 8 > 0), decide_true, Bool.true_and, Nat.div_add_mod]

/-- A field that does not straddle bytes is a field of its byte. -/
theorem extractLsb'_byteOf {n : Nat} (w : BitVec n) (lo len : Nat) (h : lo % 8 + len ≤ 8) :
    w.extractLsb' lo len = (byteOf w (lo / 8)).extractLsb' (lo % 8) len := by
  refine BitVec.eq_of_getLsbD_eq fun i hi => ?_
  simp only [byteOf, BitVec.getLsbD_extractLsb', hi, show lo % 8 + i < 8 by omega, decide_true, Bool.true_and]
  rw [← Nat.add_assoc, Nat.div_add_mod]

/-- Such a field as a number: the byte shifted down and cut. -/
theorem toNat_field_of_byte {n : Nat} {w : BitVec n} {b : Byte} {lo len : Nat} (hb : byteOf w (lo / 8) = b)
    (h : lo % 8 + len ≤ 8) : (w.extractLsb' lo len).toNat = b.toNat / 2 ^ (lo % 8) % 2 ^ len := by
  rw [extractLsb'_byteOf w lo len h, hb, BitVec.extractLsb'_toNat, Nat.shiftRight_eq_div_pow]

theorem byteOf_dxt3Word (e : Elem) (k : Fin 8) : byteOf (dxt3Word e) k.val = e[k] := by
  rw [dxt3Word, byteOf_append8 _ _ _ _ _ _ _ _ k.val k.isLt]
  fin_cases k <;> rfl

/-- DXT1's selectors are the upper four bytes of the little-endian element, DXT5's the upper six. -/
theorem byteOf_dxt1Selectors (e : Elem) (k : Nat) : byteOf (dxt1Selectors e) k = byteOf (dxt3Word e) (k + 4) := by
  rw [show dxt3Word e = dxt1Selectors e ++ e[3] ++ e[2] ++ e[1] ++ e[0] from rfl]
  iterate 4 rw [byteOf_append_succ]

theorem byteOf_dxt5Selectors (e : Elem) (k : Nat) : byteOf (dxt5Selectors e) k = byteOf (dxt3Word e) (k + 2) := by
  rw [show dxt3Word e = dxt5Selectors e ++ e[1] ++ e[0] from rfl]
  iterate 2 rw [byteOf_append_succ]

/-- A big-endian element is the little-endian one of its bytes reversed. -/
theorem byteOf_etc1Word (e : Elem) (k : Fin 8) : byteOf (etc1Word e) (7 - k.val) = e[k] := by
  rw [etc1Word, byteOf_append8 _ _ _ _ _ _ _ _ (7 - k.val) (by omega)]
  fin_cases k <;> rfl

/-- Two bytes of a 16-bit string as a number, high byte first. -/
theorem toNat_bytePair (hi lo : Byte) : (hi ++ lo).toNat = 256 * hi.toNat + lo.toNat := by
  rw [BitVec.toNat_append, ← Nat.shiftLeft_add_eq_or_of_lt lo.isLt, Nat.shiftLeft_eq, Nat.mul_comm]

/-! ### The fields of DXT1, DXT3 and DXT5 elements (R80, R84, R85) -/

theorem toNat_dxt1Sel (e : Elem) (i : Fin 16) (j : Fin 8) (hj : j.val = 4 + i.val / 4) :
    (dxt1Sel e i).toNat = e[j].toNat / 4 ^ (i.val % 4) % 4 := by
  have hb : byteOf (dxt1Selectors e) (2 * i.val / 8) = e[j] := by
    rw [byteOf_dxt1Selectors, show 2 * i.val / 8 + 4 = j.val by omega, byteOf_dxt3Word]
  rw [dxt1Sel, toNat_field_of_byte hb (by omega), show 2 * i.val % 8 = 2 * (i.val % 4) by omega, pow_mul]
  rfl

theorem toNat_dxt3A4 (e : Elem) (i : Fin 16) (j : Fin 8) (hj : j.val = i.val / 2) :
    (dxt3A4 e i).toNat = e[j].toNat / 16 ^ (i.val % 2) % 16 := by
  have hb : byteOf (dxt3Word e) (4 * i.val / 8) = e[j] := by
    rw [show 4 * i.val / 8 = j.val by omega, byteOf_dxt3Word]
  rw [dxt3A4, toNat_field_of_byte hb (by omega), show 4 * i.val % 8 = 4 * (i.val % 2) by omega, pow_mul]
  rfl

/-- A DXT5 selector can straddle two bytes, so its bits are found one by one. -/
theorem getLsbD_dxt5Sel (e : Elem) (i : Fin 16) {n : Nat} (j : Fin 8) (hn : n < 3) (hj : j.val = 2 + (3 * i.val + n) / 8) :
    (dxt5Sel e i).getLsbD n = e[j].getLsbD ((3 * i.val + n) % 8) := by
  rw [dxt5Sel, BitVec.getLsbD_extractLsb', decide_eq_true hn, Bool.true_and, getLsbD_byteOf, byteOf_dxt5Selectors,
    show (3 * i.val + n) / 8 + 2 = j.val by omega, byteOf_dxt3Word]

/-- Settles O60: elements by `elemOf_get`, fields by the byte they stand in. -/
theorem elementFieldsFromBytes : Obligations.ElementFieldsFromBytes := by
  constructor
  · intro b k j n hn
    exact (elemOf_get b k j.val j.isLt).trans (getElem_congr_idx hn.symm)
  · intro e i
    refine ⟨?_, ?_, toNat_dxt1Sel e i, toNat_dxt3A4 e i, rfl, rfl, fun n j hn hj => getLsbD_dxt5Sel e i j hn hj⟩
    · rw [dxt1Low, toNat_bytePair, Nat.add_comm]
    · rw [dxt1High, toNat_bytePair, Nat.add_comm]

/-! ### The fields of an ETC1 element (R87 to R89) -/

theorem etc1Field_of_byte (e : Elem) (k : Fin 8) {lo len : Nat} (hk : lo / 8 = 7 - k.val) (h : lo % 8 + len ≤ 8) :
    etc1Field e lo len = e[k].toNat / 2 ^ (lo % 8) % 2 ^ len :=
  toNat_field_of_byte (by rw [hk, byteOf_etc1Word]) h

theorem etc1Bit_of_byte (e : Elem) (k : Fin 8) {n : Nat} (hk : n / 8 = 7 - k.val) :
    (etc1Word e).getLsbD n = e[k].getLsbD (n % 8) := by
  rw [getLsbD_byteOf, hk, byteOf_etc1Word]

theorem etc1Diff_eq (e : Elem) : etc1Diff e = decide (e[3].toNat / 2 % 2 = 1) :=
  (etc1Bit_of_byte e 3 rfl).trans Nat.testBit_eq_decide_div_mod_eq

theorem etc1Flip_eq (e : Elem) : etc1Flip e = decide (e[3].toNat % 2 = 1) :=
  (etc1Bit_of_byte e 3 rfl).trans (Nat.testBit_zero ..)

/-- A plane of raw indices is a pair of bytes, high byte first (R88). -/
theorem etc1Plane (e : Elem) (hi lo : Fin 8) {base n : Nat} (hbase : base = 8 * (7 - lo.val)) (hpair : hi.val + 1 = lo.val)
    (hn : n < 16) : (etc1Word e).getLsbD (base + n) = (256 * e[hi].toNat + e[lo].toNat).testBit n := by
  rw [← toNat_bytePair, BitVec.testBit_toNat, BitVec.getLsbD_append]
  split
  · rw [etc1Bit_of_byte e lo (by omega), show (base + n) % 8 = n by omega]
  · rw [etc1Bit_of_byte e hi (by omega), show (base + n) % 8 = n - 8 by omega]

/-- The raw index of a pixel: its sign bit in bytes 4 and 5, its size bit in bytes 6 and 7. -/
theorem etc1Sel_eq (e : Elem) (i : Fin 16) :
    etc1Sel e i =
      BitVec.ofBool ((256 * e[4].toNat + e[5].toNat).testBit (etc1Number i)) ++
        BitVec.ofBool ((256 * e[6].toNat + e[7].toNat).testBit (etc1Number i)) := by
  have hlarge := etc1Plane e 6 7 (base := 0) rfl rfl (etc1Number_lt i)
  rw [Nat.zero_add] at hlarge
  rw [etc1Sel, etc1Plane e 4 5 (base := 16) rfl rfl (etc1Number_lt i), hlarge]
  rfl

theorem etc1Second_eq (e : Elem) (i : Fin 16) : etc1Second e i = decide (etc1Sub e i = .two) := by
  have hhalf : ∀ n : Nat, decide (2 ≤ n) = decide ((if n < 2 then SubBlock.one else SubBlock.two) = .two) := by
    intro n
    by_cases h : n < 2
    · simp [h]
    · simp [h, Nat.not_lt.mp h]
  simp only [etc1Second, etc1Sub, etc1Flip_eq, decide_eq_true_eq, pixelX, pixelY]
  split
  · exact hhalf _
  · exact hhalf _

theorem toNat_etc1TableIndex (e : Elem) (sb : SubBlock) :
    (etc1TableIndex e sb).toNat = if decide (sb = .two) then e[3].toNat / 4 % 8 else e[3].toNat / 32 := by
  have h3 := e[3].isLt
  cases sb with
  | one =>
    refine (etc1Field_of_byte e 3 (lo := 37) (len := 3) rfl (by decide)).trans ?_
    show e[3].toNat / 32 % 8 = e[3].toNat / 32
    omega
  | two => exact etc1Field_of_byte e 3 (lo := 34) (len := 3) rfl (by decide)

/-! ### The colours of an ETC1 element (R170 to R174) -/

theorem expand5_eq {n : Nat} (h : n < 32) : expand5 n = 8 * n + n / 4 := by
  rw [expand5, Nat.shiftRight_eq_div_pow, ← Nat.shiftLeft_add_eq_or_of_lt (by omega), Nat.shiftLeft_eq]
  omega

theorem expand4_eq {n : Nat} (h : n < 16) : expand4 n = 17 * n := by
  rw [expand4, ← Nat.shiftLeft_add_eq_or_of_lt h, Nat.shiftLeft_eq]
  omega

theorem toNat_etc1Base5 {n : Nat} (h : n < 32) : ((etc1Base5 n).toNat : Int) = etc1Expand5 n := by
  rw [etc1Base5, expand5_eq h, toNat_toByte (by omega), etc1Expand5]
  omega

theorem toNat_etc1Base4 {n : Nat} (h : n < 16) : ((etc1Base4 n).toNat : Int) = 17 * n := by
  rw [etc1Base4, expand4_eq h, toNat_toByte (by omega)]
  omega

theorem toNat_clamp255 (v : Int) : ((clamp255 v).toNat : Int) = min 255 (max 0 v) := by
  unfold clamp255
  split
  · simp; omega
  · split
    · simp; omega
    · rw [toNat_toByte (by omega)]; omega

/-- R171 and R170: the raw index's two bits are the modifier's sign and size. -/
theorem etc1Mod_eq (t : BitVec 3) (negative large : Bool) :
    etc1Mod t (BitVec.ofBool negative ++ BitVec.ofBool large) = etc1Modifier t.toNat negative large := by
  revert t negative large; decide

/-- A field of colour channel `k`, which stands in byte `k` of the element, bits `r` and up. -/
theorem etc1Field_channel (e : Elem) (k : Fin 3) (r len : Nat) (hr : r < 8) (h : r + len ≤ 8) :
    etc1Field e (8 * (7 - k.val) + r) len = e[k.val].toNat / 2 ^ r % 2 ^ len := by
  have hfield := etc1Field_of_byte e ⟨k.val, by omega⟩ (lo := 8 * (7 - k.val) + r) (len := len)
    (show (8 * (7 - k.val) + r) / 8 = 7 - k.val by omega) (by omega)
  rwa [show (8 * (7 - k.val) + r) % 8 = r by omega] at hfield

/-- The whole upper part of a channel's byte. -/
theorem etc1Field_channel_top (e : Elem) (k : Fin 3) (r len : Nat) (hr : r < 8) (h : r + len = 8) :
    etc1Field e (8 * (7 - k.val) + r) len = e[k.val].toNat / 2 ^ r := by
  rw [etc1Field_channel e k r len hr (by omega)]
  refine Nat.mod_eq_of_lt (Nat.div_lt_of_lt_mul ?_)
  rw [← Nat.pow_add, h]
  exact e[k.val].isLt

/-- The differential sum of channel `k` (R173): its upper five bits plus its signed lower three. -/
def etc1SumChannel (e : Elem) (k : Fin 3) : Int := etc1Sum e (8 * (7 - k.val) + 3) (8 * (7 - k.val) + 0)

theorem etc1SumChannel_eq (e : Elem) (k : Fin 3) :
    etc1SumChannel e k = (e[k.val].toNat / 8 : Nat) + etc1Delta e[k.val].toNat := by
  rw [etc1SumChannel, etc1Sum, etc1Field_channel_top e k 3 5 (by decide) rfl, etc1Field_channel e k 0 3 (by decide) (by decide),
    Nat.pow_zero, Nat.div_one]
  rfl

theorem etc1Invalid_iff (e : Elem) :
    etc1Invalid e = true ↔ etc1Diff e = true ∧ ∃ k : Fin 3, etc1SumChannel e k < 0 ∨ 31 < etc1SumChannel e k := by
  simp only [etc1Invalid, etc1OutOfRange, Bool.and_eq_true, Bool.or_eq_true, decide_eq_true_eq, Fin.exists_fin_succ,
    Fin.exists_fin_zero, or_false, or_assoc]
  rfl

/-- Channel `k` of the base colour of a sub-block (R172, R173), as a function of its byte. -/
def etc1BaseChannel (e : Elem) (sb : SubBlock) (k : Fin 3) : Byte :=
  match etc1Diff e, sb with
  | true, .one => etc1Base5 (etc1Field e (8 * (7 - k.val) + 3) 5)
  | true, .two => etc1Base5 (etc1Clamp31 (etc1SumChannel e k))
  | false, .one => etc1Base4 (etc1Field e (8 * (7 - k.val) + 4) 4)
  | false, .two => etc1Base4 (etc1Field e (8 * (7 - k.val) + 0) 4)

theorem etc1Base_eq (e : Elem) (sb : SubBlock) :
    etc1Base e sb = ⟨etc1BaseChannel e sb 0, etc1BaseChannel e sb 1, etc1BaseChannel e sb 2, 255⟩ := by
  unfold etc1Base etc1BaseChannel
  cases etc1Diff e <;> cases sb <;> rfl

theorem toNat_etc1BaseChannel (e : Elem) (sb : SubBlock) (k : Fin 3) :
    ((etc1BaseChannel e sb k).toNat : Int) = etc1BaseOf e (decide (sb = .two)) e[k.val].toNat := by
  have hbyte := e[k.val].isLt
  have hdiff := etc1Diff_eq e
  unfold etc1BaseChannel etc1BaseOf
  cases hd : etc1Diff e with
  | true =>
    rw [if_pos (by simpa [hd] using hdiff)]
    cases sb with
    | one =>
      rw [etc1Field_channel_top e k 3 5 (by decide) rfl]
      exact toNat_etc1Base5 (by omega)
    | two =>
      rw [← etc1SumChannel_eq]
      refine (toNat_etc1Base5 (n := etc1Clamp31 (etc1SumChannel e k)) (by unfold etc1Clamp31; omega)).trans ?_
      rw [etc1Clamp31, Int.toNat_of_nonneg (by omega)]
      rfl
  | false =>
    rw [if_neg (by simpa [hd] using hdiff)]
    cases sb with
    | one =>
      rw [etc1Field_channel_top e k 4 4 (by decide) rfl]
      exact toNat_etc1Base4 (by omega)
    | two =>
      rw [etc1Field_channel e k 0 4 (by decide) (by decide), Nat.pow_zero, Nat.div_one]
      exact toNat_etc1Base4 (by omega)

/-- Channel `k` of an ETC1 pixel: the clamp of base plus modifier, on integers. -/
theorem toNat_etc1PxChannel (e : Elem) (i : Fin 16) (k : Fin 3) :
    ((clamp255 ((etc1BaseChannel e (etc1Sub e i) k).toNat + etc1Mod (etc1TableIndex e (etc1Sub e i)) (etc1Sel e i))).toNat :
      Int) = etc1Channel e i e[k.val].toNat := by
  rw [toNat_clamp255, toNat_etc1BaseChannel, etc1Sel_eq, etc1Mod_eq, toNat_etc1TableIndex, ← etc1Second_eq]
  rfl

/-- Settles O35: validity by the three differential sums, each colour channel by its byte. -/
theorem etc1PixelFromBytes : Obligations.Etc1PixelFromBytes := by
  constructor
  · intro e
    simp only [etc1Invalid_iff, etc1Diff_eq, etc1SumChannel_eq, decide_eq_true_eq]
  · intro e i
    have hpx : etc1Px e i = etc1Shift (etc1Base e (etc1Sub e i)) (etc1Mod (etc1TableIndex e (etc1Sub e i)) (etc1Sel e i)) := rfl
    rw [hpx, etc1Base_eq]
    exact ⟨toNat_etc1PxChannel e i 0, toNat_etc1PxChannel e i 1, toNat_etc1PxChannel e i 2, rfl⟩

end Sys2Proof.Machine
end

section
/-! Family 40_control.md: the control commands NOP, WRCR, WRCRH, RDCR and CLRST (R110 to R115), and their words that name a register the
command may not access (R111, R113, R114, R252). -/

namespace Sys2Proof.Machine

open Claims

/-! ### How a control command ends (R251) -/

/-- `exec_of_ok` in the statements' vocabulary. -/
theorem exec_eq_okStatus {i : Instr} {s u : State} (h : effectOf i s = .ok u) :
    exec i s = .next { u with status := okStatus u } :=
  exec_of_ok h

/-- `exec_of_error` at ILL, in the statements' vocabulary. -/
theorem exec_eq_failed_ill {i : Instr} {s : State} (h : effectOf i s = .error .ill) : exec i s = .next (failed illBit s) :=
  exec_of_error h

/-- A register write with an upper bound on its value: CFGERR above the bound (R111). -/
theorem finishWrite_bounded (n : Nat) (v : BitVec 16) (s u : State) :
    finishWrite s (if n < v.toNat then .error .cfgerr else .ok u) =
      .next (if v.toNat ≤ n then { u with status := okStatus u } else failed cfgerrBit s) := by
  by_cases h : v.toNat ≤ n
  · rw [if_neg (Nat.not_lt.mpr h), if_pos h]; rfl
  · rw [if_pos (Nat.not_le.mp h), if_neg h]; rfl

theorem writeCtrlUpper_of_ne {cr : CtrlReg} (hb : cr ≠ .bptr) (hp : cr ≠ .pptr) (v : BitVec 16) (s : State) :
    writeCtrlUpper cr v s = .error .ill := by
  cases cr with
  | bptr => exact absurd rfl hb
  | pptr => exact absurd rfl hp
  | _ => rfl

/-! ### Words that name a register the command may not access (R74, R252) -/

/-- A word whose three fields decode to no command sets ILL, clears OK and changes nothing else. -/
theorem runWord_of_fields_rejected {op f1 : BitVec 8} {imm : BitVec 16} (h : ¬ ∃ i, decodeFields op f1 imm = .ok i) (s : State) :
    runWord (word op f1 imm) s = .next (failed illBit s) := by
  have hd : decode (word op f1 imm) = decodeFields op f1 imm := decode_packWord op f1 imm
  cases hf : decodeFields op f1 imm with
  | ok i => exact absurd ⟨i, hf⟩ h
  | error r => rw [runWord, hd, hf]; rfl

theorem runWord_wrcr_of_not_writable {cr : BitVec 8} (h : cr.toNat ∉ [0, 1, 4, 5, 6, 8, 9, 10, 11, 12, 13, 14, 15])
    (v : BitVec 16) (s : State) : runWord (word 0x01 cr v) s = .next (failed illBit s) := by
  refine runWord_of_fields_rejected (fun hd => h ?_) s
  exact exists_writable_iff.mp (decodeC_accepts.mp hd)

theorem runWord_wrcrh_of_no_upper_half {cr : BitVec 8} (h : cr.toNat ∉ [4, 5]) (v : BitVec 16) (s : State) :
    runWord (word 0x02 cr v) s = .next (failed illBit s) := by
  refine runWord_of_fields_rejected (fun hd => h ?_) s
  exact exists_hasUpperHalf_iff.mp (decodeC_accepts.mp hd)

theorem runWord_rdcr_of_no_register {cr : BitVec 8} (h : cr.toNat ∉ [0, 1, 2, 3, 4, 5, 6, 8, 9, 10, 11, 12, 13, 14, 15])
    (s : State) : runWord (word 0x03 cr 0) s = .next (failed illBit s) := by
  refine runWord_of_fields_rejected (fun hd => h ?_) s
  exact exists_number_iff.mp (decodeR_accepts.mp hd).2

/-! ### NOP and CLRST (R110, R115) -/

theorem statusOk_setOk (st : BitVec 5) : statusOk (setOk st) = true := by
  obtain ⟨⟨hok, -⟩, -⟩ := status_ops st
  exact hok

/-- Setting OK moves no other bit of STATUS. -/
theorem getLsbD_setOk {k : Nat} (h : 1 ≤ k) (st : BitVec 5) : (setOk st).getLsbD k = st.getLsbD k := by
  have hone : (0b00001 : BitVec 5).getLsbD k = false := by
    simp [BitVec.getLsbD_one, Nat.ne_of_gt h]
  rw [setOk, BitVec.getLsbD_or, hone, Bool.or_false]

/-- Mask bit `k - 1` is the word's bit `k`, which clears STATUS bit `k`. -/
theorem getLsbD_clearSticky {k : Nat} (h1 : 1 ≤ k) (h4 : k ≤ 4) (mask : BitVec 4) (st : BitVec 5) :
    (clearSticky mask st).getLsbD k = (st.getLsbD k && !mask.getLsbD (k - 1)) := by
  have hmask : (mask ++ 0#1).getLsbD k = mask.getLsbD (k - 1) := by
    rw [BitVec.getLsbD_append, if_neg (by omega)]
  rw [clearSticky, BitVec.getLsbD_and, BitVec.getLsbD_not, hmask, decide_eq_true (by omega), Bool.true_and]

/-- Settles O19: both commands succeed; CLRST's mask clears bits before OK is set. -/
theorem nopAndClrst : Obligations.NopAndClrst := by
  refine ⟨fun s => exec_of_ok rfl, fun mask s => ⟨_, exec_of_ok rfl, statusOk_setOk _, fun k h1 h4 => ?_, rfl⟩⟩
  exact (getLsbD_setOk h1 _).trans (getLsbD_clearSticky h1 h4 mask s.status)

/-! ### WRCR and WRCRH (R111, R113) -/

/-- Settles O20, register by register. -/
theorem wrcrWritesRegisters : Obligations.WrcrWritesRegisters := by
  intro v s
  refine ⟨?fmt, ?ctrl, ?status, ?err, ?bptr, ?pptr, ?pkStride, fun c => ?pkSize, fun c => ?pkOfs, fun cr h => ?reserved⟩
  case fmt => exact finishWrite_bounded 6 v s (s.setFmt (v.setWidth 3))
  case pkSize => exact finishWrite_bounded 32 v s (s.setPkSize (s.pkSize.set c (v.setWidth 6)))
  case status | err => exact exec_eq_failed_ill rfl
  case ctrl => exact exec_eq_okStatus (u := s.setCtrl (ctrlMasked v)) rfl
  case bptr => exact exec_eq_okStatus (u := s.setBptr (v.setWidth 32)) rfl
  case pptr => exact exec_eq_okStatus (u := s.setPptr (v.setWidth 32)) rfl
  case pkStride => exact exec_eq_okStatus (u := s.setPkStride v) rfl
  case pkOfs => exact exec_eq_okStatus (u := s.setPkOfs (s.pkOfs.set c v)) rfl
  case reserved =>
    refine runWord_wrcr_of_not_writable ?_ v s
    simp only [List.mem_cons, List.not_mem_nil, or_false]; omega

theorem withUpperHalf_upper (v : BitVec 16) (p : Word) : (withUpperHalf v p).extractLsb' 16 16 = v :=
  BitVec.extractLsb'_append_eq_left

theorem withUpperHalf_lower (v : BitVec 16) (p : Word) : (withUpperHalf v p).extractLsb' 0 16 = p.extractLsb' 0 16 :=
  BitVec.extractLsb'_append_eq_right

/-- Settles O21: the two pointers, and ILL for the other registers and for the other register numbers. -/
theorem wrcrhWritesUpperHalf : Obligations.WrcrhWritesUpperHalf := by
  intro v s
  refine ⟨⟨_, exec_of_ok rfl, withUpperHalf_upper v s.bptr, withUpperHalf_lower v s.bptr, rfl⟩,
    ⟨_, exec_of_ok rfl, withUpperHalf_upper v s.pptr, withUpperHalf_lower v s.pptr, rfl⟩,
    fun cr hb hp => exec_eq_failed_ill (writeCtrlUpper_of_ne hb hp v s), fun cr h4 h5 => ?_⟩
  exact runWord_wrcrh_of_no_upper_half (by simp [h4, h5]) v s

/-! ### RDCR (R114) -/

/-- Settles O22: RESP takes the register's value in the state before the command, widened. -/
theorem rdcrReadsRegisters : Obligations.RdcrReadsRegisters := by
  refine fun s => ⟨fun cr => ⟨_, exec_of_ok rfl, rfl, ?_⟩, fun cr h => ?_⟩
  · cases cr with
    | err | bptr | pptr => rfl
    | fmt | ctrl | status | pkStride | pkSize | pkOfs => exact BitVec.toNat_setWidth_of_le (by decide)
  · refine runWord_rdcr_of_no_register ?_ s
    simp only [List.mem_cons, List.not_mem_nil, or_false]; omega

end Sys2Proof.Machine
end

section
/-! Family 41_transfer.md: the block transfers LDBLK and STBLK (R120, R121). -/

namespace Sys2Proof.Machine

open Claims

/-! ### Commands that need a format, without one (R251) -/

theorem formatOf_eq_none_of_not_validFormat {s : State} (h : ¬ validFormat s) : formatOf s.fmt = none :=
  Option.eq_none_iff_forall_ne_some.mpr fun f hf => h (validFormat_iff.mpr ⟨f, formatOf_eq_some_iff.mp hf⟩)

theorem withFormat_of_not_validFormat {s : State} (h : ¬ validFormat s) (g : BlockFormat → Except Failure State) :
    withFormat s g = .error .cfgerr := by
  rw [withFormat, formatOf_eq_none_of_not_validFormat h]

/-- `exec_of_error` at CFGERR, in the statements' vocabulary. -/
theorem exec_eq_failed_cfgerr {i : Instr} {s : State} (h : effectOf i s = .error .cfgerr) :
    exec i s = .next (failed cfgerrBit s) :=
  exec_of_error h

/-! ### The two transfers -/

/-- A byte that no byte of the block is stored at keeps its value. -/
theorem read_writeBytes_blockPrefix_of_ne {m : Memory} (hm : Memory.wf m = true) (a x : Addr) (b : Block) {n : Nat}
    (hx : ∀ k, k < n → x ≠ addrPlus a k) : Memory.read (Memory.writeBytes m a (blockPrefix b n)) x = Memory.read m x := by
  have hlen := length_blockPrefix b n
  obtain ⟨-, hkeep⟩ := Memory.read_writeBytes hm a x (blockPrefix b n) (by omega)
  exact hkeep fun k hk => hx k (by omega)

/-- Settles O23: the block loaded is known by its bytes alone, and the command writes nothing but it, BPTR and OK. -/
theorem ldblkLoadsTheBlock : Obligations.LdblkLoadsTheBlock := by
  refine fun s => ⟨fun hv => exec_eq_failed_cfgerr (withFormat_of_not_validFormat hv _), fun hv => ?_⟩
  obtain ⟨f, hf⟩ := validFormat_iff.mp hv
  have hbytes : transferBytes s.fmt = blockBytes f := hf ▸ transferBytes_formatCode f
  rw [hbytes]
  have hexec := exec_ldblk_of_format hf
  have hblk := loadBlock_get s.mem s.bptr (blockBytes f) s.blk
  generalize loadBlock s.mem s.bptr (blockBytes f) s.blk = b at hexec hblk
  exact ⟨_, hexec, hblk, rfl, fun _ => rfl, rfl⟩

/-- Settles O24: the bytes stored read back, and a byte apart from all of them is kept. -/
theorem stblkStoresTheBlock : Obligations.StblkStoresTheBlock := by
  refine fun s => ⟨fun hv => exec_eq_failed_cfgerr (withFormat_of_not_validFormat hv _), fun hv hm => ?_⟩
  obtain ⟨f, hf⟩ := validFormat_iff.mp hv
  have hbytes : transferBytes s.fmt = blockBytes f := hf ▸ transferBytes_formatCode f
  rw [hbytes]
  exact ⟨_, exec_stblk_of_format hf, read_writeBytes_blockPrefix hm s.bptr s.blk,
    fun a => read_writeBytes_blockPrefix_of_ne hm s.bptr a s.blk, rfl, rfl⟩

end Sys2Proof.Machine
end

section
/-! Family 42_packer.md: unpacking's conversion (R132), UNPK and PACK (R133, R134, R137 to R139), and the pseudo-instructions PKSPEC and
PKINIT (R140, R141). -/

namespace Sys2Proof.Machine

open Claims

/-! ### From a packed component to 8 bits (R132) -/

theorem toNat_pkTo8_saturate (n s : Nat) : (pkTo8 false n s).toNat = min n 255 :=
  toNat_toByte (by omega)

/-- A value below `2^s` is rescaled into a byte, so the narrowing loses nothing. -/
theorem toNat_pkTo8_rescale {n s : Nat} (hs : 1 ≤ s) (hn : n < 2 ^ s) : (pkTo8 true n s).toNat = rescale n (pkMax s) 255 := by
  have hmax : n ≤ pkMax s := Nat.le_pred_of_lt hn
  have hpos : 1 ≤ pkMax s := Nat.le_pred_of_lt (Nat.one_lt_two_pow (Nat.ne_of_gt hs))
  exact toNat_toByte (Nat.lt_succ_of_le (rescale_le hpos hmax))

/-- At 8 bits neither conversion changes the number. -/
theorem toNat_pkTo8_eight (resc : Bool) {n : Nat} (hn : n < 2 ^ 8) : (pkTo8 resc n 8).toNat = n := by
  cases resc with
  | false => rw [toNat_pkTo8_saturate]; omega
  | true => rw [toNat_pkTo8_rescale (by decide) hn, rescale, show pkMax 8 = 255 from rfl]; omega

/-- Settles O29: both conversions as numbers, and the identity at 8 bits. -/
theorem unpackConversion : Obligations.UnpackConversion := by
  intro s n hs _ hn
  refine ⟨toNat_pkTo8_rescale hs hn, toNat_pkTo8_saturate n s, fun h8 resc => ?_⟩
  subst h8
  exact toNat_pkTo8_eight resc hn

/-! ### The operands of UNPK and PACK (R74, R137, R138) -/

section Range
variable {first : Fin 16} {cnt : Fin 32}

theorem withRange_of_legal (h : 1 ≤ cnt.val ∧ cnt.val ≤ 16 ∧ first.val + cnt.val ≤ 16) (u : State) :
    withRange first cnt u = .ok u :=
  if_pos (pixelRangeLegal_iff.mpr h)

theorem withRange_of_not_legal (h : ¬ (1 ≤ cnt.val ∧ cnt.val ≤ 16 ∧ first.val + cnt.val ≤ 16)) (u : State) :
    withRange first cnt u = .error .ill :=
  if_neg fun hl => h (pixelRangeLegal_iff.mp hl)

end Range

/-! ### UNPK (R133, R134, R137) -/

/-- The quad component by component; with YMODE slot 0 feeds the three colours. -/
theorem unpackPixel_components (s : State) (p : Addr) :
    (unpackPixel s p).r = unpacked s p 0 0 ∧
    (unpackPixel s p).g = unpacked s p (if s.ctrl.getLsbD 2 then 0 else 1) 0 ∧
    (unpackPixel s p).b = unpacked s p (if s.ctrl.getLsbD 2 then 0 else 2) 0 ∧
    (unpackPixel s p).a = unpacked s p 3 255 := by
  by_cases hy : s.ctrl.getLsbD 2 = true
  · rw [unpackPixel, ctrlYmode, if_pos hy, if_pos hy, if_pos hy]
    exact ⟨rfl, rfl, rfl, rfl⟩
  · rw [unpackPixel, ctrlYmode, if_neg hy, if_neg hy, if_neg hy]
    exact ⟨rfl, rfl, rfl, rfl⟩

theorem unpackPixels_get (s : State) (first cnt : Nat) (i : Fin 16) :
    (unpackPixels s first cnt)[i] =
      if first ≤ i.val ∧ i.val < first + cnt then unpackPixel s (packedAddr s (i.val - first)) else s.pix[i] := by
  simp [unpackPixels]

/-- Settles O31: each pixel in the range is the quad unpacked at its own address, every other pixel is kept. -/
theorem unpkUnpacksPixels : Obligations.UnpkUnpacksPixels := by
  refine fun first cnt s => ⟨fun h => exec_eq_failed_ill (withRange_of_not_legal h _), fun h => ?_⟩
  have hget := unpackPixels_get s first.val cnt.val
  have hexec : exec (.unpk first cnt) s = _ := exec_of_ok (withRange_of_legal h _)
  generalize unpackPixels s first.val cnt.val = pix at hget hexec
  refine ⟨_, hexec, fun k i p hk hi hp => ?_, fun i hi => (hget i).trans (if_neg (by omega)), rfl, fun _ => rfl, rfl⟩
  have hpix : pix[i] = unpackPixel s p := by
    rw [hget i, if_pos (by omega), hp, hi, Nat.add_sub_cancel_left]
    rfl
  have hcomp := unpackPixel_components s p
  rw [← hpix] at hcomp
  exact hcomp

/-! ### The bits a slot of a packed pixel covers (R54, R138) -/

/-- Slot `kc.2` of packed pixel `kc.1`, when PACK writes it, puts a bit in bit `b` of the byte at `a`. -/
abbrev slotCovers (s : State) (a : Addr) (b : Nat) (kc : Nat × Fin 4) : Prop :=
  slotOfs s kc.2 ≤ 8 * (a - packedAddr s kc.1).toNat + b ∧
    8 * (a - packedAddr s kc.1).toNat + b < slotOfs s kc.2 + slotSize s kc.2

/-- The slot's bit `j` is the pixel bit `PK_OFS + j`, and the bits of a packed pixel are numbered through its bytes (R54). -/
theorem packCovers_iff {s : State} {k : Nat} {c : Fin 4} {j : Nat} {a : Addr} {b : Nat} :
    packCovers s k c j a b ↔
      c ∈ packSlots s ∧ b < 8 ∧ j < slotSize s c ∧ 8 * (a - packedAddr s k).toNat + b = slotOfs s c + j := by
  have hofs : slotOfs s c < 2 ^ 16 := s.pkOfs[c].isLt
  have hsize : slotSize s c < 2 ^ 6 := s.pkSize[c].isLt
  rw [mem_packSlots]
  constructor
  · rintro ⟨hy, hj, ha, hb⟩
    have hbyte : (a - packedAddr s k).toNat = (slotOfs s c + j) / 8 := by
      have hj' : j < slotSize s c := hj
      rw [ha]
      exact sub_addrPlus (packedAddr s k) (k := (slotOfs s c + j) / 8) (by omega)
    refine ⟨hy, ?_, hj, ?_⟩
    · rw [hb]; exact Nat.mod_lt _ (by decide)
    · rw [hbyte, hb]; exact Nat.div_add_mod _ 8
  · rintro ⟨hy, hb, hj, hbit⟩
    have hbyte : (slotOfs s c + j) / 8 = (a - packedAddr s k).toNat := by omega
    have hplace : b = (slotOfs s c + j) % 8 := by omega
    refine ⟨hy, hj, ?_, hplace⟩
    exact (addrPlus_sub (packedAddr s k) a).symm.trans (congrArg (addrPlus (packedAddr s k)) hbyte.symm)

theorem packCovers_of_slotCovers {s : State} {a : Addr} {b : Nat} {kc : Nat × Fin 4} (hc : kc.2 ∈ packSlots s) (hb : b < 8)
    (h : slotCovers s a b kc) :
    packCovers s kc.1 kc.2 (8 * (a - packedAddr s kc.1).toNat + b - slotOfs s kc.2) a b := by
  obtain ⟨hlo, hhi⟩ := h
  exact packCovers_iff.mpr ⟨hc, hb, by omega, by omega⟩

theorem mem_componentBytes {o s j : Nat} (hj : j < s) : (o + j) / 8 ∈ componentBytes o s := by
  rw [componentBytes, if_neg (by omega), List.mem_range'_1]
  omega

/-- A byte that holds a covered bit is one PACK stores to. -/
theorem mem_packAddrs_of_packCovers {s : State} {k cnt : Nat} {c : Fin 4} {j : Nat} {a : Addr} {b : Nat} (hk : k < cnt)
    (h : packCovers s k c j a b) : a ∈ packAddrs s cnt := by
  obtain ⟨hy, hj, ha, -⟩ := h
  refine List.mem_flatMap.mpr ⟨k, List.mem_range.mpr hk, List.mem_flatMap.mpr ⟨c, (mem_packSlots s c).mpr hy, ?_⟩⟩
  exact List.mem_map.mpr ⟨_, mem_componentBytes hj, ha.symm⟩

/-! ### PACK as one sequence of slot writes (R138, R139) -/

/-- The slots PACK writes, in the order of the writes: pixels ascending, slots ascending inside a pixel. -/
def packWrites (s : State) (cnt : Nat) : List (Nat × Fin 4) :=
  (List.range cnt).flatMap fun k => (packSlots s).map fun c => (k, c)

/-- One slot write comes before another. -/
def WrittenBefore (x y : Nat × Fin 4) : Prop := x.1 < y.1 ∨ (x.1 = y.1 ∧ x.2 < y.2)

theorem mem_packWrites {s : State} {cnt : Nat} {kc : Nat × Fin 4} :
    kc ∈ packWrites s cnt ↔ kc.1 < cnt ∧ kc.2 ∈ packSlots s := by
  obtain ⟨k, c⟩ := kc
  simp [packWrites]

theorem packSlots_ascending (s : State) : (packSlots s).Pairwise (· < ·) := by
  unfold packSlots
  split <;> decide

theorem packWrites_ordered (s : State) (cnt : Nat) : (packWrites s cnt).Pairwise WrittenBefore := by
  refine List.pairwise_flatMap.mpr ⟨fun k _ => ?_, List.pairwise_lt_range.imp fun hlt x hx y hy => ?_⟩
  · exact List.pairwise_map.mpr ((packSlots_ascending s).imp fun hlt => .inr ⟨rfl, hlt⟩)
  · obtain ⟨c, -, rfl⟩ := List.mem_map.mp hx
    obtain ⟨d, -, rfl⟩ := List.mem_map.mp hy
    exact .inl hlt

/-- The bit a slot puts where it covers bit `b` of the byte at `a`. -/
def slotBit (s : State) (first : Nat) (a : Addr) (b : Nat) (kc : Nat × Fin 4) : Bool :=
  (pkFrom8 (ctrlRescale s.ctrl) (packValue s (pixelAt s (first + kc.1)) kc.2) (slotSize s kc.2)).testBit
    (8 * (a - packedAddr s kc.1).toNat + b - slotOfs s kc.2)

/-- The slot write `kc` of PACK on a memory. -/
def packWrite (s : State) (first : Nat) (m : Memory) (kc : Nat × Fin 4) : Memory :=
  packSlot s (packedAddr s kc.1) (pixelAt s (first + kc.1)) m kc.2

theorem packPixels_eq_packWrites (s : State) (first cnt : Nat) :
    packPixels s first cnt = (packWrites s cnt).foldl (packWrite s first) s.mem :=
  packPixels_eq_foldl s first cnt

section Bits
variable {s : State} (first cnt : Nat) {a : Addr} {b : Nat} (hb : b < 8)
include hb

/-- A slot write keeps memory canonical and sets a bit exactly when it covers it. -/
theorem packWrite_bit (m : Memory) (kc : Nat × Fin 4) (hm : Memory.wf m = true) :
    Memory.wf (packWrite s first m kc) = true ∧
      (Memory.read (packWrite s first m kc) a).getLsbD b =
        if slotCovers s a b kc then slotBit s first a b kc else (Memory.read m a).getLsbD b :=
  ⟨packSlot_wf _ _ _ hm _, getLsbD_read_packSlot _ _ _ hm _ _ _ hb⟩

/-- A bit of memory after PACK is the bit of the last slot write that covers it. -/
theorem getLsbD_packPixels_last (hm : Memory.wf s.mem = true) {kc : Nat × Fin 4} (hkc : kc ∈ packWrites s cnt)
    (hcov : slotCovers s a b kc) (hlast : ∀ x ∈ packWrites s cnt, WrittenBefore kc x → ¬ slotCovers s a b x) :
    (Memory.read (packPixels s first cnt) a).getLsbD b = slotBit s first a b kc := by
  rw [packPixels_eq_packWrites]
  exact Memory.foldl_last_cover (packWrite s first) (slotCovers s a b) (slotBit s first a b)
    (fun m => (Memory.read m a).getLsbD b) (packWrite_bit first hb) WrittenBefore _ (packWrites_ordered s cnt) kc hkc hcov hlast hm

/-- A bit of memory that no slot write covers is kept. -/
theorem getLsbD_packPixels_kept (hm : Memory.wf s.mem = true) (h : ∀ x ∈ packWrites s cnt, ¬ slotCovers s a b x) :
    (Memory.read (packPixels s first cnt) a).getLsbD b = (Memory.read s.mem a).getLsbD b := by
  rw [packPixels_eq_packWrites]
  exact Memory.foldl_uncovered (packWrite s first) (slotCovers s a b) (slotBit s first a b)
    (fun m => (Memory.read m a).getLsbD b) (packWrite_bit first hb) _ h hm

end Bits

/-! ### PACK (R138) -/

/-- A bit that a slot covers and no later slot does is that slot's bit. -/
theorem packPixels_bit {s : State} (hm : Memory.wf s.mem = true) (first : Nat) {cnt k : Nat} {c : Fin 4} {j : Nat} {a : Addr}
    {b : Nat} (hk : k < cnt) (hcov : packCovers s k c j a b)
    (hlast : ∀ (k' : Nat) (c' : Fin 4) (j' : Nat), k' < cnt → k < k' ∨ (k = k' ∧ c < c') → ¬ packCovers s k' c' j' a b) :
    (Memory.read (packPixels s first cnt) a).getLsbD b =
      (pkFrom8 (ctrlRescale s.ctrl) (packValue s (pixelAt s (first + k)) c) (slotSize s c)).testBit j := by
  obtain ⟨hc, hb, hj, hbit⟩ := packCovers_iff.mp hcov
  rw [getLsbD_packPixels_last first cnt hb hm (kc := (k, c)) (mem_packWrites.mpr ⟨hk, hc⟩), slotBit, hbit,
    Nat.add_sub_cancel_left]
  · rw [slotCovers, hbit]
    exact ⟨Nat.le_add_right _ _, Nat.add_lt_add_left hj _⟩
  · intro x hx hafter hx'
    obtain ⟨hxk, hxc⟩ := mem_packWrites.mp hx
    exact hlast x.1 x.2 _ hxk hafter (packCovers_of_slotCovers hxc hb hx')

/-- A bit that no slot covers is kept. -/
theorem packPixels_bit_kept {s : State} (hm : Memory.wf s.mem = true) (first : Nat) {cnt : Nat} {a : Addr} {b : Nat}
    (h : ∀ (k : Nat) (c : Fin 4) (j : Nat), k < cnt → ¬ packCovers s k c j a b) :
    (Memory.read (packPixels s first cnt) a).getLsbD b = (Memory.read s.mem a).getLsbD b := by
  by_cases hb : b < 8
  · refine getLsbD_packPixels_kept first cnt hb hm fun x hx hcov => ?_
    obtain ⟨hxk, hxc⟩ := mem_packWrites.mp hx
    exact h x.1 x.2 _ hxk (packCovers_of_slotCovers hxc hb hcov)
  · rw [BitVec.getLsbD_of_ge _ _ (by omega), BitVec.getLsbD_of_ge _ _ (by omega)]

theorem packPixels_byte_kept {s : State} (hm : Memory.wf s.mem = true) (first : Nat) {cnt : Nat} {a : Addr}
    (h : a ∉ packAddrs s cnt) : Memory.read (packPixels s first cnt) a = Memory.read s.mem a :=
  BitVec.eq_of_getLsbD_eq fun _ _ =>
    packPixels_bit_kept hm first fun _ _ _ hk hcov => h (mem_packAddrs_of_packCovers hk hcov)

theorem packValue_eq_packedFrom (s : State) (q : Pixel) (c : Fin 4) : packValue s q c = packedFrom s q c := by
  unfold packValue packedFrom
  refine if_congr Iff.rfl rfl ?_
  match c with
  | 0 | 1 | 2 | 3 => rfl

theorem pixelAt_eq (s : State) {n : Nat} {i : Fin 16} (h : i.val = n) : pixelAt s n = s.pix[i] := by
  subst h
  simp [pixelAt, Nat.mod_eq_of_lt i.isLt]

/-- Settles O32: memory bit by bit by its last covering slot write. -/
theorem packPacksPixels : Obligations.PackPacksPixels := by
  refine fun first cnt s hs => ⟨fun h => exec_eq_failed_ill (withRange_of_not_legal h _), fun h => ?_⟩
  refine ⟨_, exec_of_ok (withRange_of_legal h _), fun k c j a b i hk hi hcov hlast => ?_,
    fun a b hkept => packPixels_bit_kept hs.mem_canonical first.val hkept,
    fun a ha => packPixels_byte_kept hs.mem_canonical first.val ha, rfl, rfl⟩
  rw [← packValue_eq_packedFrom, ← pixelAt_eq s hi]
  exact packPixels_bit hs.mem_canonical first.val hk hcov hlast

/-! ### The ten commands of a packer layout (R140, R111) -/

/-- The layouts whose ten values fit their registers: WRCR to PK_SIZE fails above 32, the other registers have 16 bits (R31, R111). -/
structure PackerLayout.Fits (l : PackerLayout) : Prop where
  size_le : ∀ c : Fin 4, l.size[c] ≤ 32
  ofs_lt : ∀ c : Fin 4, l.ofs[c] < 2 ^ 16
  stride_lt : l.stride < 2 ^ 16

/-- The state with the packer's registers, CTRL and STATUS as given. -/
def State.withPacker (s : State) (size : Vector (BitVec 6) 4) (ofs : Vector (BitVec 16) 4) (stride ctrl : BitVec 16)
    (st : BitVec 5) : State :=
  { s with pkSize := size, pkOfs := ofs, pkStride := stride, ctrl := ctrl, status := st }

/-- What the ten commands leave. -/
def layoutConfigured (l : PackerLayout) (base : BitVec 16) (s : State) : State :=
  s.withPacker (l.size.map (BitVec.ofNat 6)) (l.ofs.map (BitVec.ofNat 16)) (BitVec.ofNat 16 l.stride)
    (layoutCtrl l.ymode base) (okStatus s)

theorem layoutCommands_wellFormed (l : PackerLayout) (base : BitVec 16) : ∀ i ∈ layoutCommands l base, i.wellFormed = true := by
  simp [layoutCommands, Instr.wellFormed, CtrlReg.writable]

/-- A command list that runs from `s` to `t` with no command failing. -/
def RunsTo (is : List Instr) (s t : State) : Prop := runSucceeds is s = true ∧ runCommands is s = some t

theorem RunsTo.nil (s : State) : RunsTo [] s s := ⟨rfl, rfl⟩

theorem RunsTo.cons {i : Instr} {is : List Instr} {s u t : State} (h : effectOf i s = .ok u)
    (hrest : RunsTo is (u.setStatus (setOk u.status)) t) : RunsTo (i :: is) s t := by
  obtain ⟨hok, hrun⟩ := hrest
  constructor
  · rw [runSucceeds, exec_of_ok h]
    exact Bool.and_eq_true_iff.mpr ⟨statusOk_setOk u.status, hok⟩
  · rw [runCommands_cons_of_ok h, hrun]

section Writes
variable {s t : State} {size : Vector (BitVec 6) 4} {ofs : Vector (BitVec 16) 4} {stride ctrl : BitVec 16} {st : BitVec 5}
  {is : List Instr}

theorem RunsTo.wrcr_pkSize (c : Fin 4) {n : Nat} (hn : n ≤ 32)
    (h : RunsTo is (s.withPacker (size.set c (BitVec.ofNat 6 n)) ofs stride ctrl (setOk st)) t) :
    RunsTo (.wrcr (.pkSize c) (BitVec.ofNat 16 n) :: is) (s.withPacker size ofs stride ctrl st) t := by
  have hle : ¬ 32 < (BitVec.ofNat 16 n).toNat := by rw [BitVec.toNat_ofNat]; omega
  rw [← BitVec.setWidth_ofNat_of_le (by decide : 6 ≤ 16)] at h
  exact .cons (if_neg hle) h

theorem RunsTo.wrcr_pkOfs (c : Fin 4) (v : BitVec 16)
    (h : RunsTo is (s.withPacker size (ofs.set c v) stride ctrl (setOk st)) t) :
    RunsTo (.wrcr (.pkOfs c) v :: is) (s.withPacker size ofs stride ctrl st) t :=
  .cons rfl h

theorem RunsTo.wrcr_pkStride (v : BitVec 16) (h : RunsTo is (s.withPacker size ofs v ctrl (setOk st)) t) :
    RunsTo (.wrcr .pkStride v :: is) (s.withPacker size ofs stride ctrl st) t :=
  .cons rfl h

theorem RunsTo.wrcr_ctrl (v : BitVec 16) (h : RunsTo is (s.withPacker size ofs stride (ctrlMasked v) (setOk st)) t) :
    RunsTo (.wrcr .ctrl v :: is) (s.withPacker size ofs stride ctrl st) t :=
  .cons rfl h

end Writes

/-- The four slots written in order leave no old one. -/
theorem set_four_slots {α : Type} (v w : Vector α 4) :
    (((v.set 0 w[0]).set 1 w[1]).set 2 w[2]).set 3 w[3] = w := by
  apply Vector.ext
  intro i hi
  match i, hi with
  | 0, _ | 1, _ | 2, _ | 3, _ => simp

/-- A layout's CTRL value has no reserved bit (R27). -/
theorem ctrlMasked_layoutCtrl (ymode : Bool) (base : BitVec 16) : ctrlMasked (layoutCtrl ymode base) = layoutCtrl ymode base := by
  have hbase : (base &&& 0xFF03) &&& 0xFF07 = base &&& 0xFF03 := by rw [BitVec.and_assoc]; rfl
  rw [ctrlMasked, layoutCtrl, BitVec.and_or_distrib_right, hbase]
  cases ymode <;> rfl

/-- Setting OK ten times is setting it once. -/
theorem iterate_setOk (s : State) : setOk^[10] s.status = okStatus s := by
  simp only [Function.iterate_succ_apply, Function.iterate_zero_apply, setOk_setOk]
  rfl

theorem layoutCommands_runsTo {l : PackerLayout} (hl : l.Fits) (base : BitVec 16) (s : State) :
    RunsTo (layoutCommands l base) s (layoutConfigured l base s) := by
  have hsize := set_four_slots s.pkSize (l.size.map (BitVec.ofNat 6))
  have hofs := set_four_slots s.pkOfs (l.ofs.map (BitVec.ofNat 16))
  simp only [Vector.getElem_map] at hsize hofs
  rw [layoutConfigured, ← hsize, ← hofs, ← ctrlMasked_layoutCtrl, ← iterate_setOk]
  change RunsTo _ (s.withPacker s.pkSize s.pkOfs s.pkStride s.ctrl s.status) _
  refine .wrcr_pkSize 0 (hl.size_le 0) <| .wrcr_pkSize 1 (hl.size_le 1) <| .wrcr_pkSize 2 (hl.size_le 2) <|
    .wrcr_pkSize 3 (hl.size_le 3) ?_
  exact .wrcr_pkOfs 0 _ <| .wrcr_pkOfs 1 _ <| .wrcr_pkOfs 2 _ <| .wrcr_pkOfs 3 _ <| .wrcr_pkStride _ <| .wrcr_ctrl _ <| .nil _

/-- What the registers then read as numbers. -/
theorem layoutConfigured_reads {l : PackerLayout} (hl : l.Fits) (base : BitVec 16) (s : State) :
    (∀ c : Fin 4, (layoutConfigured l base s).pkSize[c].toNat = l.size[c] ∧ (layoutConfigured l base s).pkOfs[c].toNat = l.ofs[c]) ∧
      (layoutConfigured l base s).pkStride.toNat = l.stride := by
  refine ⟨fun c => ⟨?_, ?_⟩, Nat.mod_eq_of_lt hl.stride_lt⟩
  · have hc := hl.size_le c
    simp only [layoutConfigured, State.withPacker, Fin.getElem_fin, Vector.getElem_map, BitVec.toNat_ofNat]
    exact Nat.mod_eq_of_lt (Nat.lt_of_le_of_lt hc (by decide))
  · have hc := hl.ofs_lt c
    simp only [layoutConfigured, State.withPacker, Fin.getElem_fin, Vector.getElem_map, BitVec.toNat_ofNat]
    exact Nat.mod_eq_of_lt hc

/-! ### PKSPEC: every text the assembler accepts fits (R140) -/

theorem packToken_size_le {c : Char} {n : Nat} {t : PackToken} (h : packToken c n = some t) : t.2 ≤ 32 := by
  unfold packToken at h
  split at h
  · cases h
  · obtain ⟨hn, ht⟩ := Option.ite_none_right_eq_some.mp h
    obtain rfl := Option.some.inj ht
    exact hn.2

theorem consToken_eq_some_iff {t : Option PackToken} {ts : Option (List PackToken)} {r : List PackToken} :
    consToken t ts = some r ↔ ∃ x xs, t = some x ∧ ts = some xs ∧ r = x :: xs := by
  cases t <;> cases ts <;> simp [consToken, eq_comm]

/-- A token before others of legal size. -/
theorem consToken_sizes_le {c : Char} {n : Nat} {ts : Option (List PackToken)}
    (hts : ∀ xs, ts = some xs → ∀ t ∈ xs, t.2 ≤ 32) {r : List PackToken} (h : consToken (packToken c n) ts = some r) :
    ∀ t ∈ r, t.2 ≤ 32 := by
  obtain ⟨x, xs, hx, hxs, rfl⟩ := consToken_eq_some_iff.mp h
  exact List.forall_mem_cons.mpr ⟨packToken_size_le hx, hts xs hxs⟩

/-- Every token of an accepted text has a legal size. -/
theorem packTokens_sizes_le (text : List Char) : ∀ ts, packTokens text = some ts → ∀ t ∈ ts, t.2 ≤ 32 := by
  fun_induction packTokens text with
  | case1 => simp
  | case2 => simp
  | case3 c d x hd => exact fun ts => consToken_sizes_le (by simp)
  | case4 => simp
  | case5 c d e rest x y hd he ih => exact fun ts => consToken_sizes_le ih
  | case6 c d e rest x hd he ih => exact fun ts => consToken_sizes_le ih
  | case7 => simp

theorem specLayout_eq_some_iff {text : List Char} {l : PackerLayout} :
    specLayout text = some l ↔ ∃ ts, packTokens text = some ts ∧ ts ≠ [] ∧ tokensLegal ts = true ∧ tokenLayout ts = l := by
  unfold specLayout
  split
  · simp_all
  · simp_all
  · simp_all

/-- Legal tokens name each of the five letters at most once. -/
theorem length_le_of_tokensLegal {ts : List PackToken} (h : tokensLegal ts = true) : ts.length ≤ 5 := by
  have hnodup : (ts.map Prod.fst).Nodup := of_decide_eq_true (Bool.and_eq_true_iff.mp h).1
  have hall : ts.map Prod.fst ⊆ [.r, .g, .b, .a, .y] := fun x _ => by cases x <;> decide
  simpa using (List.subperm_of_subset hnodup hall).length_le

section Tokens
variable {ts : List PackToken} (hsize : ∀ t ∈ ts, t.2 ≤ 32)
include hsize

theorem tokenSize_le (c : Fin 4) : tokenSize c ts ≤ 32 := by
  induction ts with
  | nil => exact Nat.zero_le 32
  | cons t ts ih =>
    obtain ⟨ht, hts⟩ := List.forall_mem_cons.mp hsize
    rw [tokenSize]
    split
    · exact ht
    · exact ih hts

theorem tokenBits_le (hlen : ts.length ≤ 5) : tokenBits ts ≤ 160 := by
  have hsum := List.sum_le_card_nsmul (ts.map Prod.snd) 32 (List.forall_mem_map.mpr hsize)
  rw [List.length_map, smul_eq_mul] at hsum
  exact hsum.trans (Nat.mul_le_mul_right 32 hlen)

end Tokens

/-- A token's offset is at most the bits of all tokens. -/
theorem tokenOfs_le (c : Fin 4) (before : Nat) (ts : List PackToken) : tokenOfs c before ts ≤ before + tokenBits ts := by
  induction ts generalizing before with
  | nil => exact Nat.zero_le _
  | cons t ts ih =>
    have hbits : tokenBits (t :: ts) = t.2 + tokenBits ts := by simp [tokenBits]
    have := ih (before + t.2)
    rw [tokenOfs]
    split <;> omega

theorem tokenLayout_get (ts : List PackToken) (c : Fin 4) :
    (tokenLayout ts).size[c] = tokenSize c ts ∧ (tokenLayout ts).ofs[c] = tokenOfs c 0 ts := by
  match c with
  | 0 | 1 | 2 | 3 => exact ⟨rfl, rfl⟩

theorem specLayout_fits {text : List Char} {l : PackerLayout} (h : specLayout text = some l) : l.Fits := by
  obtain ⟨ts, htokens, -, hlegal, rfl⟩ := specLayout_eq_some_iff.mp h
  have hsize := packTokens_sizes_le text ts htokens
  have hbits := tokenBits_le hsize (length_le_of_tokensLegal hlegal)
  refine ⟨fun c => ?_, fun c => ?_, ?_⟩
  · rw [(tokenLayout_get ts c).1]
    exact tokenSize_le hsize c
  · have := tokenOfs_le c 0 ts
    rw [(tokenLayout_get ts c).2]
    omega
  · have hstride : (tokenLayout ts).stride = (tokenBits ts + 7) / 8 := rfl
    omega

/-! ### PKINIT: every operand tuple the assembler accepts fits (R141) -/

theorem initLayout_get (n bits stride : Nat) (reversed : Bool) (c : Fin 4) :
    (initLayout n bits stride reversed).size[c] = initSize n bits c ∧
      (initLayout n bits stride reversed).ofs[c] = initOfs n bits reversed c := by
  match c with
  | 0 | 1 | 2 | 3 => exact ⟨rfl, rfl⟩

/-- At most three components of at most 32 bits lie before one. -/
theorem initOfs_le {n bits : Nat} (hn : n ≤ 4) (hbits : bits ≤ 32) (reversed : Bool) (c : Nat) :
    initOfs n bits reversed c ≤ 3 * 32 := by
  unfold initOfs
  split
  · split <;> exact Nat.mul_le_mul (by omega) hbits
  · exact Nat.zero_le _

theorem initLayout_fits {n bits stride : Nat} (hn : n ≤ 4) (hbits : bits ≤ 32) (hstride : stride ≤ 65535) (reversed : Bool) :
    (initLayout n bits stride reversed).Fits := by
  refine ⟨fun c => ?_, fun c => ?_, Nat.lt_succ_of_le hstride⟩
  · rw [(initLayout_get n bits stride reversed c).1, initSize]
    split
    · exact hbits
    · exact Nat.zero_le 32
  · rw [(initLayout_get n bits stride reversed c).2]
    exact (initOfs_le hn hbits reversed c).trans_lt (by decide)

theorem layoutCtrl_false (base : BitVec 16) : layoutCtrl false base = base &&& 0xFF03 := BitVec.or_zero

/-- Settles O58: an accepted layout fits the registers, so its ten writes succeed and the registers hold it. -/
theorem packerPseudosConfigure : Obligations.PackerPseudosConfigure := by
  refine ⟨fun text base is s h => ?_, fun n bits stride reversed base is s h => ?_, by decide, by decide⟩
  · obtain ⟨l, hl, rfl⟩ := Option.map_eq_some_iff.mp h
    have hfits := specLayout_fits hl
    obtain ⟨hok, hrun⟩ := layoutCommands_runsTo hfits base s
    obtain ⟨hslots, hstride⟩ := layoutConfigured_reads hfits base s
    exact ⟨rfl, layoutCommands_wellFormed l base, hok, l, _, hl, hrun, hslots, hstride, rfl⟩
  · obtain ⟨⟨-, hn, -, hbits, hst, -⟩, his⟩ := Option.ite_none_right_eq_some.mp h
    obtain rfl := Option.some.inj his
    have hfits := initLayout_fits hn hbits hst (reversed == 1)
    obtain ⟨hok, hrun⟩ := layoutCommands_runsTo hfits base s
    obtain ⟨hslots, hstride⟩ := layoutConfigured_reads hfits base s
    refine ⟨rfl, layoutCommands_wellFormed _ base, hok, _, hrun, hstride, layoutCtrl_false base, fun c => ?_⟩
    obtain ⟨hsize, hofs⟩ := hslots c
    obtain ⟨hgetSize, hgetOfs⟩ := initLayout_get n bits stride (reversed == 1) c
    refine ⟨hsize.trans hgetSize, (hofs.trans hgetOfs).trans ?_⟩
    simp only [initOfs, beq_iff_eq]

end Sys2Proof.Machine
end

section
/-! Family 43_decode.md: the DXT1 and DXT5 tables (R161 to R164, R167 to R169), one pixel of each format (R165, R166, R176), and DEC and
DECPX (R180, R181). -/

namespace Sys2Proof.Machine

open Claims

/-! ### The endpoints of a DXT1 element expanded (R12, R81, R161) -/

theorem expand6_eq {n : Nat} (h : n < 64) : expand6 n = 4 * n + n / 16 := by
  rw [expand6, Nat.shiftRight_eq_div_pow, ← Nat.shiftLeft_add_eq_or_of_lt (by omega), Nat.shiftLeft_eq]
  omega

/-- The red field is the top of the word, so nothing is cut off above it. -/
theorem r5_eq (c : BitVec 16) : r5 c = c.toNat / 2048 := by
  have hc := c.isLt
  rw [r5, BitVec.extractLsb'_toNat, Nat.shiftRight_eq_div_pow]
  omega

theorem g6_eq (c : BitVec 16) : g6 c = c.toNat / 32 % 64 := by
  rw [g6, BitVec.extractLsb'_toNat, Nat.shiftRight_eq_div_pow]

theorem b5_eq (c : BitVec 16) : b5 c = c.toNat % 32 := by
  rw [b5, BitVec.extractLsb'_toNat, Nat.shiftRight_zero]

theorem toNat_toByte_expand5 {n : Nat} (h : n < 32) : (toByte (expand5 n)).toNat = 8 * n + n / 4 := by
  rw [expand5_eq h, toNat_toByte (by omega)]

theorem toNat_toByte_expand6 {n : Nat} (h : n < 64) : (toByte (expand6 n)).toNat = 4 * n + n / 16 := by
  rw [expand6_eq h, toNat_toByte (by omega)]

/-- Each channel of an expanded endpoint, from its field. -/
theorem unpack565_channels (c : BitVec 16) :
    (unpack565 c).r.toNat = 8 * (c.toNat / 2048) + c.toNat / 2048 / 4 ∧
      (unpack565 c).g.toNat = 4 * (c.toNat / 32 % 64) + c.toNat / 32 % 64 / 16 ∧
      (unpack565 c).b.toNat = 8 * (c.toNat % 32) + c.toNat % 32 / 4 ∧ (unpack565 c).a = 255 := by
  have hc := c.isLt
  rw [← r5_eq, ← g6_eq, ← b5_eq]
  refine ⟨toNat_toByte_expand5 ?_, toNat_toByte_expand6 ?_, toNat_toByte_expand5 ?_, rfl⟩
  · rw [r5_eq]; omega
  · rw [g6_eq]; omega
  · rw [b5_eq]; omega

/-! ### Blends (R162, R163, R167, R168) -/

/-- A weighted mean of two components is at most 255, so its narrowing loses nothing. -/
theorem toNat_blend {wx wy d : Nat} (hd : wx + wy = d) (x y : Byte) :
    (blend wx wy d x y).toNat = (wx * x.toNat + wy * y.toNat) / d := by
  have hx : wx * x.toNat ≤ wx * 255 := Nat.mul_le_mul_left wx (Nat.le_of_lt_succ x.isLt)
  have hy : wy * y.toNat ≤ wy * 255 := Nat.mul_le_mul_left wy (Nat.le_of_lt_succ y.isLt)
  refine toNat_toByte (Nat.lt_succ_of_le (Nat.div_le_of_le_mul ?_))
  rw [← hd, Nat.add_mul]
  exact Nat.add_le_add hx hy

theorem blendPixel_channels {wx wy d : Nat} (hd : wx + wy = d) (p q : Pixel) :
    (blendPixel wx wy d p q).r.toNat = (wx * p.r.toNat + wy * q.r.toNat) / d ∧
      (blendPixel wx wy d p q).g.toNat = (wx * p.g.toNat + wy * q.g.toNat) / d ∧
      (blendPixel wx wy d p q).b.toNat = (wx * p.b.toNat + wy * q.b.toNat) / d ∧ (blendPixel wx wy d p q).a = 255 :=
  ⟨toNat_blend hd p.r q.r, toNat_blend hd p.g q.g, toNat_blend hd p.b q.b, rfl⟩

/-! ### The DXT1 table (R162 to R164) -/

theorem dxt1Table_of_lt {e : Elem} (h : (dxt1High e).toNat < (dxt1Low e).toNat) :
    dxt1Table e = fourColourTable (dxt1Low e) (dxt1High e) := by
  rw [dxt1Table, dxt1IsAlphaBlock, decide_eq_false (Nat.not_le.mpr h), if_neg Bool.false_ne_true]

theorem dxt1Table_of_le {e : Elem} (h : (dxt1Low e).toNat ≤ (dxt1High e).toNat) :
    dxt1Table e = threeColourTable (dxt1Low e) (dxt1High e) := by
  rw [dxt1Table, dxt1IsAlphaBlock, decide_eq_true h, if_pos rfl]

/-- Both tables begin with the two endpoints. -/
theorem dxt1Table_endpoints (e : Elem) :
    (dxt1Table e)[0] = unpack565 (dxt1Low e) ∧ (dxt1Table e)[1] = unpack565 (dxt1High e) := by
  unfold dxt1Table
  split <;> exact ⟨rfl, rfl⟩

theorem fourColourTable_blends (l h : BitVec 16) :
    (fourColourTable l h)[2] = blendPixel 2 1 3 (unpack565 l) (unpack565 h) ∧
      (fourColourTable l h)[3] = blendPixel 1 2 3 (unpack565 l) (unpack565 h) := ⟨rfl, rfl⟩

theorem threeColourTable_blend (l h : BitVec 16) :
    (threeColourTable l h)[2] = blendPixel 1 1 2 (unpack565 l) (unpack565 h) := rfl

/-- Settles O33: the expansion field by field, and the blends of the table each order of the endpoints selects. -/
theorem dxt1TableFormulas : Obligations.Dxt1TableFormulas := by
  refine ⟨unpack565_channels, fun e l h hl hh => ?_⟩
  obtain rfl : l = dxt1Low e := hl
  obtain rfl : h = dxt1High e := hh
  obtain ⟨hlow, hhigh⟩ := dxt1Table_endpoints e
  refine ⟨hlow, hhigh, fun hlt => ?_, fun hle => ?_⟩
  · obtain ⟨h2, h3⟩ := fourColourTable_blends (dxt1Low e) (dxt1High e)
    rw [dxt1Table_of_lt hlt, h2, h3]
    constructor
    · simpa only [Nat.one_mul] using blendPixel_channels (wx := 2) (wy := 1) (d := 3) rfl _ _
    · simpa only [Nat.one_mul] using blendPixel_channels (wx := 1) (wy := 2) (d := 3) rfl _ _
  · rw [dxt1Table_of_le hle, threeColourTable_blend]
    exact ⟨by simpa only [Nat.one_mul] using blendPixel_channels (wx := 1) (wy := 1) (d := 2) rfl _ _, rfl⟩

/-! ### The DXT5 table (R167 to R169) -/

theorem dxt5Table_of_lt {e : Elem} (h : (dxt5High e).toNat < (dxt5Low e).toNat) :
    dxt5Table e = eightLevelTable (dxt5Low e) (dxt5High e) := by
  rw [dxt5Table, dxt5Is6Level, decide_eq_false (Nat.not_le.mpr h), if_neg Bool.false_ne_true]

theorem dxt5Table_of_le {e : Elem} (h : (dxt5Low e).toNat ≤ (dxt5High e).toNat) :
    dxt5Table e = sixLevelTable (dxt5Low e) (dxt5High e) := by
  rw [dxt5Table, dxt5Is6Level, decide_eq_true h, if_pos rfl]

/-- Both tables begin with the two endpoints. -/
theorem dxt5Table_endpoints (e : Elem) : (dxt5Table e)[0] = dxt5Low e ∧ (dxt5Table e)[1] = dxt5High e := by
  unfold dxt5Table
  split <;> exact ⟨rfl, rfl⟩

theorem eightLevelTable_interpolant (l h : Byte) {k : Nat} {n : Fin 8} (h1 : 1 ≤ k) (h6 : k ≤ 6) (hn : n.val = k + 1) :
    (eightLevelTable l h)[n] = blend (7 - k) k 7 l h := by
  have hlt : k + 1 < 8 := hn ▸ n.isLt
  obtain rfl : n = ⟨k + 1, hlt⟩ := Fin.ext hn
  interval_cases k <;> rfl

theorem sixLevelTable_interpolant (l h : Byte) {k : Nat} {n : Fin 8} (h1 : 1 ≤ k) (h4 : k ≤ 4) (hn : n.val = k + 1) :
    (sixLevelTable l h)[n] = blend (5 - k) k 5 l h := by
  have hlt : k + 1 < 8 := hn ▸ n.isLt
  obtain rfl : n = ⟨k + 1, hlt⟩ := Fin.ext hn
  interval_cases k <;> rfl

/-- Settles O34: the endpoints of both tables, and the interpolants of the one each order of the endpoints selects. -/
theorem dxt5TableFormulas : Obligations.Dxt5TableFormulas := by
  rintro e _ _ rfl rfl
  obtain ⟨hlow, hhigh⟩ := dxt5Table_endpoints e
  refine ⟨congrArg BitVec.toNat hlow, congrArg BitVec.toNat hhigh, fun hlt k n h1 h6 hn => ?_, fun hle => ?_⟩
  · rw [dxt5Table_of_lt hlt, eightLevelTable_interpolant _ _ h1 h6 hn]
    exact toNat_blend (by omega) _ _
  · rw [dxt5Table_of_le hle]
    refine ⟨fun k n h1 h4 hn => ?_, rfl, rfl⟩
    rw [sixLevelTable_interpolant _ _ h1 h4 hn]
    exact toNat_blend (by omega) _ _

/-! ### One pixel by format (R165, R166, R169, R176) -/

theorem fourColourTable_alpha (l h : BitVec 16) (v : Fin 4) : (fourColourTable l h)[v].a = 255 := by
  fin_cases v <;> rfl

/-- Only the transparent entry has another alpha than 255. -/
theorem threeColourTable_alpha (l h : BitVec 16) (v : Fin 4) : (threeColourTable l h)[v].a = if v = 3 then 0 else 255 := by
  fin_cases v <;> rfl

/-- The alpha of a selected DXT1 entry: 0 exactly at selector 3 of a cutout element. -/
theorem dxt1Entry_alpha (e : Elem) (i : Fin 16) :
    (dxt1Entry e i).a = if (dxt1Low e).toNat ≤ (dxt1High e).toNat ∧ dxt1Sel e i = 3 then 0 else 255 := by
  have hsel : (dxt1Sel e i).toFin = 3 ↔ dxt1Sel e i = 3 := BitVec.toFin_inj (y := 3)
  by_cases hle : (dxt1Low e).toNat ≤ (dxt1High e).toNat
  · rw [dxt1Entry, dxt1Table_of_le hle, threeColourTable_alpha]
    simp only [hle, hsel, true_and]
  · rw [dxt1Entry, dxt1Table_of_lt (Nat.not_le.mp hle), fourColourTable_alpha, if_neg fun h => hle h.1]

theorem toNat_dxt3Px (e : Elem) (i : Fin 16) : (dxt3Px e i).toNat = 17 * (dxt3A4 e i).toNat := by
  have hlt := (dxt3A4 e i).isLt
  rw [dxt3Px, expand4_eq hlt, toNat_toByte (by omega)]

/-- Another alpha leaves R, G and B. -/
theorem sameRgb_withAlpha (q : Pixel) (a : Byte) : sameRgb (withAlpha q a) q := ⟨rfl, rfl, rfl⟩

theorem sameRgb_withAlpha_withAlpha (q : Pixel) (a a' : Byte) : sameRgb (withAlpha q a) (withAlpha q a') := ⟨rfl, rfl, rfl⟩

/-- Settles O36: each format's arm of `decode_px`, with the alphas of the DXT1 entry and the DXT3 nibble. -/
theorem decodeByFormat : Obligations.DecodeByFormat := by
  intro b i
  refine ⟨⟨sameRgb_withAlpha _ _, rfl⟩, ⟨rfl, dxt1Entry_alpha (elemOf b 0) i⟩,
    ⟨sameRgb_withAlpha _ _, toNat_dxt3Px (elemOf b 0) i⟩, ⟨sameRgb_withAlpha _ _, rfl⟩, ⟨rfl, rfl, rfl, rfl⟩,
    ⟨sameRgb_withAlpha _ _, rfl⟩, fun b' hb => ?_⟩
  have hpx : decodePx .dxt1 b' i = withAlpha (dxt1Px (elemOf b 1) i) 255 := by rw [decodePx, hb]
  rw [hpx]
  exact ⟨sameRgb_withAlpha_withAlpha _ _ _, sameRgb_withAlpha_withAlpha _ _ _⟩

/-! ### DEC and DECPX with a format in FMT (R180, R181) -/

/-- The bits a decode sets in STATUS: OK, and INVBLK for an invalid ETC1 block. -/
def decodeFlags (s : State) : BitVec 5 :=
  if s.fmt.toNat = 6 ∧ etc1Invalid (elemOf s.blk 0) = true then 0b01001 else 0b00001

theorem decodeStatus_eq (s : State) : decodeStatus s = s.status ||| decodeFlags s :=
  (apply_ite (s.status ||| ·) _ _ _).symm

/-- The state with the pixels as given and the STATUS a decode leaves. -/
def State.decoded (s : State) (v : Pixels) : State := { s with pix := v, status := decodeStatus s }

theorem formatCode_eq_six_iff {f : BlockFormat} : (formatCode f).toNat = 6 ↔ f = .etc1 := by
  cases f <;> decide

/-- What the decode commands do with STATUS: INVBLK for an invalid ETC1 block, then OK. -/
theorem setOk_noteInvalid {s : State} {f : BlockFormat} (hf : s.fmt = formatCode f) :
    setOk (noteInvalid f s).status = decodeStatus s := by
  have hsix : s.fmt.toNat = 6 ↔ f = .etc1 := hf ▸ formatCode_eq_six_iff
  obtain ⟨hnote, hinv⟩ | ⟨hnote, hinv⟩ := noteInvalid_cases f s
  · rw [← hsix] at hinv
    rw [hnote, decodeStatus, if_pos hinv]
    exact BitVec.or_assoc ..
  · rw [← hsix] at hinv
    rw [hnote, decodeStatus, if_neg hinv]
    rfl

/-- A command whose effect is to write P and note an invalid block. -/
theorem exec_eq_decoded {s : State} {f : BlockFormat} (hf : s.fmt = formatCode f) {i : Instr} {v : Pixels}
    (h : effectOf i s = .ok (noteInvalid f (s.setPix v))) : exec i s = .next (s.decoded v) := by
  rw [exec_of_ok h, noteInvalid_setStatus, setOk_noteInvalid (s := s.setPix v) hf]
  rfl

theorem exec_dec_of_format {s : State} {f : BlockFormat} (hf : s.fmt = formatCode f) :
    exec .dec s = .next (s.decoded (decodeAll f s.blk)) :=
  exec_eq_decoded hf (withFormat_formatCode hf _)

theorem exec_decpx_of_format {s : State} {f : BlockFormat} (hf : s.fmt = formatCode f) (n : Fin 16) :
    exec (.decpx n) s = .next (s.decoded (s.pix.set n (decodePx f s.blk n))) :=
  exec_eq_decoded hf (withFormat_formatCode hf _)

theorem decodeAll_get (f : BlockFormat) (b : Block) (i : Fin 16) : (decodeAll f b)[i] = decodePx f b i := by
  simp [decodeAll]

/-- Settles O37: CFGERR without a format; with one, both commands leave `decoded` states that differ in the pixels only. -/
theorem decAndDecpxDecode : Obligations.DecAndDecpxDecode := by
  refine fun s => ⟨fun hv => ⟨?_, fun n => ?_⟩, fun f hf => ⟨?_, fun n => ?_⟩⟩
  · exact exec_eq_failed_cfgerr (withFormat_of_not_validFormat hv _)
  · exact exec_eq_failed_cfgerr (withFormat_of_not_validFormat hv _)
  · exact ⟨_, exec_dec_of_format hf, decodeAll_get f s.blk, fun _ => rfl, rfl⟩
  · exact ⟨_, exec_decpx_of_format hf n, Vector.getElem_set_self n.isLt,
      fun i hi => Vector.getElem_set_ne n.isLt i.isLt (Fin.val_ne_of_ne hi.symm), fun _ => rfl, rfl⟩

/-! ### DECPX pixel by pixel (R181) -/

/-- The pixels with those of a list decoded, in the list's order. -/
def decodeOnto (f : BlockFormat) (b : Block) (l : List (Fin 16)) (v : Pixels) : Pixels :=
  l.foldl (fun (v : Pixels) (i : Fin 16) => v.set i (decodePx f b i)) v

theorem decodeOnto_get (f : BlockFormat) (b : Block) (l : List (Fin 16)) (v : Pixels) (j : Fin 16) :
    (decodeOnto f b l v)[j] = if j ∈ l then decodePx f b j else v[j] := by
  induction l generalizing v with
  | nil => rfl
  | cons i l ih =>
    have hset : (v.set i (decodePx f b i))[j] = if j = i then decodePx f b j else v[j] := by
      by_cases h : j = i
      · subst h; simp
      · simp [h, Fin.val_ne_of_ne (Ne.symm h)]
    have hcons : decodeOnto f b (i :: l) v = decodeOnto f b l (v.set i (decodePx f b i)) := rfl
    rw [hcons, ih, hset]
    by_cases hl : j ∈ l <;> simp [hl]

/-- A list that names every pixel decodes the whole block: the order and the old pixels do not matter. -/
theorem decodeOnto_eq_decodeAll (f : BlockFormat) (b : Block) {l : List (Fin 16)} (hl : ∀ i, i ∈ l) (v : Pixels) :
    decodeOnto f b l v = decodeAll f b := by
  apply Vector.ext
  intro i hi
  have h := decodeOnto_get f b l v ⟨i, hi⟩
  rw [if_pos (hl _), ← decodeAll_get] at h
  exact h

/-- A decode after a decode of the same block leaves the same STATUS. -/
theorem decodeStatus_decoded (s : State) (v : Pixels) : decodeStatus (s.decoded v) = decodeStatus s := by
  calc decodeStatus (s.decoded v)
    _ = decodeStatus s ||| decodeFlags s := decodeStatus_eq (s.decoded v)
    _ = decodeStatus s := by rw [decodeStatus_eq, BitVec.or_assoc, BitVec.or_self]

theorem decoded_decoded (s : State) (v w : Pixels) : (s.decoded v).decoded w = s.decoded w :=
  congrArg (fun st => { s with pix := w, status := st }) (decodeStatus_decoded s v)

theorem runCommands_cons_of_exec {i : Instr} {is : List Instr} {s t : State} (h : exec i s = .next t) :
    runCommands (i :: is) s = runCommands is t := by
  rw [runCommands, h]

/-- One DECPX or more: the pixels they name decoded, and STATUS as one decode leaves it. -/
theorem runCommands_decpx {s : State} {f : BlockFormat} (hf : s.fmt = formatCode f) (n : Fin 16) (l : List (Fin 16)) :
    runCommands ((n :: l).map .decpx) s = some (s.decoded (decodeOnto f s.blk (n :: l) s.pix)) := by
  induction l generalizing n s with
  | nil => exact runCommands_cons_of_exec (exec_decpx_of_format hf n)
  | cons m l ih =>
    have hrest := ih (s := s.decoded (s.pix.set n (decodePx f s.blk n))) hf m
    rw [decoded_decoded] at hrest
    exact (runCommands_cons_of_exec (exec_decpx_of_format hf n)).trans hrest

/-- Settles O38: every pixel is named, so the run of DECPX decodes the whole block, and STATUS is DEC's. -/
theorem decpxInAnyOrderIsDec : Obligations.DecpxInAnyOrderIsDec := by
  intro s t l hv hl h
  obtain ⟨f, hf⟩ := validFormat_iff.mp hv
  rw [exec_dec_of_format hf] at h
  obtain rfl := Host.Outcome.next.inj h
  have hall : ∀ i, i ∈ l := fun i => hl.mem_iff.mpr (List.mem_finRange i)
  rw [← decodeOnto_eq_decodeAll f s.blk hall s.pix]
  match l, hall 0 with
  | n :: l, _ => exact runCommands_decpx hf n l

end Sys2Proof.Machine
end

section
/-! Family 44_encode.md: the quantiser and QNT, SETEA, ENCA3 (R200 to R205), the selector encoder SELC, SELA, SETPX (R206 to R214), and
the canonicaliser CANON, CANONA (R217, R219). -/

namespace Sys2Proof.Machine

open Claims

/-! ### The quantiser's formulas (R200 to R202) -/

theorem rescale_lt (v : Byte) {m n : Nat} (h : m < n) : rescale v.toNat 255 m < n :=
  Nat.lt_of_le_of_lt (rescale_le (by decide) (Nat.le_of_lt_succ v.isLt)) h

/-- Fields within their widths do not overlap, so packing adds them. -/
theorem toNat_pack565 {r g b : Nat} (hr : r < 32) (hg : g < 64) (hb : b < 32) :
    (pack565 r g b).toNat = 2048 * r + 32 * g + b := by
  have hrg : (r <<< 11) ||| (g <<< 5) = 2048 * r + 32 * g := by
    rw [← Nat.shiftLeft_add_eq_or_of_lt (by rw [Nat.shiftLeft_eq]; omega), Nat.shiftLeft_eq, Nat.shiftLeft_eq]
    omega
  have hsum : 2048 * r + 32 * g = (64 * r + g) <<< 5 := by
    rw [Nat.shiftLeft_eq]
    omega
  rw [pack565, hrg, hsum, ← Nat.shiftLeft_add_eq_or_of_lt hb, ← hsum, BitVec.toNat_ofNat]
  exact Nat.mod_eq_of_lt (by omega)

theorem toNat_quant565 (q : Pixel) : (quant565 q).toNat = 2048 * q5 q.r + 32 * q6 q.g + q5 q.b :=
  toNat_pack565 (rescale_lt q.r (by decide)) (rescale_lt q.g (by decide)) (rescale_lt q.b (by decide))

theorem q5_eq (v : Byte) : q5 v = (31 * v.toNat + 127) / 255 := by rw [q5, rescale, Nat.mul_comm]

theorem q6_eq (v : Byte) : q6 v = (63 * v.toNat + 127) / 255 := by rw [q6, rescale, Nat.mul_comm]

theorem toNat_quant4 (a : Byte) : (quant4 a).toNat = (15 * a.toNat + 127) / 255 := by
  rw [quant4, BitVec.toNat_ofNat, Nat.mod_eq_of_lt (rescale_lt a (by decide)), rescale, Nat.mul_comm]

/-- Rounding to the nearest level undoes each expansion: an expanded level lies less than half a step from its own. -/
theorem q5_expand5 {n : Nat} (h : n < 32) : q5 (toByte (expand5 n)) = n := by
  rw [q5_eq, toNat_toByte_expand5 h]
  omega

theorem q6_expand6 {n : Nat} (h : n < 64) : q6 (toByte (expand6 n)) = n := by
  rw [q6_eq, toNat_toByte_expand6 h]
  omega

theorem quant4_expand4 (n : BitVec 4) : quant4 (toByte (expand4 n.toNat)) = n := by
  have hn := n.isLt
  apply BitVec.eq_of_toNat_eq
  rw [toNat_quant4, expand4_eq hn, toNat_toByte (by omega)]
  omega

/-- An endpoint is its three fields, and each is quantised back from its expansion. -/
theorem quant565_unpack565 (c : BitVec 16) : quant565 (unpack565 c) = c := by
  apply BitVec.eq_of_toNat_eq
  rw [toNat_quant565, unpack565, q5_expand5 (BitVec.isLt _), q6_expand6 (BitVec.isLt _), q5_expand5 (BitVec.isLt _), r5_eq, g6_eq, b5_eq]
  omega

/-- Settles O39: the fields of the packed word, and each rounding as the inverse of its expansion. -/
theorem quantiserIsExact : Obligations.QuantiserIsExact := by
  refine ⟨fun q => ?_, toNat_quant4, quant4_expand4, fun _ => q5_expand5, fun _ => q6_expand6, quant565_unpack565⟩
  rw [toNat_quant565, q5_eq, q6_eq, q5_eq]

/-! ### Bytes of a block with one element written -/

/-- A byte of a block with an element written: the element's byte inside it, the old byte outside. -/
theorem setElem_get_eq {b : Block} {k : Fin 2} {e : Elem} {j : Fin 16} {x : Byte}
    (hin : ∀ m : Fin 8, j.val = 8 * k.val + m.val → e[m] = x)
    (hout : j.val < 8 * k.val ∨ 8 * k.val + 8 ≤ j.val → b[j] = x) : (setElem b k e)[j] = x := by
  refine (setElem_get b k e j.val j.isLt).trans ?_
  split
  · exact hin ⟨j.val - 8 * k.val, by omega⟩ (by simp only; omega)
  · exact hout (by omega)

theorem elemOf_byte (b : Block) {k : Fin 2} {m : Fin 8} {j : Fin 16} (h : j.val = 8 * k.val + m.val) : (elemOf b k)[m] = b[j] := by
  obtain ⟨helem, -⟩ := elementFieldsFromBytes
  exact helem b k m j h

/-- A byte that the element's new value does not change is kept. -/
theorem setElem_get_kept {b : Block} {k : Fin 2} {e : Elem} {j : Fin 16}
    (h : ∀ m : Fin 8, j.val = 8 * k.val + m.val → e[m] = (elemOf b k)[m]) : (setElem b k e)[j] = b[j] :=
  setElem_get_eq (fun m hm => (h m hm).trans (elemOf_byte b hm)) fun _ => rfl

/-! ### Commands on one element (R24, R251) -/

/-- The state with BLK as given after a command that succeeds. -/
def State.withBlock (s : State) (b : Block) : State := { s with blk := b, status := okStatus s }

@[simp] theorem State.withBlock_blk (s : State) (b : Block) : (s.withBlock b).blk = b := rfl

theorem exec_eq_withBlock_of_ok {i : Instr} {s : State} {b : Block} (h : effectOf i s = .ok (s.setBlk b)) :
    exec i s = .next (s.withBlock b) :=
  exec_eq_okStatus h

section Element

variable {i : Instr} {s : State} {elem : BlockFormat → Option (Fin 2)} {g : Fin 2 → Elem → Elem}

theorem exec_eq_failed_of_no_element (hi : effectOf i s = withElement s elem g) (hk : (formatOf s.fmt).bind elem = none) :
    exec i s = .next (failed cfgerrBit s) :=
  exec_eq_failed_cfgerr (by rw [hi, withElement, hk])

/-- The block an element command leaves, given a name: later proofs need what it holds, not how it is built. -/
theorem exec_eq_withBlock {k : Fin 2} (hi : effectOf i s = withElement s elem g) (hk : (formatOf s.fmt).bind elem = some k) :
    ∃ b, exec i s = .next (s.withBlock b) ∧ b = setElem s.blk k (g k (elemOf s.blk k)) :=
  ⟨_, exec_eq_withBlock_of_ok (by rw [hi, withElement, hk]), rfl⟩

/-- An element command that is idempotent on the element changes nothing when it is given again. -/
theorem exec_withBlock_again {k : Fin 2} {b : Block} (hi : ∀ s, effectOf i s = withElement s elem g)
    (hk : (formatOf s.fmt).bind elem = some k) (hg : ∀ e, g k (g k e) = g k e)
    (hb : b = setElem s.blk k (g k (elemOf s.blk k))) : exec i (s.withBlock b) = .next (s.withBlock b) := by
  obtain ⟨b', hexec, hb'⟩ := exec_eq_withBlock (hi (s.withBlock b)) hk
  have hblk : b' = b := by
    rw [hb', State.withBlock, hb]
    dsimp only
    rw [elemOf_setElem_same, hg, setElem_setElem]
  rw [hexec, hblk]
  exact congrArg (fun st => Host.Outcome.next { s with blk := b, status := st }) (setOk_setOk s.status)

end Element

theorem colourElem_of_fmt : ∀ {c : BitVec 3}, c.toNat ∈ [1, 2, 3, 4] →
    (formatOf c).bind colourElem = some (if c.toNat ≤ 2 then 0 else 1) := by
  decide

theorem colourElem_eq_none_of_fmt : ∀ {c : BitVec 3}, c.toNat ∉ [1, 2, 3, 4] → (formatOf c).bind colourElem = none := by
  decide

theorem alpha5Elem_of_fmt : ∀ {c : BitVec 3}, c.toNat ∈ [4, 5] → (formatOf c).bind alpha5Elem = some 0 := by
  decide

theorem alpha5Elem_eq_none_of_fmt : ∀ {c : BitVec 3}, c.toNat ∉ [4, 5] → (formatOf c).bind alpha5Elem = none := by
  decide

theorem alpha3Elem_of_fmt : ∀ {c : BitVec 3}, c.toNat = 3 → (formatOf c).bind alpha3Elem = some 0 := by
  decide

theorem alpha3Elem_eq_none_of_fmt : ∀ {c : BitVec 3}, c.toNat ≠ 3 → (formatOf c).bind alpha3Elem = none := by
  decide

/-! ### QNT, SETEA and ENCA3 (R203 to R205) -/

theorem setColourEndpoint_get (e : Endpoint) (c : BitVec 16) (el : Elem) (m : Fin 8) :
    (setColourEndpoint e c el)[m] =
      if m.val = (if e = .low then 0 else 2) then lowByte c
      else if m.val = (if e = .low then 0 else 2) + 1 then highByte c else el[m] := by
  cases e <;> fin_cases m <;> rfl

theorem setAlphaEndpoint_get (e : Endpoint) (a : Byte) (el : Elem) (m : Fin 8) :
    (setAlphaEndpoint e a el)[m] = if m.val = (if e = .low then 0 else 1) then a else el[m] := by
  cases e <;> fin_cases m <;> simp [setAlphaEndpoint, dxt5SetLow, dxt5SetHigh]

/-- QNT byte by byte: `o` is where the endpoint stands in the block. -/
theorem setElem_setColourEndpoint_get (b : Block) (k : Fin 2) (e : Endpoint) (c : BitVec 16) {o : Nat}
    (ho : o = 8 * k.val + (if e = .low then 0 else 2)) (j : Fin 16) :
    (setElem b k (setColourEndpoint e c (elemOf b k)))[j] =
      if j.val = o then lowByte c else if j.val = o + 1 then highByte c else b[j] := by
  have hend : (if e = Endpoint.low then 0 else 2) ≤ 2 := by split <;> decide
  refine setElem_get_eq (fun m hm => ?_) fun hj => ?_
  · rw [setColourEndpoint_get, elemOf_byte b hm, ho]
    simp only [hm, Nat.add_assoc, Nat.add_left_cancel_iff]
  · rw [if_neg (by omega), if_neg (by omega)]

theorem setElem_setAlphaEndpoint_get (b : Block) (e : Endpoint) (a : Byte) (j : Fin 16) :
    (setElem b 0 (setAlphaEndpoint e a (elemOf b 0)))[j] = if j.val = (if e = .low then 0 else 1) then a else b[j] := by
  have hend : (if e = Endpoint.low then 0 else 1) ≤ 1 := by split <;> decide
  refine setElem_get_eq (fun m hm => ?_) fun hj => ?_
  · have hm : j.val = m.val := hm.trans (Nat.zero_add _)
    rw [setAlphaEndpoint_get, elemOf_byte b (j := j) (by simpa using hm)]
    simp only [hm]
  · rw [if_neg (by simp at hj; omega)]

/-- The element and its new value, command by command. -/
theorem effectOf_qnt (n : Fin 16) (e : Endpoint) (s : State) :
    effectOf (.qnt n e) s = withElement s colourElem fun _ el => setColourEndpoint e (quant565 s.pix[n]) el := rfl

theorem effectOf_setea (n : Fin 16) (e : Endpoint) (s : State) :
    effectOf (.setea n e) s = withElement s alpha5Elem fun _ el => setAlphaEndpoint e s.pix[n].a el := rfl

theorem effectOf_enca3 (s : State) :
    effectOf .enca3 s = withElement s alpha3Elem fun _ el => dxt3SetAll el fun i => quant4 s.pix[i].a := by
  rw [effectOf]

section Quantiser

variable {s : State}

theorem exec_qnt_of_fmt (n : Fin 16) (e : Endpoint) (hf : s.fmt.toNat ∈ [1, 2, 3, 4]) {k : Fin 2}
    (hk : k = if s.fmt.toNat ≤ 2 then 0 else 1) :
    ∃ b, exec (.qnt n e) s = .next (s.withBlock b) ∧
      b = setElem s.blk k (setColourEndpoint e (quant565 s.pix[n]) (elemOf s.blk k)) := by
  obtain ⟨b, hexec, hb⟩ := exec_eq_withBlock (effectOf_qnt n e s) (hk ▸ colourElem_of_fmt hf)
  exact ⟨b, hexec, hb⟩

theorem exec_setea_of_fmt (n : Fin 16) (e : Endpoint) (hf : s.fmt.toNat ∈ [4, 5]) :
    ∃ b, exec (.setea n e) s = .next (s.withBlock b) ∧
      b = setElem s.blk 0 (setAlphaEndpoint e s.pix[n].a (elemOf s.blk 0)) := by
  obtain ⟨b, hexec, hb⟩ := exec_eq_withBlock (effectOf_setea n e s) (alpha5Elem_of_fmt hf)
  exact ⟨b, hexec, hb⟩

theorem exec_enca3_of_fmt (hf : s.fmt.toNat = 3) :
    ∃ b, exec .enca3 s = .next (s.withBlock b) ∧
      b = setElem s.blk 0 (dxt3SetAll (elemOf s.blk 0) fun i => quant4 s.pix[i].a) := by
  obtain ⟨b, hexec, hb⟩ := exec_eq_withBlock (effectOf_enca3 s) (alpha3Elem_of_fmt hf)
  exact ⟨b, hexec, hb⟩

end Quantiser

/-- Settles O40: each command writes one element, whose bytes (ENCA3: nibbles) are known. -/
theorem quantiserCommands : Obligations.QuantiserCommands := by
  refine fun s => ⟨fun n e hf => ?_, fun n e o hf ho => ?_, fun n e hf => ?_, fun n e hf => ?_, fun hf => ?_, fun hf => ?_⟩
  · exact exec_eq_failed_of_no_element (effectOf_qnt n e s) (colourElem_eq_none_of_fmt hf)
  · obtain ⟨b, hexec, hb⟩ := exec_qnt_of_fmt n e hf rfl
    refine ⟨_, hexec, fun j => ?_, fun _ => rfl, rfl⟩
    rw [State.withBlock_blk, hb]
    refine setElem_setColourEndpoint_get s.blk _ e _ (ho.trans ?_) j
    split <;> rfl
  · exact exec_eq_failed_of_no_element (effectOf_setea n e s) (alpha5Elem_eq_none_of_fmt hf)
  · obtain ⟨b, hexec, hb⟩ := exec_setea_of_fmt n e hf
    refine ⟨_, hexec, fun j => ?_, fun _ => rfl, rfl⟩
    rw [State.withBlock_blk, hb, setElem_setAlphaEndpoint_get]
  · exact exec_eq_failed_of_no_element (effectOf_enca3 s) (alpha3Elem_eq_none_of_fmt hf)
  · obtain ⟨b, hexec, hb⟩ := exec_enca3_of_fmt hf
    refine ⟨_, hexec, fun i => ?_, fun j hj => ?_, fun _ => rfl, rfl⟩
    · rw [State.withBlock_blk, hb, elemOf_setElem_same, dxt3A4_setAll]
    · rw [State.withBlock_blk, hb]
      exact setElem_get_kept fun m hm => absurd hm (by simp; omega)

/-! ### `nearest` (R206) -/

/-- The second candidate takes the first's place exactly when it is nearer. -/
theorem nearest_cons {n : Nat} (c x : BitVec n) (cs : List (BitVec n)) (d : BitVec n → Nat) :
    nearest c (x :: cs) d = if d x < d c then nearest x cs d else nearest c cs d := by
  unfold nearest
  rw [List.foldl_cons]
  split <;> rfl

/-- Settles O41, by induction on the candidates: of the first two, the one that stays is the lowest nearest of the pair. -/
theorem nearestIsTheLowestMinimum : Obligations.NearestIsTheLowestMinimum := by
  intro n c cs d hasc
  induction cs generalizing c with
  | nil => exact ⟨List.mem_singleton_self c, rfl, fun x hx => by simp [nearest, List.mem_singleton.mp hx]⟩
  | cons x cs ih =>
    obtain ⟨hc, hxs⟩ := List.pairwise_cons.mp hasc
    obtain ⟨hx, hcs⟩ := List.pairwise_cons.mp hxs
    have hcx : c.toNat < x.toNat := hc x (by simp)
    rw [nearest_cons]
    split
    · obtain ⟨hmem, hdist, hmin⟩ := ih x hxs
      obtain ⟨hle, -⟩ := hmin x (by simp)
      refine ⟨List.mem_cons_of_mem c hmem, hdist, fun y hy => ?_⟩
      rcases List.mem_cons.mp hy with rfl | hy
      · exact ⟨by omega, by omega⟩
      · exact hmin y hy
    · obtain ⟨hmem, hdist, hmin⟩ := ih c (List.pairwise_cons.mpr ⟨fun y hy => hc y (List.mem_cons_of_mem x hy), hcs⟩)
      obtain ⟨hle, hlow⟩ := hmin c (by simp)
      refine ⟨?_, hdist, fun y hy => ?_⟩
      · rcases List.mem_cons.mp hmem with h | h
        · simp [h]
        · simp [h]
      · rcases List.mem_cons.mp hy with rfl | hy
        · exact hmin y (by simp)
        · rcases List.mem_cons.mp hy with rfl | hy
          · exact ⟨by omega, fun heq => by have := hlow (by omega); omega⟩
          · exact hmin y (by simp [hy])

/-- `v` is the lowest of the candidates nearest by `d`, out of every value (R206). -/
def LowestNearest {n : Nat} (d : BitVec n → Nat) (v : BitVec n) : Prop :=
  ∀ x, d v ≤ d x ∧ (d x = d v → v.toNat ≤ x.toNat)

/-- When every value is a candidate, `nearest` answers the lowest nearest of all. -/
theorem nearest_of_all {n : Nat} {c : BitVec n} {cs : List (BitVec n)} (d : BitVec n → Nat)
    (hasc : (c :: cs).Pairwise fun x y => x.toNat < y.toNat) (hall : ∀ x, x ∈ c :: cs) :
    (nearest c cs d).2 = d (nearest c cs d).1 ∧ LowestNearest d (nearest c cs d).1 := by
  obtain ⟨-, hdist, hmin⟩ := nearestIsTheLowestMinimum n c cs d hasc
  exact ⟨hdist, fun x => hmin x (hall x)⟩

theorem nearest_two_bits (d : BitVec 2 → Nat) :
    (nearest 0 [1, 2, 3] d).2 = d (nearest 0 [1, 2, 3] d).1 ∧ LowestNearest d (nearest 0 [1, 2, 3] d).1 :=
  nearest_of_all d (by decide) (by decide)

theorem nearest_three_bits (d : BitVec 3 → Nat) :
    (nearest 0 [1, 2, 3, 4, 5, 6, 7] d).2 = d (nearest 0 [1, 2, 3, 4, 5, 6, 7] d).1 ∧
      LowestNearest d (nearest 0 [1, 2, 3, 4, 5, 6, 7] d).1 :=
  nearest_of_all d (by decide) (by decide)

/-! ### The choice of a colour selector (R207) -/

/-- The distance of a pixel to an entry of the DXT1 table. -/
def dxt1Distance (ctrl : BitVec 16) (e : Elem) (q : Pixel) (v : BitVec 2) : Nat :=
  wdist (ctrl.getLsbD 0) q (dxt1Table e)[v.toFin]

section Choice

variable {f : BlockFormat} {ctrl : BitVec 16} {e : Elem} {q : Pixel}

theorem selDxt1_transparent (ht : f = .dxt1a ∧ (dxt1Low e).toNat ≤ (dxt1High e).toNat ∧ q.a.toNat < (ctrl.extractLsb' 8 8).toNat) :
    selDxt1 f ctrl e q = (3, 0) := by
  obtain ⟨hf, hle, ha⟩ := ht
  rw [selDxt1, dxt1IsAlphaBlock, decide_eq_true hle, if_pos rfl, if_pos ⟨hf, ha⟩]

theorem selDxt1_cutout (hle : (dxt1Low e).toNat ≤ (dxt1High e).toNat)
    (ht : ¬ (f = .dxt1a ∧ (dxt1Low e).toNat ≤ (dxt1High e).toNat ∧ q.a.toNat < (ctrl.extractLsb' 8 8).toNat)) :
    selDxt1 f ctrl e q = nearest 0 [1, 2] (dxt1Distance ctrl e q) := by
  rw [selDxt1, dxt1IsAlphaBlock, decide_eq_true hle, if_pos rfl, if_neg fun h => ht ⟨h.1, hle, h.2⟩]
  rfl

theorem selDxt1_opaque (hle : ¬ (dxt1Low e).toNat ≤ (dxt1High e).toNat) :
    selDxt1 f ctrl e q = nearest 0 [1, 2, 3] (dxt1Distance ctrl e q) := by
  rw [selDxt1, dxt1IsAlphaBlock, decide_eq_false hle, if_neg Bool.false_ne_true]
  rfl

end Choice

/-- Settles O43: the transparent pixel, then the lowest nearest of three candidates (cutout) or of all four (opaque). -/
theorem colourSelectorChoice : Obligations.ColourSelectorChoice := by
  intro f ctrl e q v d h
  refine ⟨fun ht => ?_, fun ht => ?_⟩
  · rw [selDxt1_transparent ht] at h
    cases h
    exact ⟨rfl, rfl⟩
  · by_cases hle : (dxt1Low e).toNat ≤ (dxt1High e).toNat
    · obtain ⟨hmem, hdist, hmin⟩ := nearestIsTheLowestMinimum 2 0 [1, 2] (dxt1Distance ctrl e q) (by decide)
      rw [← selDxt1_cutout hle ht, h] at hmem hdist hmin
      obtain rfl : d = dxt1Distance ctrl e q v := hdist
      have hcand : ∀ x : BitVec 2, x ∈ [0, 1, 2] ↔ x ≠ 3 := by decide
      exact ⟨rfl, fun _ => (hcand v).mp hmem, fun x hx => hmin x ((hcand x).mpr (hx hle))⟩
    · obtain ⟨hdist, hmin⟩ := nearest_two_bits (dxt1Distance ctrl e q)
      rw [← selDxt1_opaque (f := f) hle, h] at hdist hmin
      obtain rfl : d = dxt1Distance ctrl e q v := hdist
      exact ⟨rfl, fun hle' => absurd hle' hle, fun x _ => hmin x⟩

/-! ### What selector writes keep, byte by byte (R83, R85, R88) -/

theorem dxt1SetAll_byte (e : Elem) (f : Fin 16 → BitVec 2) {m : Fin 8} (hm : m.val < 4) : (dxt1SetAll e f)[m] = e[m] := by
  refine foldl_keeps (fun acc i => dxt1SetSel acc i (f i)) (fun e : Elem => e[m]) (fun e i => ?_) pixelIndices e
  obtain ⟨m, hm8⟩ := m
  simp only at hm
  interval_cases m <;> rfl

theorem dxt5SetAll_byte (e : Elem) (f : Fin 16 → BitVec 3) {m : Fin 8} (hm : m.val < 2) : (dxt5SetAll e f)[m] = e[m] := by
  refine foldl_keeps (fun acc i => dxt5SetSel acc i (f i)) (fun e : Elem => e[m]) (fun e i => ?_) pixelIndices e
  obtain ⟨m, hm8⟩ := m
  simp only at hm
  interval_cases m <;> rfl

/-- The header of an ETC1 element is W's bits 63:32, its bytes 0 to 3 (R87). -/
theorem etc1_byte_of_header {e e' : Elem} (h : ∀ k, 32 ≤ k → (etc1Word e).getLsbD k = (etc1Word e').getLsbD k) {m : Fin 8}
    (hm : m.val < 4) : e[m] = e'[m] := by
  rw [← byteOf_etc1Word, ← byteOf_etc1Word]
  exact extract_of_header h _ 8 (by omega)

/-! ### A command that writes selectors and ERR (R29, R208, R212, R214) -/

/-- The state with BLK and ERR as given after a command that succeeds. -/
def State.withSelectors (s : State) (b : Block) (total : Nat) : State :=
  { s with blk := b, err := errWord total, status := okStatus s }

@[simp] theorem State.withSelectors_blk (s : State) (b : Block) (total : Nat) : (s.withSelectors b total).blk = b := rfl

/-- ERR reads as the exact error: the total is far below 2^32 (R29). -/
theorem toNat_withSelectors_err {s : State} {b : Block} {total : Nat} (h : total ≤ 35373600) :
    (s.withSelectors b total).err.toNat = total :=
  toNat_errWord (by omega)

theorem exec_eq_withSelectors_of_ok {i : Instr} {s : State} {b : Block} {total : Nat}
    (h : effectOf i s = .ok ((s.setBlk b).setErr (errWord total))) : exec i s = .next (s.withSelectors b total) :=
  exec_eq_okStatus h

/-! ### SELC on a DXT1-layout element (R208) -/

theorem selcEffect_colour (s : State) {f : BlockFormat} {k : Fin 2} (hk : colourElem f = some k) :
    selcEffect s f = .ok (encodeColour f k s) := by
  cases f <;> cases hk <;> rfl

/-- The block SELC leaves, given a name, and the error it reports. -/
theorem exec_selc_colour {s : State} {f : BlockFormat} {k : Fin 2} (hf : s.fmt = formatCode f) (hk : colourElem f = some k) :
    ∃ b, exec .selc s = .next (s.withSelectors b (totalError fun i => (selDxt1 f s.ctrl (elemOf s.blk k) s.pix[i]).2)) ∧
      b = setElem s.blk k (dxt1SetAll (elemOf s.blk k) fun i => (selDxt1 f s.ctrl (elemOf s.blk k) s.pix[i]).1) :=
  ⟨_, exec_eq_withSelectors_of_ok ((withFormat_formatCode hf _).trans (selcEffect_colour s hk)), rfl⟩

theorem withFormat_selcEffect_of_fmt {s : State} (hf : s.fmt.toNat ∉ [1, 2, 3, 4, 6]) :
    withFormat s (selcEffect s) = .error .cfgerr := by
  by_cases hv : validFormat s
  · obtain ⟨f, hcode⟩ := validFormat_iff.mp hv
    have hdxt5a : f = .dxt5a := by
      rw [hcode] at hf
      revert hf
      cases f <;> decide
    rw [withFormat_formatCode hcode, hdxt5a, selcEffect]
  · exact withFormat_of_not_validFormat hv _

/-- Settles O44: the selectors and the total are those of `sel_dxt1` on the old element, whose endpoint bytes SELC keeps. -/
theorem selcEncodesColour : Obligations.SelcEncodesColour := by
  refine fun s => ⟨fun hf => exec_eq_failed_cfgerr (withFormat_selcEffect_of_fmt hf), fun f k hcode hf hk => ?_⟩
  have helem : colourElem f = some k := by
    subst hk
    revert hf
    cases f <;> decide
  obtain ⟨b, hexec, hb⟩ := exec_selc_colour hcode helem
  refine ⟨_, hexec, fun i => ?_, ?_, fun j hj => ?_, fun _ => rfl, rfl⟩
  · rw [State.withSelectors_blk, hb, elemOf_setElem_same, dxt1Sel_setAll]
  · exact toNat_withSelectors_err (totalError_le_errBound fun i => colourChoice_snd_le f s (elemOf s.blk k) i)
  · rw [State.withSelectors_blk, hb]
    exact setElem_get_kept fun m hm => dxt1SetAll_byte _ _ (by omega)

/-! ### SELC on an ETC1 element (R208, R209) -/

/-- The distance of a pixel to a candidate of its sub-block. -/
def etc1Distance (s : State) (i : Fin 16) (v : BitVec 2) : Nat :=
  wdist (s.ctrl.getLsbD 0) s.pix[i] (etc1Entry (elemOf s.blk 0) (etc1Sub (elemOf s.blk 0) i) v)

theorem etc1Choice_eq (s : State) (i : Fin 16) :
    etc1Choice s (elemOf s.blk 0) i = nearest 0 [1, 2, 3] (etc1Distance s i) := rfl

theorem exec_selc_etc1 {s : State} (hf : s.fmt = 6) :
    ∃ b, exec .selc s = .next (s.withSelectors b (totalError fun i => (etc1Choice s (elemOf s.blk 0) i).2)) ∧
      b = setElem s.blk 0 (etc1SetAll (elemOf s.blk 0) fun i => (etc1Choice s (elemOf s.blk 0) i).1) :=
  ⟨_, exec_eq_withSelectors_of_ok (withFormat_formatCode (f := .etc1) hf _), rfl⟩

/-- Settles O45: each raw index written is the answer of `nearest` on all four candidates. -/
theorem selcEncodesEtc1 : Obligations.SelcEncodesEtc1 := by
  intro s hf
  obtain ⟨b, hexec, hb⟩ := exec_selc_etc1 hf
  have hsel : ∀ i, etc1Sel (elemOf b 0) i = (etc1Choice s (elemOf s.blk 0) i).1 := fun i => by
    rw [hb, elemOf_setElem_same, etc1Sel_setAll]
  have hchoice : ∀ i, (etc1Choice s (elemOf s.blk 0) i).2 = etc1Distance s i (etc1Sel (elemOf b 0) i) ∧
      LowestNearest (etc1Distance s i) (etc1Sel (elemOf b 0) i) := fun i => by
    rw [hsel, etc1Choice_eq]
    exact nearest_two_bits _
  refine ⟨_, hexec, fun i v x hv => ?_, ?_, fun j hj => ?_, fun _ => rfl, rfl⟩
  · obtain ⟨-, hlow⟩ := hchoice i
    exact hv ▸ hlow x
  · refine (toNat_withSelectors_err (totalError_le_errBound fun i => etc1Choice_snd_le s _ i)).trans ?_
    exact congrArg totalError (funext fun i => (hchoice i).1)
  · rw [State.withSelectors_blk, hb]
    exact setElem_get_kept fun m hm => etc1_byte_of_header (etc1Header_setAll _ _) (by simp at hm; omega)

/-! ### SELA (R210, R212) -/

/-- The distance of an alpha to an entry of the DXT5 table of element 0. -/
def dxt5Distance (s : State) (i : Fin 16) (v : BitVec 3) : Nat := sqDiff s.pix[i].a (dxt5Table (elemOf s.blk 0))[v.toFin]

theorem alphaChoice_eq (s : State) (i : Fin 16) :
    alphaChoice s (elemOf s.blk 0) i = nearest 0 [1, 2, 3, 4, 5, 6, 7] (dxt5Distance s i) := rfl

theorem exec_sela_of_fmt {s : State} (hf : s.fmt.toNat ∈ [4, 5]) :
    ∃ b, exec .sela s = .next (s.withSelectors b (totalError fun i => (alphaChoice s (elemOf s.blk 0) i).2)) ∧
      b = setElem s.blk 0 (dxt5SetAll (elemOf s.blk 0) fun i => (alphaChoice s (elemOf s.blk 0) i).1) :=
  ⟨_, exec_eq_withSelectors_of_ok (by simp only [effectOf, alpha5Elem_of_fmt hf]; rfl), rfl⟩

/-- Settles O46: each selector written is the answer of `nearest` on all eight entries. -/
theorem selaEncodesAlpha : Obligations.SelaEncodesAlpha := by
  refine fun s => ⟨fun hf => exec_eq_failed_cfgerr ?_, fun hf => ?_⟩
  · simp only [effectOf, alpha5Elem_eq_none_of_fmt hf]
  obtain ⟨b, hexec, hb⟩ := exec_sela_of_fmt hf
  have hsel : ∀ i, dxt5Sel (elemOf b 0) i = (alphaChoice s (elemOf s.blk 0) i).1 := fun i => by
    rw [hb, elemOf_setElem_same, dxt5Sel_setAll]
  have hchoice : ∀ i, (alphaChoice s (elemOf s.blk 0) i).2 = dxt5Distance s i (dxt5Sel (elemOf b 0) i) ∧
      LowestNearest (dxt5Distance s i) (dxt5Sel (elemOf b 0) i) := fun i => by
    rw [hsel, alphaChoice_eq]
    exact nearest_three_bits _
  refine ⟨_, hexec, fun i v x hv => ?_, ?_, fun j hj => ?_, fun _ => rfl, rfl⟩
  · obtain ⟨-, hlow⟩ := hchoice i
    exact hv ▸ hlow x
  · refine (toNat_withSelectors_err (totalError_le_errBound fun i => (alphaChoice_snd_le s _ i).trans (by decide))).trans ?_
    exact congrArg totalError (funext fun i => (hchoice i).1)
  · rw [State.withSelectors_blk, hb]
    exact setElem_get_kept fun m hm => dxt5SetAll_byte _ _ (by simp at hm; omega)

/-! ### SETPX (R211, R213, R214) -/

/-- SETPX with a format in FMT: BLK and ERR as R214 gives them, ERR's value exact (R29), and the frame. -/
theorem exec_setpx_of_format {s : State} {f : BlockFormat} (hf : s.fmt = formatCode f) (n : Fin 16) :
    ∃ t, exec (.setpx n) s = .next t ∧ t.blk = setPixelBlock f n s ∧ t.err.toNat = setPixelError f n s ∧ KeepsMemory s t ∧
      t = { s with blk := t.blk, err := t.err, status := okStatus s } :=
  ⟨_, exec_eq_withSelectors_of_ok (withFormat_formatCode hf _), rfl, toNat_withSelectors_err (setPixelError_le f n s),
    fun _ => rfl, rfl⟩

/-- A format is known by its code as a number. -/
theorem eq_of_fmt_toNat {s : State} {f g : BlockFormat} (hf : s.fmt = formatCode f) (h : s.fmt.toNat = (formatCode g).toNat) :
    f = g := by
  have hcode : formatCode f = formatCode g := hf ▸ BitVec.eq_of_toNat_eq h
  have hsome := formatOf_formatCode f
  rw [hcode, formatOf_formatCode] at hsome
  exact (Option.some.inj hsome).symm

/-- The colour element SETPX leaves, and the elements it does not write. -/
theorem elemOf_setColourPixel (f : BlockFormat) (k : Fin 2) (n : Fin 16) (s : State) (b : Block) (k' : Fin 2) :
    elemOf (setColourPixel f k n s b) k' =
      if k' = k then dxt1SetSel (elemOf b k) n (colourChoice f s (elemOf s.blk k) n).1 else elemOf b k' :=
  elemOf_setElem ..

theorem elemOf_setAlphaPixel (n : Fin 16) (s : State) (b : Block) (k' : Fin 2) :
    elemOf (setAlphaPixel n s b) k' =
      if k' = 0 then dxt5SetSel (elemOf b 0) n (alphaChoice s (elemOf s.blk 0) n).1 else elemOf b k' :=
  elemOf_setElem ..

theorem elemOf_setNibblePixel (n : Fin 16) (s : State) (b : Block) (k' : Fin 2) :
    elemOf (setNibblePixel n s b) k' = if k' = 0 then dxt3SetA4 (elemOf b 0) n (quant4 s.pix[n].a) else elemOf b k' :=
  elemOf_setElem ..

theorem elemOf_setEtc1Pixel (n : Fin 16) (s : State) (b : Block) (k' : Fin 2) :
    elemOf (setEtc1Pixel n s b) k' =
      if k' = 0 then etc1SetSel (elemOf b 0) n (etc1Choice s (elemOf s.blk 0) n).1 else elemOf b k' :=
  elemOf_setElem ..

/-- One selector written into a DXT1-layout element is what R214 says of it. -/
theorem setpxColour_of_elem {f : BlockFormat} {k : Fin 2} {n : Fin 16} {s t : State}
    (h : elemOf t.blk k = dxt1SetSel (elemOf s.blk k) n (colourChoice f s (elemOf s.blk k) n).1) : setpxColour f k n s t := by
  rw [setpxColour, h]
  exact ⟨fun i => dxt1Sel_setSel _ _ _ i, dxt1Low_setSel .., dxt1High_setSel ..⟩

theorem setpxAlpha_of_elem {n : Fin 16} {s t : State}
    (h : elemOf t.blk 0 = dxt5SetSel (elemOf s.blk 0) n (alphaChoice s (elemOf s.blk 0) n).1) : setpxAlpha n s t := by
  rw [setpxAlpha, h]
  exact ⟨fun i => dxt5Sel_setSel _ _ _ i, dxt5Low_setSel .., dxt5High_setSel ..⟩

/-- The error of a DXT3 nibble: the nibble's alpha is 17 times it. -/
theorem encAlpha3_snd (a : Byte) : (encAlpha3 a).2 = (((a.toNat : Int) - 17 * (quant4 a).toNat) ^ 2).toNat := by
  have hlevel : (toByte (expand4 (quant4 a).toNat)).toNat = 17 * (quant4 a).toNat := by
    have hlt := (quant4 a).isLt
    rw [expand4_eq hlt, toNat_toByte (by omega)]
  have hcast := sqDiff_cast a (toByte (expand4 (quant4 a).toNat))
  rw [hlevel] at hcast
  rw [encAlpha3, ← Int.toNat_natCast (sqDiff _ _), hcast]
  push_cast
  rfl

/-- The header bytes of a block whose ETC1 element has one raw index written. -/
theorem setEtc1Pixel_byte (n : Fin 16) (s : State) (b : Block) {j : Fin 16} (hj : j.val < 4) : (setEtc1Pixel n s b)[j] = b[j] :=
  setElem_get_kept fun m hm => etc1_byte_of_header (etc1Header_setSel _ _ _) (by simp at hm; omega)

/-- The formats of one DXT1-layout element: SETPX writes that element alone. -/
theorem setPixel_of_colour_first {f : BlockFormat} (h : colourElem f = some 0) (n : Fin 16) (s : State) :
    setPixelBlock f n s = setColourPixel f 0 n s s.blk ∧ setPixelError f n s = (colourChoice f s (elemOf s.blk 0) n).2 := by
  cases f <;> cases h <;> exact ⟨rfl, rfl⟩

/-- Settles O47, format by format: the elements SETPX leaves, and the error as a number. -/
theorem setpxSetsOneSelector : Obligations.SetpxSetsOneSelector := by
  refine fun s n => ⟨fun hv => exec_eq_failed_cfgerr (withFormat_of_not_validFormat hv _), fun hv => ?_⟩
  obtain ⟨f, hf⟩ := validFormat_iff.mp hv
  obtain ⟨t, hexec, hblk, herr, hmem, hframe⟩ := exec_setpx_of_format hf n
  refine ⟨t, hexec, hmem, hframe, fun h => ?dxt1, fun h => ?dxt3, fun h => ?dxt5, fun h => ?dxt5a, fun h => ?etc1⟩
  case dxt1 =>
    have hcolour : colourElem f = some 0 := by
      rcases h with h | h
      · rw [eq_of_fmt_toNat (g := .dxt1) hf h]; rfl
      · rw [eq_of_fmt_toNat (g := .dxt1a) hf h]; rfl
    obtain ⟨hblock, herror⟩ := setPixel_of_colour_first hcolour n s
    rw [hblock] at hblk
    refine ⟨?_, fun g hg => ?_⟩
    · rw [hblk, elemOf_setColourPixel, if_neg (by decide)]
    · obtain rfl : g = f := eq_of_fmt_toNat hg (congrArg BitVec.toNat hf)
      refine ⟨setpxColour_of_elem ?_, herr.trans herror⟩
      rw [hblk, elemOf_setColourPixel, if_pos rfl]
  case dxt3 =>
    obtain rfl : f = .dxt3 := eq_of_fmt_toNat hf h
    refine ⟨setpxColour_of_elem ?_, fun i => ?_, ?_⟩
    · rw [hblk, setPixelBlock, elemOf_setColourPixel, if_pos rfl, elemOf_setNibblePixel, if_neg (by decide)]
    · rw [hblk, setPixelBlock, elemOf_setColourPixel, if_neg (by decide), elemOf_setNibblePixel, if_pos rfl, dxt3A4_setA4]
    · rw [herr, setPixelError, encAlpha3_snd]
      rfl
  case dxt5 =>
    obtain rfl : f = .dxt5 := eq_of_fmt_toNat hf h
    refine ⟨setpxColour_of_elem ?_, setpxAlpha_of_elem ?_, herr⟩
    · rw [hblk, setPixelBlock, elemOf_setColourPixel, if_pos rfl, elemOf_setAlphaPixel, if_neg (by decide)]
    · rw [hblk, setPixelBlock, elemOf_setColourPixel, if_neg (by decide), elemOf_setAlphaPixel, if_pos rfl]
  case dxt5a =>
    obtain rfl : f = .dxt5a := eq_of_fmt_toNat hf h
    refine ⟨?_, setpxAlpha_of_elem ?_, herr⟩
    · rw [hblk, setPixelBlock, elemOf_setAlphaPixel, if_neg (by decide)]
    · rw [hblk, setPixelBlock, elemOf_setAlphaPixel, if_pos rfl]
  case etc1 =>
    obtain rfl : f = .etc1 := eq_of_fmt_toNat hf h
    refine ⟨?_, fun i => ?_, fun j hj => ?_, herr⟩
    · rw [hblk, setPixelBlock, elemOf_setEtc1Pixel, if_neg (by decide)]
    · rw [hblk, setPixelBlock, elemOf_setEtc1Pixel, if_pos rfl, etc1Sel_setSel]
      rfl
    · rw [hblk, setPixelBlock, setEtc1Pixel_byte n s s.blk hj]

/-! ### Two endpoints put in order (R217, R219) -/

/-- What all four canonicalisations do to an element: `swap` it when its endpoint `x` is below `y`, `level` it when they are equal. -/
def orderEndpoints (x y : Elem → Nat) (swap level : Elem → Elem) (e : Elem) : Elem :=
  if x e < y e then swap e else if x e = y e then level e else e

/-- `swap` exchanges the endpoints; `level` keeps them and is idempotent. -/
structure EndpointOrder (x y : Elem → Nat) (swap level : Elem → Elem) : Prop where
  swap_x (e : Elem) : x (swap e) = y e
  swap_y (e : Elem) : y (swap e) = x e
  level_x (e : Elem) : x (level e) = x e
  level_y (e : Elem) : y (level e) = y e
  level_level (e : Elem) : level (level e) = level e

section Order

variable {x y : Elem → Nat} {swap level : Elem → Elem} {e : Elem}

theorem orderEndpoints_of_lt (h : x e < y e) : orderEndpoints x y swap level e = swap e := if_pos h

theorem orderEndpoints_of_eq (h : x e = y e) : orderEndpoints x y swap level e = level e := by
  rw [orderEndpoints, if_neg (by omega), if_pos h]

theorem orderEndpoints_of_gt (h : y e < x e) : orderEndpoints x y swap level e = e := by
  rw [orderEndpoints, if_neg (by omega), if_neg (by omega)]

theorem EndpointOrder.ordered (ho : EndpointOrder x y swap level) (e : Elem) :
    y (orderEndpoints x y swap level e) ≤ x (orderEndpoints x y swap level e) := by
  rcases Nat.lt_trichotomy (x e) (y e) with h | h | h
  · rw [orderEndpoints_of_lt h, ho.swap_x, ho.swap_y]
    exact h.le
  · rw [orderEndpoints_of_eq h, ho.level_x, ho.level_y]
    exact h.ge
  · rw [orderEndpoints_of_gt h]
    exact h.le

/-- Ordering again keeps an element whose endpoints differ, and levels one whose endpoints are equal, which is level already. -/
theorem EndpointOrder.idem (ho : EndpointOrder x y swap level) (e : Elem) :
    orderEndpoints x y swap level (orderEndpoints x y swap level e) = orderEndpoints x y swap level e := by
  rcases Nat.lt_trichotomy (x e) (y e) with h | h | h
  · rw [orderEndpoints_of_lt h]
    exact orderEndpoints_of_gt (by rw [ho.swap_x, ho.swap_y]; exact h)
  · rw [orderEndpoints_of_eq h, orderEndpoints_of_eq (by rw [ho.level_x, ho.level_y]; exact h), ho.level_level]
  · rw [orderEndpoints_of_gt h, orderEndpoints_of_gt h]

end Order

/-! ### CANON (R217) -/

theorem dxt1Remap_swap_fields (inv : BitVec 2 → BitVec 2) (e : Elem) :
    dxt1Low (dxt1Remap inv (dxt1Swap e)) = dxt1High e ∧ dxt1High (dxt1Remap inv (dxt1Swap e)) = dxt1Low e ∧
      ∀ i, dxt1Sel (dxt1Remap inv (dxt1Swap e)) i = inv (dxt1Sel e i) := by
  simp [dxt1Remap, dxt1Swap]

theorem dxt1SetAll_zero_fields (e : Elem) :
    dxt1Low (dxt1SetAll e fun _ => 0) = dxt1Low e ∧ dxt1High (dxt1SetAll e fun _ => 0) = dxt1High e ∧
      ∀ i, dxt1Sel (dxt1SetAll e fun _ => 0) i = 0 := by
  simp

theorem canonColour_four (e : Elem) :
    canonColour .fourColour e = orderEndpoints (fun e => (dxt1Low e).toNat) (fun e => (dxt1High e).toNat)
      (fun e => dxt1Remap inv4 (dxt1Swap e)) (fun e => dxt1SetAll e fun _ => 0) e := by
  simp only [canonColour, orderEndpoints, BitVec.toNat_inj]

theorem endpointOrder_four :
    EndpointOrder (fun e => (dxt1Low e).toNat) (fun e => (dxt1High e).toNat) (fun e => dxt1Remap inv4 (dxt1Swap e))
      (fun e => dxt1SetAll e fun _ => 0) where
  swap_x e := by simp [dxt1Remap, dxt1Swap]
  swap_y e := by simp [dxt1Remap, dxt1Swap]
  level_x e := by simp
  level_y e := by simp
  level_level e := dxt1_ext (by simp) (by simp) (by simp)

/-- Mode 1 orders the endpoints the other way round and does nothing to equal ones. -/
theorem canonColour_three (e : Elem) :
    canonColour .threeColour e = orderEndpoints (fun e => (dxt1High e).toNat) (fun e => (dxt1Low e).toNat)
      (fun e => dxt1Remap inv3 (dxt1Swap e)) id e := by
  simp only [canonColour, orderEndpoints, id, ite_self]

theorem endpointOrder_three :
    EndpointOrder (fun e => (dxt1High e).toNat) (fun e => (dxt1Low e).toNat) (fun e => dxt1Remap inv3 (dxt1Swap e)) id where
  swap_x e := by simp [dxt1Remap, dxt1Swap]
  swap_y e := by simp [dxt1Remap, dxt1Swap]
  level_x _ := rfl
  level_y _ := rfl
  level_level _ := rfl

theorem canonColour_idem (mode : ColourScheme) (e : Elem) : canonColour mode (canonColour mode e) = canonColour mode e := by
  cases mode with
  | fourColour => simp only [canonColour_four, endpointOrder_four.idem]
  | threeColour => simp only [canonColour_three, endpointOrder_three.idem]

/-- Outside the swap and the equal endpoints of mode 0, the element is kept. -/
theorem canonColour_kept {mode : ColourScheme} {e : Elem}
    (h : mode = .fourColour ∧ (dxt1High e).toNat < (dxt1Low e).toNat ∨
      mode = .threeColour ∧ (dxt1Low e).toNat ≤ (dxt1High e).toNat) : canonColour mode e = e := by
  obtain ⟨rfl, h⟩ | ⟨rfl, h⟩ := h
  · rw [canonColour_four, orderEndpoints_of_gt h]
  · rw [canonColour, if_neg (Nat.not_lt.mpr h)]

theorem effectOf_canon (mode : ColourScheme) (s : State) :
    effectOf (.canon mode) s = withElement s colourElem fun _ el => canonColour mode el := rfl

/-- CANON's answer, its block given a name; the same command again answers the same state. -/
theorem exec_canon_of_fmt (mode : ColourScheme) {s : State} (hf : s.fmt.toNat ∈ [1, 2, 3, 4]) {k : Fin 2}
    (hk : k = if s.fmt.toNat ≤ 2 then 0 else 1) :
    ∃ b, exec (.canon mode) s = .next (s.withBlock b) ∧ exec (.canon mode) (s.withBlock b) = .next (s.withBlock b) ∧
      b = setElem s.blk k (canonColour mode (elemOf s.blk k)) := by
  have helem : (formatOf s.fmt).bind colourElem = some k := hk ▸ colourElem_of_fmt hf
  obtain ⟨b, hexec, hb⟩ := exec_eq_withBlock (effectOf_canon mode s) helem
  exact ⟨b, hexec, exec_withBlock_again (effectOf_canon mode) helem (canonColour_idem mode) hb, hb⟩

/-- Settles O51: the fields of the element CANON leaves, by mode and by the order of the endpoints. -/
theorem canonOrdersEndpoints : Obligations.CanonOrdersEndpoints := by
  refine fun mode s => ⟨fun hf => ?_, fun k l h hf hk hl hh => ?_⟩
  · exact exec_eq_failed_of_no_element (effectOf_canon mode s) (colourElem_eq_none_of_fmt hf)
  subst hl hh
  obtain ⟨b, hexec, hagain, hb⟩ := exec_canon_of_fmt mode hf hk
  refine ⟨_, canonColour mode (elemOf s.blk k), hexec, ?elem, ?order4, ?order3, ?swap4, ?equal4, ?swap3, fun hkept => ?kept,
    fun k' hne => ?other, fun _ => rfl, rfl, hagain⟩
  case elem => rw [State.withBlock_blk, hb, elemOf_setElem_same]
  case order4 => rintro rfl; simpa only [canonColour_four] using endpointOrder_four.ordered _
  case order3 => rintro rfl; simpa only [canonColour_three] using endpointOrder_three.ordered _
  case swap4 => rintro ⟨rfl, h⟩; rw [canonColour_four, orderEndpoints_of_lt h]; exact dxt1Remap_swap_fields inv4 _
  case equal4 =>
    rintro ⟨rfl, h⟩
    rw [canonColour_four, orderEndpoints_of_eq (congrArg BitVec.toNat h)]
    exact dxt1SetAll_zero_fields _
  case swap3 => rintro ⟨rfl, h⟩; rw [canonColour_three, orderEndpoints_of_lt h]; exact dxt1Remap_swap_fields inv3 _
  case kept => rw [State.withBlock_blk, hb, canonColour_kept hkept, setElem_elemOf]
  case other => rw [State.withBlock_blk, hb, elemOf_setElem, if_neg hne]

/-! ### CANONA (R219) -/

theorem dxt5Remap_swap_fields (inv : BitVec 3 → BitVec 3) (e : Elem) :
    dxt5Low (dxt5Remap inv (dxt5Swap e)) = dxt5High e ∧ dxt5High (dxt5Remap inv (dxt5Swap e)) = dxt5Low e ∧
      ∀ i, dxt5Sel (dxt5Remap inv (dxt5Swap e)) i = inv (dxt5Sel e i) := by
  simp [dxt5Remap, dxt5Swap]

theorem dxt5SetAll_zero_fields (e : Elem) :
    dxt5Low (dxt5SetAll e fun _ => 0) = dxt5Low e ∧ dxt5High (dxt5SetAll e fun _ => 0) = dxt5High e ∧
      ∀ i, dxt5Sel (dxt5SetAll e fun _ => 0) i = 0 := by
  simp

theorem canonAlpha_eight (e : Elem) :
    canonAlpha .eightLevel e = orderEndpoints (fun e => (dxt5Low e).toNat) (fun e => (dxt5High e).toNat)
      (fun e => dxt5Remap inv8 (dxt5Swap e)) (fun e => dxt5SetAll e fun _ => 0) e := by
  simp only [canonAlpha, orderEndpoints, BitVec.toNat_inj]

theorem endpointOrder_eight :
    EndpointOrder (fun e => (dxt5Low e).toNat) (fun e => (dxt5High e).toNat) (fun e => dxt5Remap inv8 (dxt5Swap e))
      (fun e => dxt5SetAll e fun _ => 0) where
  swap_x e := by simp [dxt5Remap, dxt5Swap]
  swap_y e := by simp [dxt5Remap, dxt5Swap]
  level_x e := by simp
  level_y e := by simp
  level_level e := dxt5_ext (by simp) (by simp) (by simp)

/-- Mode 1 orders the endpoints the other way round and does nothing to equal ones. -/
theorem canonAlpha_six (e : Elem) :
    canonAlpha .sixLevel e = orderEndpoints (fun e => (dxt5High e).toNat) (fun e => (dxt5Low e).toNat)
      (fun e => dxt5Remap inv6 (dxt5Swap e)) id e := by
  simp only [canonAlpha, orderEndpoints, id, ite_self]

theorem endpointOrder_six :
    EndpointOrder (fun e => (dxt5High e).toNat) (fun e => (dxt5Low e).toNat) (fun e => dxt5Remap inv6 (dxt5Swap e)) id where
  swap_x e := by simp [dxt5Remap, dxt5Swap]
  swap_y e := by simp [dxt5Remap, dxt5Swap]
  level_x _ := rfl
  level_y _ := rfl
  level_level _ := rfl

theorem canonAlpha_idem (mode : AlphaScheme) (e : Elem) : canonAlpha mode (canonAlpha mode e) = canonAlpha mode e := by
  cases mode with
  | eightLevel => simp only [canonAlpha_eight, endpointOrder_eight.idem]
  | sixLevel => simp only [canonAlpha_six, endpointOrder_six.idem]

/-- Outside the swap and the equal endpoints of mode 0, the element is kept. -/
theorem canonAlpha_kept {mode : AlphaScheme} {e : Elem}
    (h : mode = .eightLevel ∧ (dxt5High e).toNat < (dxt5Low e).toNat ∨
      mode = .sixLevel ∧ (dxt5Low e).toNat ≤ (dxt5High e).toNat) : canonAlpha mode e = e := by
  obtain ⟨rfl, h⟩ | ⟨rfl, h⟩ := h
  · rw [canonAlpha_eight, orderEndpoints_of_gt h]
  · rw [canonAlpha, if_neg (Nat.not_lt.mpr h)]

theorem effectOf_canona (mode : AlphaScheme) (s : State) :
    effectOf (.canona mode) s = withElement s alpha5Elem fun _ el => canonAlpha mode el := rfl

/-- CANONA's answer, its block given a name; the same command again answers the same state. -/
theorem exec_canona_of_fmt (mode : AlphaScheme) {s : State} (hf : s.fmt.toNat ∈ [4, 5]) :
    ∃ b, exec (.canona mode) s = .next (s.withBlock b) ∧ exec (.canona mode) (s.withBlock b) = .next (s.withBlock b) ∧
      b = setElem s.blk 0 (canonAlpha mode (elemOf s.blk 0)) := by
  have helem := alpha5Elem_of_fmt hf
  obtain ⟨b, hexec, hb⟩ := exec_eq_withBlock (effectOf_canona mode s) helem
  exact ⟨b, hexec, exec_withBlock_again (effectOf_canona mode) helem (canonAlpha_idem mode) hb, hb⟩

/-- Settles O52: the fields of the element CANONA leaves, by mode and by the order of the endpoints. -/
theorem canonaOrdersEndpoints : Obligations.CanonaOrdersEndpoints := by
  refine fun mode s => ⟨fun hf => ?_, fun l h hf hl hh => ?_⟩
  · exact exec_eq_failed_of_no_element (effectOf_canona mode s) (alpha5Elem_eq_none_of_fmt hf)
  obtain rfl : l = dxt5Low (elemOf s.blk 0) := hl.trans (elemOf_get s.blk 0 0 (by decide)).symm
  obtain rfl : h = dxt5High (elemOf s.blk 0) := hh.trans (elemOf_get s.blk 0 1 (by decide)).symm
  obtain ⟨b, hexec, hagain, hb⟩ := exec_canona_of_fmt mode hf
  refine ⟨_, canonAlpha mode (elemOf s.blk 0), hexec, ?elem, ?order8, ?order6, ?swap8, ?equal8, ?swap6, fun hkept => ?kept, ?other,
    fun _ => rfl, rfl, hagain⟩
  case elem => rw [State.withBlock_blk, hb, elemOf_setElem_same]
  case order8 => rintro rfl; simpa only [canonAlpha_eight] using endpointOrder_eight.ordered _
  case order6 => rintro rfl; simpa only [canonAlpha_six] using endpointOrder_six.ordered _
  case swap8 => rintro ⟨rfl, h⟩; rw [canonAlpha_eight, orderEndpoints_of_lt h]; exact dxt5Remap_swap_fields inv8 _
  case equal8 =>
    rintro ⟨rfl, h⟩
    rw [canonAlpha_eight, orderEndpoints_of_eq (congrArg BitVec.toNat h)]
    exact dxt5SetAll_zero_fields _
  case swap6 => rintro ⟨rfl, h⟩; rw [canonAlpha_six, orderEndpoints_of_lt h]; exact dxt5Remap_swap_fields inv6 _
  case kept => rw [State.withBlock_blk, hb, canonAlpha_kept hkept, setElem_elemOf]
  case other => rw [State.withBlock_blk, hb, elemOf_setElem, if_neg (by decide)]

end Sys2Proof.Machine
end

section
/-! Family 45_flip.md: the in-block reflections FLIPX and FLIPY (R240 to R244). -/

namespace Sys2Proof.Machine

open Claims

/-! ### The fields of a reflected element (R241) -/

section Fields

variable (e : Elem) (p : Fin 16 → Fin 16) (i : Fin 16)

@[simp] theorem dxt1Sel_flipDxt1 : dxt1Sel (flipDxt1 e p) i = dxt1Sel e (p i) := dxt1Sel_setAll e _ i

@[simp] theorem dxt1Low_flipDxt1 : dxt1Low (flipDxt1 e p) = dxt1Low e := dxt1Low_setAll e _

@[simp] theorem dxt1High_flipDxt1 : dxt1High (flipDxt1 e p) = dxt1High e := dxt1High_setAll e _

@[simp] theorem dxt3A4_flipDxt3 : dxt3A4 (flipDxt3 e p) i = dxt3A4 e (p i) := dxt3A4_setAll e _ i

@[simp] theorem dxt5Sel_flipDxt5 : dxt5Sel (flipDxt5 e p) i = dxt5Sel e (p i) := dxt5Sel_setAll e _ i

@[simp] theorem dxt5Low_flipDxt5 : dxt5Low (flipDxt5 e p) = dxt5Low e := dxt5Low_setAll e _

@[simp] theorem dxt5High_flipDxt5 : dxt5High (flipDxt5 e p) = dxt5High e := dxt5High_setAll e _

end Fields

/-! ### The elements of a reflected block, by the role the format gives them (R24, R243) -/

/-- Every format but ETC1 can be reflected. -/
theorem exists_flipBlock {f : BlockFormat} (hf : f ≠ .etc1) (p : Fin 16 → Fin 16) (b : Block) : ∃ b', flipBlock f p b = some b' := by
  cases f with
  | etc1 => exact absurd rfl hf
  | _ => exact ⟨_, rfl⟩

section Elements

variable {f : BlockFormat} {p : Fin 16 → Fin 16} {b b' : Block} {k : Fin 2}

/-- The colour element is written last, so nothing after it can disturb it. -/
theorem elemOf_flipBlock_colour (h : flipBlock f p b = some b') (hk : colourElem f = some k) :
    elemOf b' k = flipDxt1 (elemOf b k) p := by
  cases f <;> cases hk <;> obtain rfl := Option.some.inj h <;> exact elemOf_setElem_same ..

theorem elemOf_flipBlock_alpha3 (h : flipBlock f p b = some b') (hk : alpha3Elem f = some k) :
    elemOf b' k = flipDxt3 (elemOf b k) p := by
  cases f <;> cases hk
  obtain rfl := Option.some.inj h
  rw [elemOf_setElem, if_neg (by decide), elemOf_setElem_same]

theorem elemOf_flipBlock_alpha5 (h : flipBlock f p b = some b') (hk : alpha5Elem f = some k) :
    elemOf b' k = flipDxt5 (elemOf b k) p := by
  cases f <;> cases hk <;> obtain rfl := Option.some.inj h
  case dxt5 => rw [elemOf_setElem, if_neg (by decide), elemOf_setElem_same]
  case dxt5a => exact elemOf_setElem_same ..

/-- A format of one element leaves element 1 alone. -/
theorem elemOf_flipBlock_unused (h : flipBlock f p b = some b') (hone : epb f = 1) : elemOf b' 1 = elemOf b 1 := by
  cases f with
  | dxt3 | dxt5 => cases hone
  | etc1 => cases h
  | _ =>
    obtain rfl := Option.some.inj h
    rw [elemOf_setElem, if_neg (by decide)]

end Elements

/-! ### The two commands (R242, R243, R244) -/

theorem effectOf_flipCommand (vertical : Bool) (s : State) :
    effectOf (flipCommand vertical) s = flipEffect (flipSource vertical) s := by
  cases vertical <;> rfl

theorem exec_flipCommand_of_not_validFormat {s : State} (hv : ¬ validFormat s) (vertical : Bool) :
    exec (flipCommand vertical) s = .next (failed cfgerrBit s) :=
  exec_eq_failed_cfgerr ((effectOf_flipCommand vertical s).trans (withFormat_of_not_validFormat hv _))

theorem exec_flipCommand_etc1 {s : State} (hf : s.fmt = formatCode .etc1) (vertical : Bool) :
    exec (flipCommand vertical) s = .next (failed geomBit s) :=
  exec_of_error (f := .geom) ((effectOf_flipCommand vertical s).trans (withFormat_formatCode hf _))

/-- A flip with a format that can be reflected, the block it leaves given a name. -/
theorem exec_flipCommand_of_format {s : State} {f : BlockFormat} (hf : s.fmt = formatCode f) (hne : f ≠ .etc1) (vertical : Bool) :
    ∃ b, exec (flipCommand vertical) s = .next (s.withBlock b) ∧ flipBlock f (flipSource vertical) s.blk = some b := by
  obtain ⟨b, hb⟩ := exists_flipBlock hne (flipSource vertical) s.blk
  refine ⟨b, exec_eq_withBlock_of_ok ?_, hb⟩
  rw [effectOf_flipCommand, flipEffect, withFormat_formatCode hf, hb]

/-- The element FMT gives a role is the one its format gives it. -/
theorem elem_of_bind_formatOf {s : State} {f : BlockFormat} {elem : BlockFormat → Option (Fin 2)} {k : Fin 2}
    (hf : s.fmt = formatCode f) (hk : (formatOf s.fmt).bind elem = some k) : elem f = some k := by
  rwa [hf, formatOf_formatCode] at hk

theorem epb_eq_one_of_fmt {s : State} {f : BlockFormat} (hf : s.fmt = formatCode f) (h : s.fmt.toNat ∈ [1, 2, 5]) : epb f = 1 := by
  rw [hf] at h
  revert h
  cases f <;> decide

/-- The colour element by the number in FMT. -/
theorem colourElem_eq_of_fmt {c : BitVec 3} {k : Fin 2} (h : c.toNat ∈ [1, 2] ∧ k = 0 ∨ c.toNat ∈ [3, 4] ∧ k = 1) :
    (formatOf c).bind colourElem = some k := by
  revert c k
  decide

/-- Settles O54: each role's element of the flipped block is the reflected element, whose fields R241 gives. -/
theorem flipsPermuteSelectors : Obligations.FlipsPermuteSelectors := by
  refine fun vertical s => ⟨fun hv => exec_flipCommand_of_not_validFormat hv vertical, fun h6 => ?_, fun h1 h5 => ?_⟩
  · exact exec_flipCommand_etc1 (BitVec.eq_of_toNat_eq h6) vertical
  obtain ⟨f, hf⟩ := validFormat_iff.mp ⟨h1, by omega⟩
  have hne : f ≠ .etc1 := by
    rintro rfl
    exact absurd (hf ▸ h5) (by decide)
  obtain ⟨b, hexec, hb⟩ := exec_flipCommand_of_format hf hne vertical
  refine ⟨_, hexec, fun _ => rfl, rfl, fun k hk => ?colour, fun h3 => ?alpha3, fun h45 => ?alpha5, fun hone => ?unused⟩ <;>
    rw [State.withBlock_blk]
  case colour =>
    rw [elemOf_flipBlock_colour hb (elem_of_bind_formatOf hf (colourElem_eq_of_fmt hk))]
    exact ⟨dxt1Low_flipDxt1 .., dxt1High_flipDxt1 .., fun i => dxt1Sel_flipDxt1 ..⟩
  case alpha3 =>
    rw [elemOf_flipBlock_alpha3 hb (elem_of_bind_formatOf hf (alpha3Elem_of_fmt h3))]
    exact fun i => dxt3A4_flipDxt3 ..
  case alpha5 =>
    rw [elemOf_flipBlock_alpha5 hb (elem_of_bind_formatOf hf (alpha5Elem_of_fmt h45))]
    exact ⟨dxt5Low_flipDxt5 .., dxt5High_flipDxt5 .., fun i => dxt5Sel_flipDxt5 ..⟩
  case unused => exact elemOf_flipBlock_unused hb (epb_eq_one_of_fmt hf hone)

end Sys2Proof.Machine
end

section
/-! Family 60_exceptions.md: no command stops the BCU (R250), failures change STATUS alone (R251), illegal words (R252), the causes of the
flags and their priority (R253, R255), and STATUS as a mere record (R257). -/

namespace Sys2Proof.Machine

open Claims

/-! ### Illegal words (R252) -/

theorem runWord_of_rejected {w : Word} {r : Reject} (h : decode w = .error r) (s : State) :
    runWord w s = .next (failed illBit s) := by
  rw [runWord, h]
  rfl

theorem step_presented {s : State} {w : Word} {rest : List HostEvent} (h : s.host = .command w :: rest) :
    step s = runWord w (s.afterEvent rest) := by
  rw [step, h]

/-- Settles O6: the decoder accepts encodings of legal commands only, so it rejects the word. -/
theorem illegalWordRaisesIll : Obligations.IllegalWordRaisesIll := by
  intro s w rest hs hw
  rw [step_presented hs]
  cases hd : decode w with
  | error r => exact runWord_of_rejected hd _
  | ok i =>
    obtain ⟨hwf, henc⟩ := decode_eq_ok_iff.mp hd
    exact absurd henc (hw i hwf)

/-! ### Every command and every step answers a next state (R250) -/

theorem exists_finishWrite_next (s : State) (r : Except Failure State) : ∃ t, finishWrite s r = .next t := by
  cases r with
  | ok u => exact ⟨_, succeed_eq u⟩
  | error f => exact ⟨_, fail_eq f s⟩

theorem exists_exec_next (i : Instr) (s : State) : ∃ t, exec i s = .next t := by
  rw [exec_eq]
  exact exists_finishWrite_next s (effectOf i s)

theorem exists_runWord_next (w : Word) (s : State) : ∃ t, runWord w s = .next t := by
  cases hd : decode w with
  | ok i => rw [runWord, hd]; exact exists_exec_next i s
  | error r => exact ⟨_, runWord_of_rejected hd s⟩

theorem exists_step_next (s : State) : ∃ t, step s = .next t := by
  match hs : s.host with
  | [] => exact ⟨_, step_idle hs⟩
  | .command w :: rest => rw [step_presented hs]; exact exists_runWord_next w _
  | .memWrite a b :: rest => exact ⟨_, step_memWrite hs⟩
  | .reset :: rest => exact ⟨applyReset (s.afterEvent rest), by rw [step, hs]⟩

/-- Settles O9: a command is its effect finished, and each host event leaves a next state. -/
theorem nothingStopsTheUnit : Obligations.NothingStopsTheUnit := ⟨exists_exec_next, exists_step_next⟩

/-! ### A failed command (R251) -/

theorem setStatus_raiseFlag (f : Failure) (s : State) : s.setStatus (raiseFlag f s.status) = failed (failureBit f) s := rfl

/-- Settles O12: a success sets OK, so OK = 0 means one of the three failures. -/
theorem failedCommandChangesOnlyStatus : Obligations.FailedCommandChangesOnlyStatus := by
  intro i s t h hok
  obtain ⟨u, -, rfl⟩ | ⟨f, -, rfl⟩ := exec_cases h
  · exact absurd ((statusOk_setOk u.status).symm.trans hok) (by decide)
  · rw [setStatus_raiseFlag]
    cases f with
    | ill => exact .inl rfl
    | cfgerr => exact .inr (.inl rfl)
    | geom => exact .inr (.inr rfl)

/-! ### The failure of a command, by its causes (R253) -/

/-- The cause of each failure: ILL by the command term alone, CFGERR and GEOM as R253 tables them. -/
def failureCause (i : Instr) (s : State) : Failure → Prop
  | .ill => i.wellFormed = false
  | .cfgerr => cfgerrCause i s
  | .geom => geomCause i s

section Causes

variable {i : Instr} {s : State} {l : List Nat}

/-- For a command that needs a format, R253's cause of CFGERR is a format it does not accept. -/
theorem cfgerrCause_iff_of_accepted (hl : acceptedFormats i = some l) : cfgerrCause i s ↔ s.fmt.toNat ∉ l := by
  constructor
  · rintro (⟨l', hl', hf⟩ | ⟨v, rfl, -⟩ | ⟨c, v, rfl, -⟩)
    · rwa [Option.some.inj (hl.symm.trans hl')]
    · cases hl
    · cases hl
  · exact fun hf => .inl ⟨l, hl, hf⟩

/-- A legal command that needs a format and is no flip fails only with CFGERR, for its format. -/
theorem failureCause_iff_of_accepted (hl : acceptedFormats i = some l) (hw : i.wellFormed = true) (hx : i ≠ .flipx) (hy : i ≠ .flipy)
    {e : Failure} : failureCause i s e ↔ e = .cfgerr ∧ s.fmt.toNat ∉ l := by
  cases e with
  | ill => simp [failureCause, hw]
  | cfgerr => simp [failureCause, cfgerrCause_iff_of_accepted hl]
  | geom => simp [failureCause, geomCause, hx, hy]

/-- A command that needs no format, other than WRCR, fails only as a term no word stands for. -/
theorem failureCause_iff_of_no_format (hl : acceptedFormats i = none) (hw : ∀ cr v, i ≠ .wrcr cr v) {e : Failure} :
    failureCause i s e ↔ e = .ill ∧ i.wellFormed = false := by
  have hx : i ≠ .flipx := by rintro rfl; cases hl
  have hy : i ≠ .flipy := by rintro rfl; cases hl
  cases e with
  | ill => simp [failureCause]
  | cfgerr => simp [failureCause, cfgerrCause, hl, hw]
  | geom => simp [failureCause, geomCause, hx, hy]

theorem failureCause_flip_iff (hi : i = .flipx ∨ i = .flipy) {e : Failure} :
    failureCause i s e ↔ (e = .cfgerr ∧ s.fmt.toNat ∉ [1, 2, 3, 4, 5, 6]) ∨ (e = .geom ∧ s.fmt.toNat = 6) := by
  have hl : acceptedFormats i = some [1, 2, 3, 4, 5, 6] := by obtain rfl | rfl := hi <;> rfl
  have hw : i.wellFormed = true := by obtain rfl | rfl := hi <;> rfl
  cases e with
  | ill => simp [failureCause, hw]
  | cfgerr => simp [failureCause, cfgerrCause_iff_of_accepted hl]
  | geom => simp [failureCause, geomCause, hi]

theorem failureCause_wrcr_iff {cr : CtrlReg} {v : BitVec 16} {e : Failure} :
    failureCause (.wrcr cr v) s e ↔ (e = .ill ∧ cr.writable = false) ∨
      (e = .cfgerr ∧ (cr = .fmt ∧ 6 < v.toNat ∨ ∃ c, cr = .pkSize c ∧ 32 < v.toNat)) := by
  cases e with
  | ill => simp [failureCause, Instr.wellFormed]
  | cfgerr => simp [failureCause, cfgerrCause, acceptedFormats]
  | geom => simp [failureCause, geomCause]

end Causes

theorem formatOf_eq_none_iff : ∀ {c : BitVec 3}, formatOf c = none ↔ c.toNat ∉ [1, 2, 3, 4, 5, 6] := by
  decide

theorem bind_colourElem_eq_none_iff : ∀ {c : BitVec 3}, (formatOf c).bind colourElem = none ↔ c.toNat ∉ [1, 2, 3, 4] := by
  decide

theorem bind_alpha5Elem_eq_none_iff : ∀ {c : BitVec 3}, (formatOf c).bind alpha5Elem = none ↔ c.toNat ∉ [4, 5] := by
  decide

theorem bind_alpha3Elem_eq_none_iff : ∀ {c : BitVec 3}, (formatOf c).bind alpha3Elem = none ↔ c.toNat ∉ [3] := by
  decide

section Errors

variable {s : State} {e : Failure}

theorem withFormat_eq_error_iff {g : BlockFormat → Except Failure State} :
    withFormat s g = .error e ↔
      (e = .cfgerr ∧ s.fmt.toNat ∉ [1, 2, 3, 4, 5, 6]) ∨ ∃ f, s.fmt = formatCode f ∧ g f = .error e := by
  simp only [← formatOf_eq_none_iff, ← formatOf_eq_some_iff, withFormat]
  cases formatOf s.fmt <;> simp [eq_comm]

/-- A command that cannot fail once it has a format. -/
theorem withFormat_ok_eq_error_iff {u : BlockFormat → State} :
    (withFormat s fun f => .ok (u f)) = .error e ↔ e = .cfgerr ∧ s.fmt.toNat ∉ [1, 2, 3, 4, 5, 6] := by
  simp [withFormat_eq_error_iff]

theorem withElement_eq_error_iff {elem : BlockFormat → Option (Fin 2)} {g : Fin 2 → Elem → Elem} :
    withElement s elem g = .error e ↔ e = .cfgerr ∧ (formatOf s.fmt).bind elem = none := by
  rw [withElement]
  cases (formatOf s.fmt).bind elem <;> simp [eq_comm]

theorem withRange_eq_error_iff {first : Fin 16} {cnt : Fin 32} :
    withRange first cnt s = .error e ↔ e = .ill ∧ pixelRangeLegal first cnt = false := by
  rw [withRange]
  cases pixelRangeLegal first cnt <;> simp [eq_comm]

/-- SELC encodes a colour element or an ETC1 block; DXT5A has neither (R208). -/
theorem selcEffect_eq_error_iff {f : BlockFormat} : selcEffect s f = .error e ↔ f = .dxt5a ∧ e = .cfgerr := by
  cases f <;> simp [selcEffect, eq_comm]

theorem effectOf_selc_eq_error_iff : effectOf .selc s = .error e ↔ e = .cfgerr ∧ s.fmt.toNat ∉ [1, 2, 3, 4, 6] := by
  have hfmt : ∀ c : BitVec 3, c.toNat ∉ [1, 2, 3, 4, 5, 6] ∨ c = formatCode .dxt5a ↔ c.toNat ∉ [1, 2, 3, 4, 6] := by decide
  rw [← hfmt, effectOf, withFormat_eq_error_iff]
  simp [selcEffect_eq_error_iff, and_or_left, and_comm]

theorem effectOf_sela_eq_error_iff : effectOf .sela s = .error e ↔ e = .cfgerr ∧ s.fmt.toNat ∉ [4, 5] := by
  simp only [← bind_alpha5Elem_eq_none_iff, effectOf]
  cases (formatOf s.fmt).bind alpha5Elem <;> simp [eq_comm]

theorem flipBlock_eq_none_iff {f : BlockFormat} {p : Fin 16 → Fin 16} {b : Block} : flipBlock f p b = none ↔ f = .etc1 := by
  cases f <;> simp [flipBlock]

/-- A flip fails with CFGERR without a format, and with GEOM on ETC1 (R242 to R244). -/
theorem flipEffect_eq_error_iff {p : Fin 16 → Fin 16} :
    flipEffect p s = .error e ↔ (e = .cfgerr ∧ s.fmt.toNat ∉ [1, 2, 3, 4, 5, 6]) ∨ (e = .geom ∧ s.fmt.toNat = 6) := by
  have hsix : s.fmt.toNat = 6 ↔ s.fmt = formatCode .etc1 := ⟨fun h => BitVec.eq_of_toNat_eq h, fun h => h ▸ rfl⟩
  rw [flipEffect, withFormat_eq_error_iff, hsix]
  refine or_congr_right ⟨?_, ?_⟩
  · rintro ⟨f, hf, he⟩
    cases hb : flipBlock f p s.blk with
    | none =>
      rw [hb] at he
      obtain rfl := flipBlock_eq_none_iff.mp hb
      exact ⟨(Except.error.inj he).symm, hf⟩
    | some b => rw [hb] at he; cases he
  · rintro ⟨rfl, hf⟩
    exact ⟨.etc1, hf, rfl⟩

/-- A register write with an upper bound on its value. -/
theorem bounded_eq_error_iff {n : Nat} {v : BitVec 16} :
    (if n < v.toNat then .error .cfgerr else .ok s : Except Failure State) = .error e ↔ e = .cfgerr ∧ n < v.toNat := by
  split <;> simp [*, eq_comm]

/-- WRCR fails with ILL on a read-only register, with CFGERR on a value its register cannot hold (R111). -/
theorem writeCtrl_eq_error_iff {cr : CtrlReg} {v : BitVec 16} :
    writeCtrl cr v s = .error e ↔ failureCause (.wrcr cr v) s e := by
  rw [failureCause_wrcr_iff]
  cases cr with
  | fmt | pkSize => rw [writeCtrl, bounded_eq_error_iff]; simp [CtrlReg.writable]
  | status | err => simp [writeCtrl, CtrlReg.writable, eq_comm]
  | ctrl | bptr | pptr | pkStride | pkOfs => simp [writeCtrl, CtrlReg.writable]

theorem writeCtrlUpper_eq_error_iff {cr : CtrlReg} {v : BitVec 16} :
    writeCtrlUpper cr v s = .error e ↔ e = .ill ∧ cr.hasUpperHalf = false := by
  cases cr <;> simp [writeCtrlUpper, CtrlReg.hasUpperHalf, eq_comm]

/-- R253 for every command and every state: a command fails with `e` exactly when the cause of `e` holds. -/
theorem effectOf_eq_error_iff (i : Instr) : effectOf i s = .error e ↔ failureCause i s e := by
  cases i with
  | nop | rdcr | clrst => rw [failureCause_iff_of_no_format rfl (by simp)]; simp [effectOf, Instr.wellFormed]
  | wrcr => exact writeCtrl_eq_error_iff
  | wrcrh => rw [failureCause_iff_of_no_format rfl (by simp)]; exact writeCtrlUpper_eq_error_iff
  | unpk | pack => rw [failureCause_iff_of_no_format rfl (by simp)]; exact withRange_eq_error_iff
  | ldblk | stblk | dec | decpx | setpx =>
    rw [failureCause_iff_of_accepted rfl rfl (by simp) (by simp)]; exact withFormat_ok_eq_error_iff
  | qnt | canon =>
    rw [failureCause_iff_of_accepted rfl rfl (by simp) (by simp), ← bind_colourElem_eq_none_iff]; exact withElement_eq_error_iff
  | setea | canona =>
    rw [failureCause_iff_of_accepted rfl rfl (by simp) (by simp), ← bind_alpha5Elem_eq_none_iff]; exact withElement_eq_error_iff
  | enca3 =>
    rw [failureCause_iff_of_accepted rfl rfl (by simp) (by simp), ← bind_alpha3Elem_eq_none_iff, effectOf]
    exact withElement_eq_error_iff
  | selc => rw [failureCause_iff_of_accepted rfl rfl (by simp) (by simp)]; exact effectOf_selc_eq_error_iff
  | sela => rw [failureCause_iff_of_accepted rfl rfl (by simp) (by simp)]; exact effectOf_sela_eq_error_iff
  | flipx => rw [failureCause_flip_iff (.inl rfl)]; exact flipEffect_eq_error_iff
  | flipy => rw [failureCause_flip_iff (.inr rfl)]; exact flipEffect_eq_error_iff

end Errors

/-! ### What a command does with STATUS (R257) -/

/-- The STATUS a successful command leaves before it sets OK, when it finds `st`: CLRST clears flags, a decode of an invalid ETC1 block
sets INVBLK, and no other command touches it. -/
def statusBeforeOk (i : Instr) (s : State) (st : BitVec 5) : BitVec 5 :=
  match i with
  | .clrst m => clearSticky m st
  | .dec | .decpx _ => if s.fmt.toNat = 6 ∧ etc1Invalid (elemOf s.blk 0) = true then setInvblk st else st
  | _ => st

section Status

variable (s : State) (st : BitVec 5)

theorem noteInvalid_eq_setStatus {f : BlockFormat} (hf : s.fmt = formatCode f) :
    noteInvalid f s = s.setStatus (statusBeforeOk .dec s s.status) := by
  have hsix : s.fmt.toNat = 6 ↔ f = .etc1 := hf ▸ formatCode_eq_six_iff
  simp only [noteInvalid, statusBeforeOk, hsix]
  split <;> rfl

theorem noteInvalid_setPix_setStatus {f : BlockFormat} (hf : s.fmt = formatCode f) (v : Pixels) :
    noteInvalid f ((s.setStatus st).setPix v) = (noteInvalid f (s.setPix v)).setStatus (statusBeforeOk .dec s st) := by
  rw [noteInvalid_setStatus]
  exact noteInvalid_eq_setStatus ((s.setStatus st).setPix v) hf

/-- A command that needs a format finds the same one whatever STATUS holds. -/
theorem withFormat_setStatus (st' : BitVec 5) {g g' : BlockFormat → Except Failure State}
    (h : ∀ f, s.fmt = formatCode f → g' f = (g f).map (·.setStatus st')) :
    withFormat (s.setStatus st) g' = (withFormat s g).map (·.setStatus st') := by
  simp only [withFormat, State.setStatus_fields]
  cases hf : formatOf s.fmt with
  | none => rfl
  | some f => exact h f (formatOf_eq_some_iff.mp hf)

theorem withElement_setStatus (elem : BlockFormat → Option (Fin 2)) (g : Fin 2 → Elem → Elem) :
    withElement (s.setStatus st) elem g = (withElement s elem g).map (·.setStatus st) := by
  simp only [withElement, State.setStatus_fields]
  cases (formatOf s.fmt).bind elem <;> rfl

theorem withRange_setStatus (first : Fin 16) (cnt : Fin 32) :
    withRange first cnt (s.setStatus st) = (withRange first cnt s).map (·.setStatus st) := by
  simp only [withRange]
  split <;> rfl

theorem flipEffect_setStatus (p : Fin 16 → Fin 16) : flipEffect p (s.setStatus st) = (flipEffect p s).map (·.setStatus st) := by
  refine withFormat_setStatus s st st fun f _ => ?_
  simp only [State.setStatus_fields]
  cases flipBlock f p s.blk <;> rfl

theorem readCtrl_setStatus {cr : CtrlReg} (h : cr ≠ .status) : readCtrl cr (s.setStatus st) = readCtrl cr s := by
  cases cr with
  | status => exact absurd rfl h
  | _ => rfl

theorem writeCtrl_setStatus (cr : CtrlReg) (v : BitVec 16) :
    writeCtrl cr v (s.setStatus st) = (writeCtrl cr v s).map (·.setStatus st) := by
  cases cr with
  | fmt | pkSize => simp only [writeCtrl]; split <;> rfl
  | _ => rfl

theorem writeCtrlUpper_setStatus (cr : CtrlReg) (v : BitVec 16) :
    writeCtrlUpper cr v (s.setStatus st) = (writeCtrlUpper cr v s).map (·.setStatus st) := by
  cases cr <;> rfl

/-- Another STATUS before a command changes neither whether it fails nor what it writes outside STATUS. RDCR STATUS is left out: it copies
STATUS to RESP. -/
theorem effectOf_setStatus {i : Instr} (hi : i ≠ .rdcr .status) :
    effectOf i (s.setStatus st) = (effectOf i s).map (·.setStatus (statusBeforeOk i s st)) := by
  cases i with
  | nop | clrst => rfl
  | rdcr cr =>
    have hr : readCtrl cr (s.setStatus st) = readCtrl cr s := readCtrl_setStatus s st fun h => hi (h ▸ rfl)
    rw [effectOf, hr]; rfl
  | wrcr cr v => exact writeCtrl_setStatus s st cr v
  | wrcrh cr v => exact writeCtrlUpper_setStatus s st cr v
  | unpk first cnt => exact withRange_setStatus ((s.setPix (unpackPixels s first cnt)).setPptr (packedAddr s cnt)) st first cnt
  | pack first cnt => exact withRange_setStatus ((s.setMem (packPixels s first cnt)).setPptr (packedAddr s cnt)) st first cnt
  | ldblk | stblk | setpx => exact withFormat_setStatus s st st fun _ _ => rfl
  | dec => exact withFormat_setStatus s st _ fun f hf => congrArg Except.ok (noteInvalid_setPix_setStatus s st hf _)
  | decpx n => exact withFormat_setStatus s st _ fun f hf => congrArg Except.ok (noteInvalid_setPix_setStatus s st hf _)
  | qnt | canon | setea | canona => exact withElement_setStatus s st _ _
  | enca3 => rw [effectOf]; exact withElement_setStatus s st _ _
  | selc => exact withFormat_setStatus s st st fun f _ => by cases f <;> rfl
  | sela =>
    simp only [effectOf, State.setStatus_fields]
    cases (formatOf s.fmt).bind alpha5Elem <;> rfl
  | flipx | flipy => exact flipEffect_setStatus s st _

end Status

theorem statusOk_raiseFlag (f : Failure) (st : BitVec 5) : statusOk (raiseFlag f st) = false := by
  obtain ⟨hok, -⟩ := status_raise f st
  exact hok

/-- Settles O15: another STATUS before the command gives the same failure, or the same state with another STATUS. -/
theorem statusNeverSteersACommand : Obligations.StatusNeverSteersACommand := by
  intro i s t t' st hi h h'
  have hst : effectOf i { s with status := st } = (effectOf i s).map (·.setStatus (statusBeforeOk i s st)) :=
    effectOf_setStatus s st hi
  obtain ⟨u, hu, rfl⟩ | ⟨f, hf, rfl⟩ := exec_cases h
  · rw [hu] at hst
    rw [exec_of_ok hst] at h'
    obtain rfl := Host.Outcome.next.inj h'
    exact ⟨rfl, (statusOk_setOk _).trans (statusOk_setOk _).symm⟩
  · rw [hf] at hst
    rw [exec_of_error hst] at h'
    obtain rfl := Host.Outcome.next.inj h'
    exact ⟨rfl, (statusOk_raiseFlag f _).trans (statusOk_raiseFlag f _).symm⟩

/-! ### The flags after a command, by their causes (R253) -/

theorem setStatus_status (s : State) : s.setStatus s.status = s := rfl

theorem status_of_effectOf {i : Instr} {s u : State} (h : effectOf i s = .ok u) : u.status = statusBeforeOk i s s.status := by
  by_cases hi : i = .rdcr .status
  · subst hi
    cases h
    rfl
  · have hu := effectOf_setStatus s s.status hi
    rw [setStatus_status, h] at hu
    exact congrArg State.status (Except.ok.inj hu)

theorem statusBeforeOk_cases {i : Instr} (hi : ∀ m, i ≠ .clrst m) (s : State) (st : BitVec 5) :
    (statusBeforeOk i s st = setInvblk st ∧ invblkCause i s) ∨ (statusBeforeOk i s st = st ∧ ¬ invblkCause i s) := by
  cases i with
  | clrst m => exact absurd rfl (hi m)
  | dec | decpx =>
    by_cases h : s.fmt.toNat = 6 ∧ etc1Invalid (elemOf s.blk 0) = true
    · exact .inl ⟨if_pos h, by simpa [invblkCause] using h⟩
    · exact .inr ⟨if_neg h, by simpa [invblkCause] using h⟩
  | _ => exact .inr ⟨rfl, by simp [invblkCause]⟩

/-- A command that fails raises one failure, so the cause of no other holds. -/
theorem failureCause_iff_of_error {i : Instr} {s : State} {f : Failure} (h : effectOf i s = .error f) {e : Failure} :
    failureCause i s e ↔ f = e := by
  rw [← effectOf_eq_error_iff, h, Except.error.injEq]

theorem not_failureCause_of_ok {i : Instr} {s u : State} (h : effectOf i s = .ok u) (e : Failure) : ¬ failureCause i s e := by
  rw [← effectOf_eq_error_iff, h]
  exact nofun

/-- CLRST only takes bits away from STATUS before it sets OK (R115). -/
theorem clrst_sets_no_flag {m : BitVec 4} {s t : State} (h : exec (.clrst m) s = .next t) :
    statusOk t.status = true ∧ ∀ k : Nat, 1 ≤ k → t.status.getLsbD k = true → s.status.getLsbD k = true := by
  rw [exec_of_ok (u := s.setStatus (clearSticky m s.status)) rfl] at h
  obtain rfl := Host.Outcome.next.inj h
  refine ⟨statusOk_setOk _, fun k hk hbit => ?_⟩
  have hcleared : (clearSticky m s.status).getLsbD k = true := (getLsbD_setOk hk _).symm.trans hbit
  rw [clearSticky, BitVec.getLsbD_and] at hcleared
  exact Bool.and_elim_left hcleared

/-- A decode with an ETC1 block, invalid or not, has its format: INVBLK is no failure (R255). -/
theorem not_failureCause_of_invblkCause {i : Instr} {s : State} (h : invblkCause i s) (e : Failure) : ¬ failureCause i s e := by
  obtain ⟨hi, h6, -⟩ := h
  obtain rfl | ⟨n, rfl⟩ := hi <;> rw [failureCause_iff_of_accepted rfl rfl (by simp) (by simp), h6] <;> simp

/-- Settles O13: after a success no cause of a failure holds, and STATUS is `statusBeforeOk` with OK set; after a failure exactly its own
cause holds. -/
theorem flagsAreSetByTheirCauses : Obligations.FlagsAreSetByTheirCauses := by
  refine ⟨fun w r s hd => runWord_of_rejected hd s, fun m s t h => clrst_sets_no_flag h, fun i s t hw hi h => ?_⟩
  obtain ⟨u, hu, rfl⟩ | ⟨f, hf, rfl⟩ := exec_cases h
  · have hcfg : ¬ cfgerrCause i s := not_failureCause_of_ok hu .cfgerr
    have hgeom : ¬ geomCause i s := not_failureCause_of_ok hu .geom
    rw [status_of_effectOf hu]
    obtain ⟨hst, hinv⟩ | ⟨hst, hinv⟩ := statusBeforeOk_cases hi s s.status <;>
      simp [hst, status_ops, hcfg, hgeom, hinv]
  · have hcause : ∀ e, failureCause i s e ↔ f = e := fun e => failureCause_iff_of_error hf
    have hinv : ¬ invblkCause i s := fun h => not_failureCause_of_invblkCause h f ((hcause f).mpr rfl)
    have hcfg : cfgerrCause i s ↔ f = .cfgerr := hcause .cfgerr
    have hgeom : geomCause i s ↔ f = .geom := hcause .geom
    cases f with
    | ill => exact absurd (hw.symm.trans ((hcause .ill).mpr rfl)) (by decide)
    | cfgerr | geom => simp [status_raise, hcfg, hgeom, hinv]

/-! ### The priority of the failures (R255) -/

theorem exec_of_format_not_accepted {i : Instr} {s : State} {l : List Nat} (hl : acceptedFormats i = some l)
    (hf : s.fmt.toNat ∉ l) : exec i s = .next (failed cfgerrBit s) :=
  exec_eq_failed_cfgerr ((effectOf_eq_error_iff i).mpr ((cfgerrCause_iff_of_accepted hl).mpr hf))

theorem decodeStatus_of_invalid {s : State} (hf : s.fmt = 6) (h : etc1Invalid (elemOf s.blk 0) = true) :
    statusOk (decodeStatus s) = true ∧ statusInvblk (decodeStatus s) = true := by
  have hbits : ∀ st : BitVec 5, statusOk (st ||| 0b01001) = true ∧ statusInvblk (st ||| 0b01001) = true := by decide
  rw [decodeStatus, if_pos ⟨by rw [hf]; rfl, h⟩]
  exact hbits s.status

/-- Settles O14: ILL by the word alone, CFGERR by the format alone, GEOM and INVBLK by what ETC1 then does. -/
theorem failurePriority : Obligations.FailurePriority := by
  refine ⟨fun s v => runWord_wrcr_of_not_writable (by decide) v s, fun w r hd s => ⟨_, runWord_of_rejected hd s, ?ill⟩, ?none,
    fun i s l => exec_of_format_not_accepted, fun s hs => ?geom, fun s hs hinv => ?invblk⟩
  case ill =>
    obtain ⟨-, hill, -⟩ := status_raise .ill s.status
    exact hill.trans (Bool.or_true _)
  case none =>
    intro s hs
    have hf : s.fmt.toNat ∉ [1, 2, 3, 4, 5, 6] := by rw [hs]; decide
    exact ⟨exec_of_format_not_accepted rfl hf, exec_of_format_not_accepted rfl hf⟩
  case geom => exact ⟨exec_flipCommand_etc1 hs false, exec_flipCommand_etc1 hs true⟩
  case invblk =>
    obtain ⟨hok, hbit⟩ := decodeStatus_of_invalid hs hinv
    exact ⟨⟨_, exec_dec_of_format (f := .etc1) hs, hok, hbit⟩, fun n => ⟨_, exec_decpx_of_format (f := .etc1) hs n, hok, hbit⟩⟩

end Sys2Proof.Machine
end

section
/-! Family 70_reset_and_hazards.md and others: reset (R270, R271), canonical memory (20_memory.md) and pack conversion (R135). -/

namespace Sys2Proof.Machine

open Claims

/-! ### Reset (R270, R271) -/

theorem readCtrl_reset (cr : CtrlReg) : readCtrl cr State.reset = 0 := by
  cases cr with
  | pkSize c | pkOfs c => fin_cases c <;> rfl
  | _ => rfl

/-- A reset inside a run leaves the control registers as they are at launch. -/
theorem readCtrl_applyReset (cr : CtrlReg) (s : State) : readCtrl cr (applyReset s) = readCtrl cr State.reset := by
  cases cr <;> rfl

theorem step_reset {s : State} {rest : List HostEvent} (h : s.host = .reset :: rest) :
    step s = .next (applyReset (s.afterEvent rest)) := by
  rw [step, h]

/-- Settles O8: the launch state register by register, a reset event by its launch registers and its memory. -/
theorem resetClearsControlRegisters : Obligations.ResetClearsControlRegisters :=
  ⟨readCtrl_reset, fun _ _ h =>
    ⟨_, step_reset h, fun cr => (readCtrl_applyReset cr _).trans (readCtrl_reset cr), fun _ => rfl, rfl, rfl⟩⟩

/-- Settles O11: every register that legality looks at is 0 at launch, and no byte of memory is listed. -/
theorem resetStateIsLegal : Obligations.ResetStateIsLegal where
  fmt_legal := Nat.zero_le _
  ctrl_reserved := BitVec.zero_and
  size_legal c := by fin_cases c <;> exact Nat.zero_le _
  err_bound := Nat.zero_le _
  mem_canonical := Memory.wf_nil

/-! ### Canonical memory is determined by its reads (20_memory.md section 1) -/

theorem Memory.readAt_head (k : Nat) (c : Byte) (m : Memory) : Memory.readAt ((k, c) :: m) k = c := if_pos rfl

theorem Memory.readAt_tail {k a : Nat} (h : k ≠ a) (c : Byte) (m : Memory) :
    Memory.readAt ((k, c) :: m) a = Memory.readAt m a := if_neg h

/-- Up to the first key, the rest of a canonical memory lists nothing, so two rests agree there whatever they list. -/
theorem Memory.readAt_tails_agree {k : Nat} {c : Byte} {m m' : Memory} (hm : Memory.wfFrom (k + 1) m = true)
    (hm' : Memory.wfFrom (k + 1) m' = true)
    (h : ∀ a, a < 2 ^ 32 → Memory.readAt ((k, c) :: m) a = Memory.readAt ((k, c) :: m') a) {a : Nat} (ha : a < 2 ^ 32) :
    Memory.readAt m a = Memory.readAt m' a := by
  by_cases hk : k = a
  · rw [Memory.readAt_below hm (by omega), Memory.readAt_below hm' (by omega)]
  · rw [← Memory.readAt_tail hk c m, h a ha, Memory.readAt_tail hk]

/-- A canonical memory reads its first listed byte at its first key; a memory listing nothing up to there reads another byte. -/
theorem Memory.exists_readAt_ne {lo k : Nat} {c : Byte} {m m' : Memory} (hm : Memory.wfFrom lo ((k, c) :: m) = true)
    (hm' : Memory.wfFrom (k + 1) m' = true) : ∃ a, a < 2 ^ 32 ∧ Memory.readAt ((k, c) :: m) a ≠ Memory.readAt m' a := by
  obtain ⟨-, hk, hc, -⟩ := Memory.wfFrom_cons.mp hm
  exact ⟨k, hk, by rwa [Memory.readAt_head, Memory.readAt_below hm' (Nat.lt_succ_self k)]⟩

/-- The first key and its byte are the least address that does not read as an unlisted one, and what it reads; the rest by induction. -/
theorem Memory.eq_of_readAt_eq {lo : Nat} {m m' : Memory} (hm : Memory.wfFrom lo m = true) (hm' : Memory.wfFrom lo m' = true)
    (h : ∀ a, a < 2 ^ 32 → Memory.readAt m a = Memory.readAt m' a) : m = m' := by
  induction m generalizing lo m' with
  | nil =>
    cases m' with
    | nil => rfl
    | cons x m' =>
      obtain ⟨a, ha, hne⟩ := Memory.exists_readAt_ne (m' := []) hm' rfl
      exact absurd (h a ha).symm hne
  | cons x m ih =>
    obtain ⟨k, c⟩ := x
    cases m' with
    | nil =>
      obtain ⟨a, ha, hne⟩ := Memory.exists_readAt_ne (m' := []) hm rfl
      exact absurd (h a ha) hne
    | cons y m' =>
      obtain ⟨k', c'⟩ := y
      obtain ⟨hlo, hk, hc, hrest⟩ := Memory.wfFrom_cons.mp hm
      obtain ⟨hlo', hk', hc', hrest'⟩ := Memory.wfFrom_cons.mp hm'
      rcases Nat.lt_trichotomy k k' with hlt | rfl | hlt
      · obtain ⟨a, ha, hne⟩ := Memory.exists_readAt_ne hm (Memory.wfFrom_cons.mpr ⟨hlt, hk', hc', hrest'⟩)
        exact absurd (h a ha) hne
      · have hcc := h k hk
        rw [Memory.readAt_head, Memory.readAt_head] at hcc
        subst hcc
        rw [ih hrest hrest' fun a ha => Memory.readAt_tails_agree hrest hrest' h ha]
      · obtain ⟨a, ha, hne⟩ := Memory.exists_readAt_ne hm' (Memory.wfFrom_cons.mpr ⟨hlt, hk, hc, hrest⟩)
        exact absurd (h a ha).symm hne

/-- Settles O26: a read at an address is a read at its number, and every key of a canonical memory is the number of an address. -/
theorem canonicalMemoryIsItsReads : Obligations.CanonicalMemoryIsItsReads :=
  fun _ _ hm hm' h => Memory.eq_of_readAt_eq hm hm' fun a ha => by
    have hread := h (BitVec.ofNat 32 a)
    rwa [Memory.read, Memory.read, BitVec.toNat_ofNat, Nat.mod_eq_of_lt ha] at hread

/-! ### From 8 bits to a packed component (R135) -/

theorem pkFrom8_rescale (v : Byte) (s : Nat) : pkFrom8 true v s = rescale v.toNat 255 (pkMax s) := rfl

theorem pkFrom8_saturate (v : Byte) (s : Nat) : pkFrom8 false v s = min v.toNat (pkMax s) := rfl

theorem pkFrom8_le (resc : Bool) (v : Byte) (s : Nat) : pkFrom8 resc v s ≤ pkMax s := by
  cases resc with
  | true => exact rescale_le (by decide) (Nat.le_of_lt_succ v.isLt)
  | false => exact Nat.min_le_right ..

/-- At 8 bits neither conversion changes the number. -/
theorem pkFrom8_eight (resc : Bool) (v : Byte) : pkFrom8 resc v 8 = v.toNat := by
  have hv := v.isLt
  have hmax : pkMax 8 = 255 := rfl
  cases resc with
  | true => rw [pkFrom8_rescale, hmax, rescale]; omega
  | false => rw [pkFrom8_saturate, hmax]; omega

/-- Rescaling into a range no smaller and back restores a number: the first rounding moves it by at most half a step of the finer range. -/
theorem rescale_rescale_255 (n : Nat) {m : Nat} (h1 : 1 ≤ m) (hm : m ≤ 255) : rescale (rescale n m 255) 255 m = n := by
  have hdiv := Nat.div_add_mod (n * 255 + m / 2) m
  have hmod := Nat.mod_lt (n * 255 + m / 2) h1
  rw [rescale, rescale, Nat.mul_comm _ m]
  generalize m * ((n * 255 + m / 2) / m) = y at hdiv ⊢
  omega

/-- Settles O30: both conversions by their formulas; at most 8 bits unpack into a byte's range, which is no smaller. -/
theorem packConversion : Obligations.PackConversion := by
  refine fun s h1 _ => ⟨fun v => ⟨rfl, rfl, fun resc => pkFrom8_le resc v s, ?_⟩, fun h8 n hn => ?_⟩
  · rintro rfl resc
    exact pkFrom8_eight resc v
  · have hlow : 2 ^ 1 ≤ 2 ^ s := Nat.pow_le_pow_right (by decide) h1
    have hhigh : 2 ^ s ≤ 2 ^ 8 := Nat.pow_le_pow_right (by decide) h8
    rw [pkFrom8_rescale, toNat_pkTo8_rescale h1 hn]
    exact rescale_rescale_255 n (by unfold pkMax; omega) (by unfold pkMax; omega)

end Sys2Proof.Machine
end

section
/-! The inferences 44_encode.md draws: the inversion tables (R215, R216, R218), what CANON 0 (R217) and a block of one colour (R220) decode
to, and SETPX for all sixteen pixels (R214). -/

namespace Sys2Proof.Machine

open Claims

/-! ### The inversion tables (R215, R216, R218) -/

/-- A blend of exchanged components is the blend with exchanged weights. -/
theorem blend_swap (wx wy d : Nat) (x y : Byte) : blend wx wy d y x = blend wy wx d x y := by
  rw [blend, Nat.add_comm, blend]

theorem blendPixel_swap (wx wy d : Nat) (p q : Pixel) : blendPixel wx wy d q p = blendPixel wy wx d p q := by
  simp only [blendPixel, blend_swap wx wy d p.r, blend_swap wx wy d p.g, blend_swap wx wy d p.b]

section ColourTables

variable (l h : BitVec 16) (v : BitVec 2)

theorem fourColourTable_swap : (fourColourTable h l)[(inv4 v).toFin] = (fourColourTable l h)[v.toFin] := by
  simp only [fourColourTable, blendPixel_swap _ _ _ (unpack565 l) (unpack565 h)]
  obtain ⟨v⟩ := v
  fin_cases v <;> rfl

theorem threeColourTable_swap : (threeColourTable h l)[(inv3 v).toFin] = (threeColourTable l h)[v.toFin] := by
  simp only [threeColourTable, blendPixel_swap _ _ _ (unpack565 l) (unpack565 h)]
  obtain ⟨v⟩ := v
  fin_cases v <;> rfl

end ColourTables

section AlphaTables

variable (l h : Byte) (v : BitVec 3)

theorem eightLevelTable_swap : (eightLevelTable h l)[(inv8 v).toFin] = (eightLevelTable l h)[v.toFin] := by
  simp only [eightLevelTable, blend_swap _ _ _ l h]
  obtain ⟨v⟩ := v
  fin_cases v <;> rfl

theorem sixLevelTable_swap : (sixLevelTable h l)[(inv6 v).toFin] = (sixLevelTable l h)[v.toFin] := by
  simp only [sixLevelTable, blend_swap _ _ _ l h]
  obtain ⟨v⟩ := v
  fin_cases v <;> rfl

end AlphaTables

/-- Settles O50, table by table. -/
theorem inversionTablesKeepValues : Obligations.InversionTablesKeepValues :=
  ⟨fun l h v => ⟨fourColourTable_swap l h v, threeColourTable_swap l h v⟩,
    fun l h v => ⟨eightLevelTable_swap l h v, sixLevelTable_swap l h v⟩⟩

/-! ### Decoding what CANON 0 leaves (R216, R217) -/

theorem dxt1Px_of_lt {e : Elem} (h : (dxt1High e).toNat < (dxt1Low e).toNat) (i : Fin 16) :
    dxt1Px e i = (fourColourTable (dxt1Low e) (dxt1High e))[(dxt1Sel e i).toFin] := by
  rw [dxt1Px, dxt1Table_of_lt h]

/-- Whatever the order of different endpoints, CANON 0 leaves the 4-colour formula's colours. -/
theorem dxt1Px_canonColour_four {e : Elem} (hne : dxt1Low e ≠ dxt1High e) (i : Fin 16) :
    dxt1Px (canonColour .fourColour e) i = (fourColourTable (dxt1Low e) (dxt1High e))[(dxt1Sel e i).toFin] := by
  rw [canonColour_four]
  rcases Nat.lt_or_gt_of_ne (mt BitVec.eq_of_toNat_eq hne) with h | h
  · obtain ⟨hlow, hhigh, hsel⟩ := dxt1Remap_swap_fields inv4 e
    rw [orderEndpoints_of_lt h, dxt1Px_of_lt (by rwa [hlow, hhigh]), hlow, hhigh]
    simp only [hsel]
    exact fourColourTable_swap ..
  · rw [orderEndpoints_of_gt h, dxt1Px_of_lt h]

theorem withAlpha_of_alpha {q : Pixel} {a : Byte} (h : q.a = a) : withAlpha q a = q := by
  rw [← h]; rfl

/-- Settles O53: DEC reads the element CANON left, and no entry of the 4-colour formula is transparent. -/
theorem canonKeepsIntendedColours : Obligations.CanonKeepsIntendedColours := by
  intro s t u hf hne ht hu i
  obtain ⟨b, hexec, -, hb⟩ := exec_canon_of_fmt .fourColour (s := s) (k := 0) (by rw [hf]; decide) (by rw [hf]; rfl)
  obtain rfl := Host.Outcome.next.inj (hexec.symm.trans ht)
  obtain rfl := Host.Outcome.next.inj ((exec_dec_of_format (f := .dxt1) (s := s.withBlock b) hf).symm.trans hu)
  calc (decodeAll .dxt1 b)[i]
    _ = decodePx .dxt1 b i := decodeAll_get ..
    _ = withAlpha (dxt1Px (canonColour .fourColour (elemOf s.blk 0)) i) 255 := by rw [decodePx, hb, elemOf_setElem_same]
    _ = _ := by rw [dxt1Px_canonColour_four hne, withAlpha_of_alpha (fourColourTable_alpha ..)]

/-! ### A block of one colour (R220) -/

theorem blend_self {wx wy d : Nat} (hd : wx + wy = d) (h0 : 0 < d) (x : Byte) : blend wx wy d x x = x := by
  apply BitVec.eq_of_toNat_eq
  rw [toNat_blend hd, ← Nat.add_mul, hd, Nat.mul_div_cancel_left _ h0]

/-- With equal endpoints the three colours of a cutout element are one. -/
theorem threeColourTable_equal (c : BitVec 16) :
    (threeColourTable c c)[0] = unpack565 c ∧ (threeColourTable c c)[1] = unpack565 c ∧
      (threeColourTable c c)[2] = unpack565 c := by
  refine ⟨rfl, rfl, ?_⟩
  rw [threeColourTable_blend, blendPixel]
  simp only [blend_self (wx := 1) (wy := 1) (d := 2) rfl (by decide)]
  rfl

/-- The first candidate stays when no other is nearer. -/
theorem nearest_of_first_least {n : Nat} {c : BitVec n} {cs : List (BitVec n)} {d : BitVec n → Nat} (h : ∀ x ∈ cs, d c ≤ d x) :
    nearest c cs d = (c, d c) := by
  induction cs with
  | nil => rfl
  | cons x cs ih =>
    rw [nearest_cons, if_neg (Nat.not_lt.mpr (h x (by simp))), ih fun y hy => h y (by simp [hy])]

section Solid

variable {e : Elem} {c : BitVec 16} (hl : dxt1Low e = c) (hh : dxt1High e = c)
include hl hh

theorem dxt1Table_equal : dxt1Table e = threeColourTable c c := by
  rw [dxt1Table_of_le (by rw [hl, hh]), hl, hh]

/-- In DXT1, where no pixel is transparent, equal endpoints make every pixel choose selector 0. -/
theorem selDxt1_equal (ctrl : BitVec 16) (q : Pixel) :
    selDxt1 .dxt1 ctrl e q = (0, wdist (ctrl.getLsbD 0) q (unpack565 c)) := by
  obtain ⟨h0, h1, h2⟩ := threeColourTable_equal c
  have hdist : ∀ v ∈ [0, 1, 2], dxt1Distance ctrl e q v = wdist (ctrl.getLsbD 0) q (unpack565 c) := by
    simp only [dxt1Distance, dxt1Table_equal hl hh]
    simpa using ⟨congrArg _ h0, congrArg _ h1, congrArg _ h2⟩
  rw [selDxt1_cutout (by rw [hl, hh]) (by simp), nearest_of_first_least, hdist 0 (by simp)]
  intro x hx
  rw [hdist 0 (by simp), hdist x (List.mem_cons_of_mem 0 hx)]

theorem dxt1Px_equal {i : Fin 16} (hs : dxt1Sel e i = 0) : dxt1Px e i = unpack565 c := by
  simp only [dxt1Px, hs, dxt1Table_equal hl hh]
  rfl

end Solid

/-- Of two blocks written one after the other the second stays, and OK is set already. -/
theorem State.withBlock_withBlock (s : State) (b b' : Block) : (s.withBlock b).withBlock b' = s.withBlock b' :=
  congrArg (fun st => { s with blk := b', status := st }) (setOk_setOk s.status)

/-- QNT for both endpoints of a DXT1 block. -/
theorem runCommands_qnt_qnt {s : State} (hf : s.fmt = 1) (n : Fin 16) (is : List Instr) :
    ∃ b, runCommands (.qnt n .low :: .qnt n .high :: is) s = runCommands is (s.withBlock b) ∧
      dxt1Low (elemOf b 0) = quant565 s.pix[n] ∧ dxt1High (elemOf b 0) = quant565 s.pix[n] := by
  have hfmt : s.fmt.toNat ∈ [1, 2, 3, 4] := by rw [hf]; decide
  have hk : (0 : Fin 2) = if s.fmt.toNat ≤ 2 then 0 else 1 := by rw [hf]; rfl
  obtain ⟨b, hlow, hb⟩ := exec_qnt_of_fmt n .low hfmt hk
  obtain ⟨b', hhigh, hb'⟩ := exec_qnt_of_fmt (s := s.withBlock b) n .high hfmt hk
  rw [State.withBlock_withBlock] at hhigh
  refine ⟨b', (runCommands_cons_of_exec hlow).trans (runCommands_cons_of_exec hhigh), ?_, ?_⟩
  · rw [hb', elemOf_setElem_same, setColourEndpoint, dxt1Low_setHigh, State.withBlock_blk, hb, elemOf_setElem_same]
    exact dxt1Low_setLow ..
  · rw [hb', elemOf_setElem_same]
    exact dxt1High_setHigh ..

theorem totalError_const (n : Nat) : totalError (fun _ => n) = 16 * n := by
  rw [totalError, pixelIndices, List.map_const', List.length_finRange, List.sum_replicate, smul_eq_mul]

/-- SELC on DXT1 with equal endpoints and every pixel `c`: the element it leaves and the error. -/
theorem exec_selc_solid {s : State} {c : Pixel} {q : BitVec 16} (hf : s.fmt = 1) (hc : ∀ i : Fin 16, s.pix[i] = c)
    (hl : dxt1Low (elemOf s.blk 0) = q) (hh : dxt1High (elemOf s.blk 0) = q) :
    ∃ t, exec .selc s = .next t ∧ t.fmt = 1 ∧ dxt1Low (elemOf t.blk 0) = q ∧ dxt1High (elemOf t.blk 0) = q ∧
      (∀ i : Fin 16, dxt1Sel (elemOf t.blk 0) i = 0) ∧
      t.err.toNat = 16 * wdist (s.ctrl.getLsbD 0) c (unpack565 q) := by
  obtain ⟨b, hexec, hb⟩ := exec_selc_colour (f := .dxt1) (k := 0) hf rfl
  simp only [hc, selDxt1_equal hl hh, totalError_const] at hexec hb
  obtain ⟨hlow, hhigh, hsel⟩ := dxt1SetAll_zero_fields (elemOf s.blk 0)
  have helem : elemOf b 0 = dxt1SetAll (elemOf s.blk 0) fun _ => 0 := by rw [hb, elemOf_setElem_same]
  have hbound := wdist_le (s.ctrl.getLsbD 0) c (unpack565 q)
  refine ⟨_, hexec, hf, ?_, ?_, fun i => ?_, toNat_withSelectors_err (by omega)⟩ <;> rw [State.withSelectors_blk, helem]
  · exact hlow.trans hl
  · exact hhigh.trans hh
  · exact hsel i

/-- Settles O49: equal endpoints give every pixel selector 0, and entry 0 is the endpoint's colour. -/
theorem solidBlockEncodesExactly : Obligations.SolidBlockEncodesExactly := by
  intro s c hf hc
  obtain ⟨b, hrun, hl, hh⟩ := runCommands_qnt_qnt hf 0 [.selc]
  rw [hc 0] at hl hh
  obtain ⟨t, hselc, hfmt, hlow, hhigh, hsel, herr⟩ := exec_selc_solid (s := s.withBlock b) hf hc hl hh
  refine ⟨t, _, hrun.trans (runCommands_cons_of_exec hselc), exec_dec_of_format (f := .dxt1) hfmt, hlow, hhigh, hsel, herr,
    fun i => ?_⟩
  have hpx : decodePx .dxt1 t.blk i = unpack565 (quant565 c) := by
    rw [decodePx, dxt1Px_equal hlow hhigh (hsel i)]
    rfl
  exact (decodeAll_get .dxt1 t.blk i).trans hpx

/-! ### The elements of a block by what they hold (R24) -/

/-- What an element of the block buffer holds under a format. -/
inductive ElemRole where
  | colour
  | alpha3
  | alpha5
  | etc1
  | unused

/-- The roles of R24: the colour element and the two kinds of alpha element, by format. -/
def elemRole (f : BlockFormat) (k : Fin 2) : ElemRole :=
  match f, k with
  | .dxt1, 0 => .colour
  | .dxt1a, 0 => .colour
  | .dxt3, 0 => .alpha3
  | .dxt3, 1 => .colour
  | .dxt5, 0 => .alpha5
  | .dxt5, 1 => .colour
  | .dxt5a, 0 => .alpha5
  | .etc1, 0 => .etc1
  | _, _ => .unused

/-! ### The field of one pixel in an element (R83 to R85, R88) -/

/-- `get` reads the pixel's field and `set` writes it; an element is the fields of its pixels and a `rest` no such write touches. -/
structure PixelField {β γ : Type} (set : Elem → Fin 16 → β → Elem) (get : Elem → Fin 16 → β) (rest : Elem → γ) : Prop where
  get_set (e : Elem) (i : Fin 16) (v : β) (j : Fin 16) : get (set e i v) j = if j = i then v else get e j
  rest_set (e : Elem) (i : Fin 16) (v : β) : rest (set e i v) = rest e
  ext (e e' : Elem) (hrest : rest e = rest e') (hget : ∀ j, get e j = get e' j) : e = e'

/-- Pixels have fields of their own, so their writes commute. -/
theorem PixelField.set_comm {β γ : Type} {set : Elem → Fin 16 → β → Elem} {get : Elem → Fin 16 → β} {rest : Elem → γ}
    (h : PixelField set get rest) (v : Fin 16 → β) (e : Elem) (i j : Fin 16) :
    set (set e i (v i)) j (v j) = set (set e j (v j)) i (v i) := by
  refine h.ext _ _ (by simp only [h.rest_set]) fun n => ?_
  simp only [h.get_set]
  rcases eq_or_ne n i with rfl | hi
  · rcases eq_or_ne n j with rfl | hj
    · rfl
    · simp [hj]
  · simp [hi]

theorem pixelField_dxt1 : PixelField dxt1SetSel dxt1Sel fun e => (dxt1Low e, dxt1High e) where
  get_set := dxt1Sel_setSel
  rest_set _ _ _ := rfl
  ext _ _ hrest hsel := dxt1_ext (congrArg Prod.fst hrest) (congrArg Prod.snd hrest) hsel

theorem pixelField_dxt3 : PixelField dxt3SetA4 dxt3A4 fun _ => () where
  get_set := dxt3A4_setA4
  rest_set _ _ _ := rfl
  ext _ _ _ := dxt3_ext

theorem pixelField_dxt5 : PixelField dxt5SetSel dxt5Sel fun e => (dxt5Low e, dxt5High e) where
  get_set := dxt5Sel_setSel
  rest_set _ _ _ := rfl
  ext _ _ hrest hsel := dxt5_ext (congrArg Prod.fst hrest) (congrArg Prod.snd hrest) hsel

theorem bits2_inj : ∀ {a b c d : Bool},
    BitVec.ofBool a ++ BitVec.ofBool b = BitVec.ofBool c ++ BitVec.ofBool d → a = c ∧ b = d := by
  decide

/-- Every place in the two planes of raw indices is some pixel's (R88). -/
theorem exists_etc1Number_eq {n : Nat} (h : n < 16) : ∃ i, etc1Number i = n :=
  ⟨⟨4 * (n % 4) + n / 4, by omega⟩, by simp only [etc1Number, pixelX, pixelY]; omega⟩

/-- An ETC1 element is its header and its raw indices: W's bits 31:16 and 15:0 are the upper and lower bits of those. -/
theorem etc1_ext {e e' : Elem} (hh : ∀ k, 32 ≤ k → (etc1Word e).getLsbD k = (etc1Word e').getLsbD k)
    (hs : ∀ i, etc1Sel e i = etc1Sel e' i) : e = e' := by
  refine etc1Word_inj (BitVec.eq_of_getLsbD_eq fun k _ => ?_)
  have hplanes : ∀ n, n < 16 → (etc1Word e).getLsbD (16 + n) = (etc1Word e').getLsbD (16 + n) ∧
      (etc1Word e).getLsbD n = (etc1Word e').getLsbD n := by
    intro n hn
    obtain ⟨i, rfl⟩ := exists_etc1Number_eq hn
    exact bits2_inj (hs i)
  by_cases hlow : k < 16
  · obtain ⟨-, hlower⟩ := hplanes k hlow
    exact hlower
  · by_cases hhigh : k < 32
    · obtain ⟨n, rfl⟩ := Nat.exists_eq_add_of_le (Nat.le_of_not_lt hlow)
      obtain ⟨hupper, -⟩ := hplanes n (by omega)
      exact hupper
    · exact hh k (Nat.le_of_not_lt hhigh)

theorem pixelField_etc1 : PixelField etc1SetSel etc1Sel fun e k => (etc1Word e).getLsbD (32 + k) where
  get_set := etc1Sel_setSel
  rest_set e i v := funext fun k => etc1Header_setSel e i v (32 + k) (Nat.le_add_right ..)
  ext _ _ hrest := etc1_ext fun k hk => by
    obtain ⟨n, rfl⟩ := Nat.exists_eq_add_of_le hk
    exact congrFun hrest n

/-! ### A choice reads the endpoints or the header, never a selector (R207, R209, R210) -/

theorem colourChoice_setSel (f : BlockFormat) (s : State) (e : Elem) (i : Fin 16) (v : BitVec 2) :
    colourChoice f s (dxt1SetSel e i v) = colourChoice f s e := rfl

theorem alphaChoice_setSel (s : State) (e : Elem) (i : Fin 16) (v : BitVec 3) :
    alphaChoice s (dxt5SetSel e i v) = alphaChoice s e := rfl

section Header

variable {e e' : Elem} (h : ∀ k, 32 ≤ k → (etc1Word e).getLsbD k = (etc1Word e').getLsbD k)
include h

theorem etc1Base_of_header (sb : SubBlock) : etc1Base e sb = etc1Base e' sb := by
  have hdiff : etc1Diff e = etc1Diff e' := h 33 (by decide)
  have hfield : ∀ lo len, 32 ≤ lo → etc1Field e lo len = etc1Field e' lo len := fun lo len hlo =>
    congrArg BitVec.toNat (extract_of_header h lo len hlo)
  have hsum : ∀ lo5 lo3, 32 ≤ lo5 → 32 ≤ lo3 → etc1Sum e lo5 lo3 = etc1Sum e' lo5 lo3 := fun lo5 lo3 h5 h3 => by
    rw [etc1Sum, hfield _ _ h5, hfield _ _ h3, etc1Sum]
  cases sb <;> simp [etc1Base, hdiff, hfield, etc1SumR, etc1SumG, etc1SumB, hsum]

theorem etc1TableIndex_of_header (sb : SubBlock) : etc1TableIndex e sb = etc1TableIndex e' sb := by
  cases sb with
  | one => exact extract_of_header h 37 3 (by decide)
  | two => exact extract_of_header h 34 3 (by decide)

theorem etc1Sub_of_header (i : Fin 16) : etc1Sub e i = etc1Sub e' i := by
  have hflip : etc1Flip e = etc1Flip e' := h 32 (by decide)
  rw [etc1Sub, hflip, etc1Sub]

theorem etc1Choice_of_header (s : State) : etc1Choice s e = etc1Choice s e' := by
  funext i
  simp only [etc1Choice, selEtc1, etc1Entry, etc1Sub_of_header h, etc1Base_of_header h, etc1TableIndex_of_header h]

end Header

/-! ### Pixels written one by one (R214) -/

/-- Pixel `i`'s field written into an element by its role, the choice read from `s` and the element `old`. -/
def writePixel (f : BlockFormat) (s : State) (old : Elem) (role : ElemRole) (e : Elem) (i : Fin 16) : Elem :=
  match role with
  | .colour => dxt1SetSel e i (colourChoice f s old i).1
  | .alpha3 => dxt3SetA4 e i (quant4 s.pix[i].a)
  | .alpha5 => dxt5SetSel e i (alphaChoice s old i).1
  | .etc1 => etc1SetSel e i (etc1Choice s old i).1
  | .unused => e

/-- The pixels of a list written in its order, every choice read from the element as it first stood. -/
def writePixels (f : BlockFormat) (s : State) (role : ElemRole) (l : List (Fin 16)) (old : Elem) : Elem :=
  l.foldl (writePixel f s old role) old

section Write

variable (f : BlockFormat) (s : State) (role : ElemRole) (old : Elem)

/-- Writing a pixel leaves every choice as it was. -/
theorem writePixel_writePixel_old (i : Fin 16) :
    writePixel f s (writePixel f s old role old i) role = writePixel f s old role := by
  funext e j
  cases role with
  | colour => rw [writePixel, writePixel, colourChoice_setSel, writePixel]
  | alpha3 | unused => rfl
  | alpha5 => rw [writePixel, writePixel, alphaChoice_setSel, writePixel]
  | etc1 => rw [writePixel, writePixel, etc1Choice_of_header (etc1Header_setSel old i _), writePixel]

theorem writePixel_comm (e : Elem) (i j : Fin 16) :
    writePixel f s old role (writePixel f s old role e i) j = writePixel f s old role (writePixel f s old role e j) i := by
  cases role with
  | colour => exact pixelField_dxt1.set_comm (fun i => (colourChoice f s old i).1) e i j
  | alpha3 => exact pixelField_dxt3.set_comm (fun i => quant4 s.pix[i].a) e i j
  | alpha5 => exact pixelField_dxt5.set_comm (fun i => (alphaChoice s old i).1) e i j
  | etc1 => exact pixelField_etc1.set_comm (fun i => (etc1Choice s old i).1) e i j
  | unused => rfl

/-- The order of the pixels does not matter. -/
theorem writePixels_perm {l l' : List (Fin 16)} (h : l.Perm l') : writePixels f s role l old = writePixels f s role l' old :=
  h.foldl_eq' (fun i _ j _ e => writePixel_comm f s role old e i j) old

theorem writePixels_unused (l : List (Fin 16)) : writePixels f s .unused l old = old := List.foldl_fixed ..

/-- Only CTRL and P steer the choices. -/
theorem writePixel_congr {t : State} (hc : t.ctrl = s.ctrl) (hp : t.pix = s.pix) :
    writePixel f t old role = writePixel f s old role := by
  funext e i
  cases role <;> simp only [writePixel, colourChoice, alphaChoice, etc1Choice, hc, hp]

end Write

/-- SETPX writes its pixel's field into each element, by the element's role. -/
theorem elemOf_setPixelBlock (f : BlockFormat) (i : Fin 16) (s : State) (k : Fin 2) :
    elemOf (setPixelBlock f i s) k = writePixel f s (elemOf s.blk k) (elemRole f k) (elemOf s.blk k) i := by
  cases f <;> fin_cases k <;>
    simp [setPixelBlock, elemOf_setColourPixel, elemOf_setAlphaPixel, elemOf_setNibblePixel, elemOf_setEtc1Pixel, elemRole,
      writePixel]

/-- A run of SETPX, by induction on its pixels: the choices SETPX makes are those of the block as it first stood. -/
theorem runCommands_setpx {s : State} {f : BlockFormat} (hf : s.fmt = formatCode f) (l : List (Fin 16)) :
    ∃ t, runCommands (l.map .setpx) s = some t ∧ ∀ k, elemOf t.blk k = writePixels f s (elemRole f k) l (elemOf s.blk k) := by
  induction l generalizing s with
  | nil => exact ⟨s, rfl, fun _ => rfl⟩
  | cons i l ih =>
    obtain ⟨t, hexec, hblk, -, -, hframe⟩ := exec_setpx_of_format hf i
    have hfmt : t.fmt = s.fmt := by rw [hframe]
    have hctrl : t.ctrl = s.ctrl := by rw [hframe]
    have hpix : t.pix = s.pix := by rw [hframe]
    obtain ⟨u, hrun, hu⟩ := ih (hfmt.trans hf)
    refine ⟨u, (runCommands_cons_of_exec hexec).trans hrun, fun k => ?_⟩
    rw [hu, hblk, elemOf_setPixelBlock, writePixels, writePixel_congr f s _ _ hctrl hpix, writePixel_writePixel_old]
    rfl

/-! ### The whole-block encoders (R205, R208, R212) -/

/-- `t` is `s` with every pixel written into element `k`, and nothing else moved that a later choice reads. -/
structure Encodes (f : BlockFormat) (k : Fin 2) (s t : State) : Prop where
  fmt_eq : t.fmt = s.fmt
  ctrl_eq : t.ctrl = s.ctrl
  pix_eq : t.pix = s.pix
  blk_eq : t.blk = setElem s.blk k (writePixels f s (elemRole f k) pixelIndices (elemOf s.blk k))

section Encoders

variable {f : BlockFormat} {s : State} (hf : s.fmt = formatCode f)
include hf

theorem exec_selc_encodes {k : Fin 2} (hk : elemRole f k = .colour) :
    ∃ t, exec .selc s = .next t ∧ Encodes f k s t := by
  have hcolour : colourElem f = some k := by
    revert hk
    cases f <;> fin_cases k <;> simp [elemRole, colourElem]
  obtain ⟨b, hexec, hb⟩ := exec_selc_colour hf hcolour
  exact ⟨_, hexec, rfl, rfl, rfl, hk ▸ hb⟩

theorem exec_selc_encodes_etc1 (hk : elemRole f 0 = .etc1) : ∃ t, exec .selc s = .next t ∧ Encodes f 0 s t := by
  have hfmt : s.fmt = 6 := by
    rw [hf]
    revert hk
    cases f <;> simp [elemRole, formatCode]
  obtain ⟨b, hexec, hb⟩ := exec_selc_etc1 hfmt
  exact ⟨_, hexec, rfl, rfl, rfl, hk ▸ hb⟩

theorem exec_sela_encodes (hk : elemRole f 0 = .alpha5) : ∃ t, exec .sela s = .next t ∧ Encodes f 0 s t := by
  have hfmt : s.fmt.toNat ∈ [4, 5] := by
    rw [hf]
    revert hk
    cases f <;> simp [elemRole, formatCode]
  obtain ⟨b, hexec, hb⟩ := exec_sela_of_fmt hfmt
  exact ⟨_, hexec, rfl, rfl, rfl, hk ▸ hb⟩

theorem exec_enca3_encodes (hk : elemRole f 0 = .alpha3) : ∃ t, exec .enca3 s = .next t ∧ Encodes f 0 s t := by
  have hfmt : s.fmt.toNat = 3 := by
    rw [hf]
    revert hk
    cases f <;> simp [elemRole, formatCode]
  obtain ⟨b, hexec, hb⟩ := exec_enca3_of_fmt hfmt
  exact ⟨_, hexec, rfl, rfl, rfl, hk ▸ hb⟩

end Encoders

theorem Encodes.elemOf_one {f : BlockFormat} {s t : State} (h : Encodes f 0 s t) (h1 : elemRole f 1 = .unused) (k : Fin 2) :
    elemOf t.blk k = writePixels f s (elemRole f k) pixelIndices (elemOf s.blk k) := by
  rw [h.blk_eq, elemOf_setElem]
  split
  · subst k; rfl
  · obtain rfl : k = 1 := by omega
    rw [h1, writePixels_unused]

theorem Encodes.elemOf_two {f : BlockFormat} {s t u : State} (h1 : Encodes f 1 s t) (h0 : Encodes f 0 t u) (k : Fin 2) :
    elemOf u.blk k = writePixels f s (elemRole f k) pixelIndices (elemOf s.blk k) := by
  have helem : elemOf t.blk 0 = elemOf s.blk 0 := by rw [h1.blk_eq, elemOf_setElem, if_neg (by decide)]
  rw [h0.blk_eq, elemOf_setElem, helem]
  split
  · subst k
    rw [writePixels, writePixel_congr f s _ _ h1.ctrl_eq h1.pix_eq, writePixels]
  · obtain rfl : k = 1 := by omega
    rw [h1.blk_eq, elemOf_setElem_same]

/-- One encoder for a format of one element, two for a format of two. -/
theorem runCommands_wholeBlockEncoders {s : State} {f : BlockFormat} (hf : s.fmt = formatCode f) :
    ∃ u, runCommands (wholeBlockEncoders f) s = some u ∧
      ∀ k, elemOf u.blk k = writePixels f s (elemRole f k) pixelIndices (elemOf s.blk k) := by
  cases f with
  | dxt1 | dxt1a =>
    obtain ⟨t, hexec, h⟩ := exec_selc_encodes hf (k := 0) rfl
    exact ⟨t, runCommands_cons_of_exec hexec, h.elemOf_one rfl⟩
  | etc1 =>
    obtain ⟨t, hexec, h⟩ := exec_selc_encodes_etc1 hf rfl
    exact ⟨t, runCommands_cons_of_exec hexec, h.elemOf_one rfl⟩
  | dxt5a =>
    obtain ⟨t, hexec, h⟩ := exec_sela_encodes hf rfl
    exact ⟨t, runCommands_cons_of_exec hexec, h.elemOf_one rfl⟩
  | dxt3 =>
    obtain ⟨t, hexec, h⟩ := exec_selc_encodes hf (k := 1) rfl
    obtain ⟨u, hexec', h'⟩ := exec_enca3_encodes (h.fmt_eq.trans hf) rfl
    exact ⟨u, (runCommands_cons_of_exec hexec).trans (runCommands_cons_of_exec hexec'), h.elemOf_two h'⟩
  | dxt5 =>
    obtain ⟨t, hexec, h⟩ := exec_selc_encodes hf (k := 1) rfl
    obtain ⟨u, hexec', h'⟩ := exec_sela_encodes (h.fmt_eq.trans hf) rfl
    exact ⟨u, (runCommands_cons_of_exec hexec).trans (runCommands_cons_of_exec hexec'), h.elemOf_two h'⟩

/-- Settles O48: both runs write the same pixels into each element, and the order does not matter. -/
theorem setpxInAnyOrderIsWholeBlockEncoding : Obligations.SetpxInAnyOrderIsWholeBlockEncoding := by
  intro s f l hf hl
  obtain ⟨t, ht, hblkt⟩ := runCommands_setpx hf l
  obtain ⟨u, hu, hblku⟩ := runCommands_wholeBlockEncoders hf
  have helem : ∀ k, elemOf t.blk k = elemOf u.blk k := fun k => by
    rw [hblkt, hblku]
    exact writePixels_perm f s (elemRole f k) (elemOf s.blk k) hl
  exact ⟨t, u, ht, hu, block_ext (helem 0) (helem 1)⟩

end Sys2Proof.Machine
end

section
/-! The inferences 45_flip.md draws: a flip is lossless (R241), its own inverse, and commutes with the other (R245). -/

namespace Sys2Proof.Machine

open Claims

/-! ### A reflected block, element by element (R241, R243) -/

/-- An element reflected by its role. -/
def reflectElem (role : ElemRole) (p : Fin 16 → Fin 16) (e : Elem) : Elem :=
  match role with
  | .colour => flipDxt1 e p
  | .alpha3 => flipDxt3 e p
  | .alpha5 => flipDxt5 e p
  | .etc1 => e
  | .unused => e

theorem elemOf_flipBlock {f : BlockFormat} {p : Fin 16 → Fin 16} {b b' : Block} (h : flipBlock f p b = some b') (k : Fin 2) :
    elemOf b' k = reflectElem (elemRole f k) p (elemOf b k) := by
  cases f with
  | etc1 => cases h
  | _ =>
    obtain rfl := Option.some.inj h
    fin_cases k <;> simp [elemOf_setElem, elemRole, reflectElem]

section Reflect

variable (role : ElemRole) (p q : Fin 16 → Fin 16) (e : Elem)

/-- Two reflections are one, by the permutations composed. -/
theorem reflectElem_reflectElem : reflectElem role q (reflectElem role p e) = reflectElem role (p ∘ q) e := by
  cases role with
  | colour => refine dxt1_ext ?_ ?_ fun i => ?_ <;> simp [reflectElem]
  | alpha3 => refine dxt3_ext fun i => ?_; simp [reflectElem]
  | alpha5 => refine dxt5_ext ?_ ?_ fun i => ?_ <;> simp [reflectElem]
  | etc1 | unused => rfl

theorem reflectElem_id : reflectElem role id e = e := by
  cases role with
  | colour => refine dxt1_ext ?_ ?_ fun i => ?_ <;> simp [reflectElem]
  | alpha3 => refine dxt3_ext fun i => ?_; simp [reflectElem]
  | alpha5 => refine dxt5_ext ?_ ?_ fun i => ?_ <;> simp [reflectElem]
  | etc1 | unused => rfl

end Reflect

/-! ### Decoding a reflected block (R241) -/

section Decode

variable (e : Elem) (p : Fin 16 → Fin 16) (i : Fin 16)

/-- The table depends on the endpoints, which a reflection keeps; the selector is the mirror pixel's. -/
theorem dxt1Px_flipDxt1 : dxt1Px (flipDxt1 e p) i = dxt1Px e (p i) := by
  simp [dxt1Px, dxt1Table, dxt1IsAlphaBlock]

theorem dxt3Px_flipDxt3 : dxt3Px (flipDxt3 e p) i = dxt3Px e (p i) := by
  simp [dxt3Px]

theorem dxt5Px_flipDxt5 : dxt5Px (flipDxt5 e p) i = dxt5Px e (p i) := by
  simp [dxt5Px, dxt5Table, dxt5Is6Level]

end Decode

theorem decodePx_flipBlock {f : BlockFormat} {p : Fin 16 → Fin 16} {b b' : Block} (h : flipBlock f p b = some b') (i : Fin 16) :
    decodePx f b' i = decodePx f b (p i) := by
  cases f with
  | etc1 => cases h
  | _ =>
    simp only [decodePx, elemOf_flipBlock h, elemRole, reflectElem, dxt1Px_flipDxt1, dxt3Px_flipDxt3, dxt5Px_flipDxt5]

/-- FMT 1 to 5 names a format that can be reflected. -/
theorem exists_reflectable_format {s : State} (h1 : 1 ≤ s.fmt.toNat) (h5 : s.fmt.toNat ≤ 5) :
    ∃ f, s.fmt = formatCode f ∧ f ≠ .etc1 := by
  obtain ⟨f, hf⟩ := validFormat_iff.mp ⟨h1, by omega⟩
  refine ⟨f, hf, ?_⟩
  rintro rfl
  exact absurd (hf ▸ h5) (by decide)

/-- Settles O55: DEC reads the flipped block, pixel by pixel the mirror pixel's colour. -/
theorem flipsAreLossless : Obligations.FlipsAreLossless := by
  intro vertical s t u v h1 h5 ht hu hv i
  obtain ⟨f, hf, hne⟩ := exists_reflectable_format h1 h5
  obtain ⟨b, hexec, hb⟩ := exec_flipCommand_of_format hf hne vertical
  obtain rfl := Host.Outcome.next.inj (hexec.symm.trans ht)
  obtain rfl := Host.Outcome.next.inj ((exec_dec_of_format (s := s.withBlock b) hf).symm.trans hu)
  obtain rfl := Host.Outcome.next.inj ((exec_dec_of_format hf).symm.trans hv)
  calc (decodeAll f b)[i]
    _ = decodePx f b i := decodeAll_get ..
    _ = decodePx f s.blk (flipSource vertical i) := decodePx_flipBlock hb i
    _ = (decodeAll f s.blk)[flipSource vertical i] := (decodeAll_get ..).symm

/-! ### Two flips (R245) -/

/-- The mirror pixel of the mirror pixel is the pixel. -/
theorem flipSource_involutive (vertical : Bool) : flipSource vertical ∘ flipSource vertical = id := by
  funext i
  revert vertical i
  decide

theorem flipSource_comm : flipSource false ∘ flipSource true = flipSource true ∘ flipSource false := by
  funext i
  revert i
  decide

/-- Two flips leave the block whose every element is reflected by both permutations. -/
theorem runCommands_flip_flip {s : State} {f : BlockFormat} (hf : s.fmt = formatCode f) (hne : f ≠ .etc1) (v w : Bool) :
    ∃ b, runCommands [flipCommand v, flipCommand w] s = some (s.withBlock b) ∧
      ∀ k, elemOf b k = reflectElem (elemRole f k) (flipSource v ∘ flipSource w) (elemOf s.blk k) := by
  obtain ⟨b, hexec, hb⟩ := exec_flipCommand_of_format hf hne v
  obtain ⟨b', hexec', hb'⟩ := exec_flipCommand_of_format (s := s.withBlock b) hf hne w
  rw [State.withBlock_withBlock] at hexec'
  refine ⟨b', (runCommands_cons_of_exec hexec).trans (runCommands_cons_of_exec hexec'), fun k => ?_⟩
  rw [elemOf_flipBlock hb', State.withBlock_blk, elemOf_flipBlock hb, reflectElem_reflectElem]

/-- Settles O56: two equal flips reflect by the identity, and the two orders of different flips reflect by the same permutation. -/
theorem flipsAreInvolutionsAndCommute : Obligations.FlipsAreInvolutionsAndCommute := by
  intro s h1 h5
  obtain ⟨f, hf, hne⟩ := exists_reflectable_format h1 h5
  refine ⟨fun v => ?_, ?_⟩
  · obtain ⟨b, hrun, hb⟩ := runCommands_flip_flip hf hne v v
    simp only [flipSource_involutive, reflectElem_id] at hb
    exact ⟨_, hrun, block_ext (hb 0) (hb 1)⟩
  · obtain ⟨b, hxy, hb⟩ := runCommands_flip_flip hf hne false true
    obtain ⟨b', hyx, hb'⟩ := runCommands_flip_flip hf hne true false
    have helem : ∀ k, elemOf b k = elemOf b' k := fun k => by rw [hb, hb', flipSource_comm]
    obtain rfl : b = b' := block_ext (helem 0) (helem 1)
    exact hxy.trans hyx.symm

end Sys2Proof.Machine
end
